-- ==== Sys2Proof/Word.lean ====
section
/-! DEFINITION. The word types: a command word, a response value, and the carrier of the sample values of spec/00_scope.md rule R8. -/

namespace Sys2Proof

/-- A command word (R70: "Every command is one 16-bit word"). -/
abbrev Word := BitVec 16

/-- The value half of a response, and a control and status register (R81, R34 to R38). -/
abbrev Word32 := BitVec 32

/-- A value of the domain `V` of R8, the ring that the parameter record leaves open.
The spec forbids assuming anything of `V` but that it is a commutative ring, and State must be plain
data, so a value is written as the CODE of a ring element: WHICH element a code stands for, and hence
every sum and product, is decided by the ring operations of the record `Numerics`, never by the
arithmetic of the integer inside.  Only one code is fixed: code 0 is the ring's zero.
(DESIGN CHOICE, notes/assumptions/1.md.) -/
structure Val where
  code : Int
deriving DecidableEq, Repr

/-- The ring's 0 (`0 of V` in R25, R28, R29, R43). -/
def Val.zero : Val := ⟨0⟩

end Sys2Proof
end

