-- ==== Sys2Proof/Config.lean ====
section
/-! DEFINITION. The configuration record of spec/00_scope.md rules R7 and R8: what one implementation of the block fixes, and the one uninterpreted configuration the machine runs under (R40: "fixed for the life of the block"). -/

namespace Sys2Proof

/-! ### Constants the document settles (first table of R7) -/

/-- NSB_MAX, NBAND and NPCM of R7. -/
abbrev nBand : Nat := 32

/-- HIST_LEN (R7: a well-formed `Cfg` has HIST_LEN = 1024; R144 assumes it). -/
abbrev histLen : Nat := 1024

/-- Which of the two channels of a slot: 0 = left (or only, or shared), 1 = right (R110). -/
abbrev Channel := Fin 2

/-- Which of the two filters: 0 = the document's filter 1, 1 = its filter 2 (R28, R73). -/
abbrev FilterNo := Fin 2

/-- The record `Numerics` of R8: a commutative ring on the codes `Val`, the tables, and `ToPcm`.
The laws are the ring's and the two R8 states (L1 holds because every field is a function;
L2 is `toPcm_zero`); nothing else may be assumed of it. -/
structure Numerics where
  /-- the ring's 1, +, * and unary - (its 0 is `Val.zero`) -/
  one : Val
  add : Val → Val → Val
  mul : Val → Val → Val
  neg : Val → Val
  /-- `Dequant(k, a, q)` -/
  dequant : BitVec 5 → Nat → Nat → Val
  /-- `Scf(s)` -/
  scf : Nat → Val
  /-- `IW(c, k)` -/
  iw : Channel → BitVec 5 → Val
  /-- `N(i, k)`, the matrixing coefficient -/
  matrix : Nat → Nat → Val
  /-- `D(i)`, the synthesis window coefficient -/
  window : Nat → Val
  /-- `ToPcm(v)` -/
  toPcm : Val → Int
  add_assoc : ∀ a b c, add (add a b) c = add a (add b c)
  add_comm : ∀ a b, add a b = add b a
  add_zero : ∀ a, add a Val.zero = a
  add_neg : ∀ a, add a (neg a) = Val.zero
  mul_assoc : ∀ a b c, mul (mul a b) c = mul a (mul b c)
  mul_comm : ∀ a b, mul a b = mul b a
  mul_one : ∀ a, mul a one = a
  mul_add : ∀ a b c, mul a (add b c) = add (mul a b) (mul a c)
  /-- law L2 of R8 -/
  toPcm_zero : toPcm Val.zero = 0

/-- The configuration record `Cfg` of R7, well formed by construction: the bounds are fields, so an
ill-formed `Cfg` (93_implementation_defined.md U24) cannot be written down. -/
structure Cfg where
  allocBits : Nat
  scfBits : Nat
  spf : Nat
  /-- `SampleLen(k, a)` -/
  sampleLen : BitVec 5 → Nat → Nat
  /-- `AllocLegal(a)` -/
  allocLegal : Nat → Bool
  pcmBits : Nat
  num : Numerics
  allocBits_range : 1 ≤ allocBits ∧ allocBits ≤ 16
  scfBits_range : 1 ≤ scfBits ∧ scfBits ≤ 16
  spf_range : 1 ≤ spf ∧ spf ≤ 16
  pcmBits_range : 1 ≤ pcmBits ∧ pcmBits ≤ 32
  /-- code 0 is legal: "Code 0: stored; the channel has no data this frame; no fault" (R112;
  DEDUCED, notes/assumptions/5.md) -/
  allocLegal_zero : allocLegal 0 = true
  /-- in 1..16 for every band and every legal non-zero code -/
  sampleLen_range : ∀ k a, a ≠ 0 → a < 2 ^ allocBits → allocLegal a = true →
    1 ≤ sampleLen k a ∧ sampleLen k a ≤ 16
  /-- `ToPcm` returns a PCM_BITS-bit two's complement value (R8, U19) -/
  toPcm_range : ∀ v, -(2 ^ (pcmBits - 1)) ≤ num.toPcm v ∧ num.toPcm v < 2 ^ (pcmBits - 1)

/-- The configuration with the defaults R7 recommends (ALLOC_BITS = 4, SCF_BITS = 6,
`SampleLen(k, a) = a + 1`, `AllocLegal(a) = (a != 15)`, PCM_BITS = 16), for any numerics and any SPF
(R7's default is 12).  The machine does NOT assume it: see `Config.cfg`. -/
def Cfg.withDefaults (num : Numerics) (spf : Nat) (hspf : 1 ≤ spf ∧ spf ≤ 16)
    (hpcm : ∀ v, -(2 ^ 15) ≤ num.toPcm v ∧ num.toPcm v < 2 ^ 15) : Cfg where
  allocBits := 4
  scfBits := 6
  spf := spf
  sampleLen := fun _ a => a + 1
  allocLegal := fun a => a != 15
  pcmBits := 16
  num := num
  allocBits_range := by decide
  scfBits_range := by decide
  spf_range := hspf
  pcmBits_range := by decide
  allocLegal_zero := by decide
  sampleLen_range := by
    intro _ a _ h1 h2
    have h3 : a ≠ 15 := by simpa using h2
    omega
  toPcm_range := hpcm

/-- A numerics record that satisfies R8's laws (the codes read as integers, every table 0).
Used ONLY to show that `Cfg` has a member, which Lean asks for before it lets `Config.cfgOf` be
uninterpreted; no proof can learn that the machine's numerics are these. -/
def Numerics.zeroTables : Numerics where
  one := ⟨1⟩
  add := fun a b => ⟨a.code + b.code⟩
  mul := fun a b => ⟨a.code * b.code⟩
  neg := fun a => ⟨-a.code⟩
  dequant := fun _ _ _ => Val.zero
  scf := fun _ => Val.zero
  iw := fun _ _ => Val.zero
  matrix := fun _ _ => Val.zero
  window := fun _ => Val.zero
  toPcm := fun _ => 0
  add_assoc := fun a b c => by simp [Int.add_assoc]
  add_comm := fun a b => by simp [Int.add_comm]
  add_zero := fun a => by simp [Val.zero]
  add_neg := fun a => congrArg Val.mk (Int.add_right_neg a.code)
  mul_assoc := fun a b c => by simp [Int.mul_assoc]
  mul_comm := fun a b => by simp [Int.mul_comm]
  mul_one := fun a => by simp
  mul_add := fun a b c => by simp [Int.mul_add]
  toPcm_zero := rfl

/-- A member of `Cfg`: see `Numerics.zeroTables`. -/
def Cfg.member : Cfg :=
  Cfg.withDefaults Numerics.zeroTables 12 (by decide) (fun _ => by simp [Numerics.zeroTables])

/-- THE UNINTERPRETED CONFIGURATION: a well-formed `Cfg`, no body, so nothing about it can be proved
but what every well-formed `Cfg` has (R40: "a parameter of the step function, not state"; R7, R8:
the rows the document leaves open). -/
opaque Config.cfgOf [Inhabited Cfg] : Cfg

/-- The configuration of the block that `Machine.exec` and `Machine.step` run. -/
def Config.cfg : Cfg := @Config.cfgOf ⟨Cfg.member⟩

end Sys2Proof
end

