-- ==== Sys2Proof/Syntax.lean ====
section
/-! DEFINITION. The commands: one constructor for each row of spec/opcode_table.json, operands as spec/30_encoding.md rules R71 to R76 give them (unsigned fields used as they stand). -/

namespace Sys2Proof

/-- A command of the opcode map R77. -/
inductive Instr where
  /-- NOP, format Z (R161) -/
  | nop
  /-- SETUP, format S: `chsel` = 0 BOTH, 1 LEFT, 2 RIGHT, 3 reserved (R74, R91) -/
  | setup (chsel : BitVec 2)
  /-- FRAME, format Z (R93) -/
  | frame
  /-- RDALLOC, format K (R111) -/
  | rdalloc (k : BitVec 5)
  /-- SFSEL, format Z (R97) -/
  | sfsel
  /-- GATE, format Z (R99) -/
  | gate
  /-- RDSCF, format K (R114) -/
  | rdscf (k : BitVec 5)
  /-- RDSMP, format K (R117) -/
  | rdsmp (k : BitVec 5)
  /-- PUT, format K (R131) -/
  | put (k : BitVec 5)
  /-- CALC, format F: `f` = 0 is the document's filter 1, `f` = 1 its filter 2 (R73, R143) -/
  | calcPcm (f : BitVec 1)
  /-- RDCSR, format C (R75, R162) -/
  | rdcsr (a : BitVec 4)
deriving DecidableEq, Repr

end Sys2Proof
end

