-- ==== Sys2Proof/WellFormed.lean ====
section
/-! DEFINITION. Which terms of `Instr` are commands. The operand types already bound every field; the one further constraint of the opcode map is that SETUP's `chsel` is not 3 (spec/30_encoding.md rules R77, R79). -/

namespace Sys2Proof

/-- "SETUP has one more constraint the mask does not express: `chsel = 3` is reserved" (R77). -/
def Instr.wellFormed : Instr → Bool
  | .nop => true
  | .setup chsel => chsel != 3#2
  | .frame => true
  | .rdalloc _ => true
  | .sfsel => true
  | .gate => true
  | .rdscf _ => true
  | .rdsmp _ => true
  | .put _ => true
  | .calcPcm _ => true
  | .rdcsr _ => true

end Sys2Proof
end

