-- ==== Sys2Proof/Decode.lean ====
section
/-! DEFINITION. The decoder of spec/30_encoding.md rules R77 and R78, total on the 65536 command words and refusing by name, and after it the encoder written from the formats R71 to R75. -/

namespace Sys2Proof

/-- Why a word is no command (R78, R79). -/
inductive DecodeError where
  /-- the opcode is 0xB to 0xF -/
  | reservedOpcode (op : BitVec 4)
  /-- a reserved bit of a command's format is 1 -/
  | reservedBit (op : BitVec 4)
  /-- SETUP with `chsel` = 3 -/
  | reservedChsel
deriving DecidableEq, Repr

/-- A row of the opcode map R77: a word `w` is the row's command when `w & mask = value`. -/
structure OpRow where
  mnemonic : String
  value : Word
  mask : Word
  build : Word → Instr

/-- The operand `k` of format K, bits 4:0 (R72). -/
def fieldK (w : Word) : BitVec 5 := w.extractLsb' 0 5

/-- The operand `f` of format F, bit 0 (R73). -/
def fieldF (w : Word) : BitVec 1 := w.extractLsb' 0 1

/-- The operand `chsel` of format S, bits 1:0 (R74). -/
def fieldChsel (w : Word) : BitVec 2 := w.extractLsb' 0 2

/-- The operand `a` of format C, bits 3:0 (R75). -/
def fieldA (w : Word) : BitVec 4 := w.extractLsb' 0 4

/-- The opcode, bits 15:12 (R70). -/
def fieldOp (w : Word) : BitVec 4 := w.extractLsb' 12 4

/-- The opcode map R77, in opcode order 0x0 to 0xA. -/
def opTable : List OpRow := [
  ⟨"NOP",     0x0000#16, 0xFFFF#16, fun _ => .nop⟩,
  ⟨"SETUP",   0x1000#16, 0xFFFC#16, fun w => .setup (fieldChsel w)⟩,
  ⟨"FRAME",   0x2000#16, 0xFFFF#16, fun _ => .frame⟩,
  ⟨"RDALLOC", 0x3000#16, 0xFFE0#16, fun w => .rdalloc (fieldK w)⟩,
  ⟨"SFSEL",   0x4000#16, 0xFFFF#16, fun _ => .sfsel⟩,
  ⟨"GATE",    0x5000#16, 0xFFFF#16, fun _ => .gate⟩,
  ⟨"RDSCF",   0x6000#16, 0xFFE0#16, fun w => .rdscf (fieldK w)⟩,
  ⟨"RDSMP",   0x7000#16, 0xFFE0#16, fun w => .rdsmp (fieldK w)⟩,
  ⟨"PUT",     0x8000#16, 0xFFE0#16, fun w => .put (fieldK w)⟩,
  ⟨"CALC",    0x9000#16, 0xFFFE#16, fun w => .calcPcm (fieldF w)⟩,
  ⟨"RDCSR",   0xA000#16, 0xFFF0#16, fun w => .rdcsr (fieldA w)⟩]

/-- R78: "read `op = w[15:12]`; if `op` is 0xB..0xF the word is illegal; else take the row of `op`;
if `w & mask != match` (a reserved bit is 1) the word is illegal; if the row is SETUP and
`w[1:0] = 3` the word is illegal; else the word is that command with its operand field". -/
def decode (w : Word) : Except DecodeError Instr :=
  match opTable[(fieldOp w).toNat]? with
  | none => .error (.reservedOpcode (fieldOp w))
  | some row =>
    if w &&& row.mask ≠ row.value then .error (.reservedBit (fieldOp w))
    else if (row.build w).wellFormed then .ok (row.build w)
    else .error .reservedChsel

/-- The word of a command, from the formats R71 to R75 (and the words of R82). -/
def encode : Instr → Word
  | .nop => 0x0000#16
  | .setup chsel => 0x1#4 ++ 0#10 ++ chsel
  | .frame => 0x2000#16
  | .rdalloc k => 0x3#4 ++ 0#7 ++ k
  | .sfsel => 0x4000#16
  | .gate => 0x5000#16
  | .rdscf k => 0x6#4 ++ 0#7 ++ k
  | .rdsmp k => 0x7#4 ++ 0#7 ++ k
  | .put k => 0x8#4 ++ 0#7 ++ k
  | .calcPcm f => 0x9#4 ++ 0#11 ++ f
  | .rdcsr a => 0xA#4 ++ 0#8 ++ a

/-- The word a number stands for when only its low `nbits` bits count (the host's numbering:
bit 0 is the least significant bit of the command's one word). -/
def tableWord (nbits w : Nat) : Word := BitVec.ofNat 16 (w % 2 ^ nbits)

/-- The decoder on a word of the opcode table: the instruction, or none where the decoder refuses. -/
def decodeTableWord (nbits w : Nat) : Option Instr := (decode (tableWord nbits w)).toOption

end Sys2Proof
end

