-- ==== Sys2Proof/Machine/State.lean ====
section
/-! DEFINITION. The block's state (spec/10_state.md rules R20 to R43), the environment behind its ports (spec/20_memory.md rules R53 to R58), the host's queue of moves, the reasons a step stops, and the state after reset. -/

namespace Sys2Proof.Machine

/-! ### Codes -/

/-- The variant of a slot, `SB[k].tag` (R22). -/
inductive Tag where
  | none | mono | stereo | intensity
deriving DecidableEq, Repr

/-- The channel selection `CHSEL` (R33; the code 3 "is never held"). -/
inductive ChSel where
  | both | left | right
deriving DecidableEq, Repr

/-- The sequencer's phase `PHASE` (R31; "Codes 10 to 14 are never held"). -/
inductive Phase where
  | unconf | idle | alloc | sfsel | gate | scf | read | write | calc0 | calc1 | faulted
deriving DecidableEq, Repr

/-- The fault codes of R190 ("Codes 6 to 15 are never produced"). -/
inductive FaultCode where
  | none | ill | seq | cfg | eod | fmt
deriving DecidableEq, Repr

/-- The channel mode the header's MODE code stands for (R33, R55). -/
inductive ChannelMode where
  | singleChannel | jointStereo | dualOrStereo
deriving DecidableEq, Repr

/-! ### The block's arrays -/

/-- One slot of the subband slot file (R21 to R26). `alloc` and `scf` are ALLOC_BITS and SCF_BITS wide
unsigned codes; both widths are parameters, so the fields are numbers and the bounds are part of
`Safety.SlotInv`. -/
structure Slot where
  tag : Tag
  alloc : Vector Nat 2
  scf : Vector Nat 2
  buf : Vector Val 2
  cnt : BitVec 4
deriving DecidableEq, Repr

/-- One synthesis filter: its input vector `S[f]` (R28) and its history `Vh[f]` (R29). -/
structure SynFilter where
  input : Vector Val nBand
  hist : Vector Val histLen
deriving DecidableEq, Repr

/-! ### The environment behind the ports (R41, R53 to R58) -/

/-- The four fields of the header port (R55). -/
structure Header where
  n : BitVec 6
  mode : BitVec 2
  bound : BitVec 6
  ckvalid : Bool
deriving DecidableEq, Repr

/-- One 32-sample PCM block, earliest sample first (R57). -/
abbrev PcmBlock := Vector Int nBand

/-- What the outside can see of the block (R14), in the order it happens (R69: "A model may record
one merged event history"). -/
inductive Event where
  /-- `BitRead(n)` consumed `n` bits and returned `v` -/
  | bitsRead (n v : Nat)
  /-- `CrcAdd(v, n)` -/
  | crcAdd (v n : Nat)
  /-- `SinkAppend(f, blk)` -/
  | sinkAppend (f : FilterNo) (blk : PcmBlock)
  /-- the response `(err, val)` of a command (R81) -/
  | response (err : BitVec 4) (val : Word32)
deriving DecidableEq, Repr

/-- The far ends of the ports: the reference environment of R54, R55, R56, R58. -/
structure Env where
  /-- the bitstream from the cursor on, first bit first (R54) -/
  bits : List Bool
  /-- the header port (R55) -/
  header : Header
  /-- whether a CRC accumulator is attached (R56) -/
  crcPresent : Bool
  /-- every port event and response so far, oldest first (R58, R69) -/
  history : List Event
deriving DecidableEq, Repr

/-- What the host may do next (R5, R6, R220, R228). The host presents commands one at a time; between
them it may use the liberties of R228 at the ports, and it may assert the reset input. -/
inductive HostMove where
  /-- present a command word on the command port (R70) -/
  | command (w : Word)
  /-- assert the reset input (R220) -/
  | reset
  /-- move the bitstream cursor, read from the stream, or replace it: what the cursor now stands before -/
  | setStream (bits : List Bool)
  /-- the external parser presents a header (R55) -/
  | setHeader (h : Header)
  /-- the external verifier's verdict becomes valid (R55, R228: "have CKVALID valid before GATE") -/
  | setCkvalid (v : Bool)
  /-- attach or detach the CRC accumulator (R228) -/
  | setCrc (present : Bool)
  /-- clear the accumulator or preload it with header bits (R228): its contents are outside the block, which
  cannot see them (R56) -/
  | touchCrc
  /-- the pipeline takes blocks out of the sink (R228); what was appended stays appended (R58) -/
  | consumeSink
deriving DecidableEq, Repr

/-! ### The state -/

/-- The block's state (R20: "exactly the following"), with the environment and the host's queue. -/
structure State where
  /-- `SB[0..31]`, the subband slot file (R21) -/
  sb : Vector Slot nBand
  /-- the two filters (R28, R29) -/
  filters : Vector SynFilter 2
  /-- `PHASE` (R30, R31) -/
  phase : Phase
  /-- `IDX`, 5 bits (R30) -/
  idx : BitVec 5
  /-- `RDLAST`, the value the most recent RDSMP returned (R32) -/
  rdlast : Bool
  /-- `WRLAST`, the value the most recent PUT returned (R32) -/
  wrlast : Bool
  /-- `GATEOK`, the outcome of the most recent GATE (R32) -/
  gateok : Bool
  /-- `CHSEL` (R33) -/
  chsel : ChSel
  /-- `CONF` (R33) -/
  conf : Bool
  /-- `N`, 6 bits (R33) -/
  n : BitVec 6
  /-- `MODE`, 2 bits (R33) -/
  mode : BitVec 2
  /-- `BOUND`, 6 bits (R33) -/
  bound : BitVec 6
  /-- `CRCEN` (R33) -/
  crcen : Bool
  /-- the fault record `FCODE`, `FPHASE`, `FIDX`, `FCMD` (R37) -/
  fcode : FaultCode
  fphase : Phase
  fidx : BitVec 5
  fcmd : Word
  /-- the far ends of the ports (R41), not the block's own state -/
  env : Env
  /-- the host's moves still to come, the next one first (R5: the host "issues commands") -/
  pending : List HostMove
deriving DecidableEq, Repr

/-! ### Why a step stops -/

/-- The machine's own faults. THERE ARE NONE: every fault of the spec (ILL, SEQ, CFG, EOD, FMT) is a state
the block enters and answers from (R196, R197), every port answers (R233: "the model assumes ports
always answer"), and the arithmetic cannot fault (R143). The type is closed and empty. -/
inductive Fault where
deriving DecidableEq, Repr

/-- Why a step has no meaning. -/
inductive Refusal where
  /-- raised by a refused arm of `exec`: the instruction has no meaning in this model yet (no arm uses it). Safe. -/
  | notModelled (mnemonic : String)
  /-- raised by `hostSetStream`: the host moved the cursor or the stream while PHASE is neither UNCONF nor
  IDLE, against its duty (R228, U22: "refuse"). Safe: the model has no such run. -/
  | streamMovedInFrame
  /-- raised by `hostSetHeader` and `hostSetCkvalid`: the host changed the header inside a frame, against its
  duty (R228, U22). Safe: the model has no such run. -/
  | headerChangedInFrame
  /-- raised by `hostSetCrc` and `hostTouchCrc`: the host changed the CRC accumulator while PHASE is neither UNCONF
  nor IDLE, against its duty (R228, U22). Safe: the model has no such run. -/
  | crcChangedInFrame
deriving DecidableEq, Repr

/-! ### Reset -/

/-- A slot after reset: tag NONE; its alloc, scf, buf and cnt are "unspecified" in R43, and the model
names the value 0 for each (DESIGN CHOICE, notes/assumptions/2.md). -/
def Slot.afterReset : Slot where
  tag := .none
  alloc := Vector.replicate 2 0
  scf := Vector.replicate 2 0
  buf := Vector.replicate 2 Val.zero
  cnt := 0#4

/-- A fresh filter: input vector and history all 0 of `V` (R43). -/
def SynFilter.fresh : SynFilter where
  input := Vector.replicate nBand Val.zero
  hist := Vector.replicate histLen Val.zero

/-- An environment with nothing in it: no stream, an all-zero header, no accumulator, empty logs
(R58: "Both start empty at reset of the environment"; the rest DESIGN CHOICE, notes/assumptions/3.md). -/
def Env.empty : Env where
  bits := []
  header := ⟨0#6, 0#2, 0#6, false⟩
  crcPresent := false
  history := []

/-- The machine right after reset: R43 for the block, an empty environment, no move pending
(R220: "after reset the block waits for SETUP"). -/
def State.reset : State where
  sb := Vector.replicate nBand Slot.afterReset
  filters := Vector.replicate 2 SynFilter.fresh
  phase := .unconf
  idx := 0#5
  rdlast := false
  wrlast := false
  gateok := false
  chsel := .both
  conf := false
  n := 0#6
  mode := 0#2
  bound := 0#6
  crcen := false
  fcode := .none
  fphase := .unconf
  fidx := 0#5
  fcmd := 0#16
  env := Env.empty
  pending := []

end Sys2Proof.Machine
end

