-- ==== Sys2Proof/Machine/Ops.lean ====
section
/-! DEFINITION. The operations every command is built from: accessors of the arrays, the port primitives of spec/00_scope.md rule R11, responses, taking a fault (spec/60_exceptions.md rule R196) and the only way out of one (reset, spec/70_reset_and_hazards.md rule R220), the sequencer primitives of R13, and the address spaces of R50. -/

namespace Sys2Proof.Machine

/-! ### Codes of the enumerations -/

/-- `SB[k].tag` as the 2-bit code of R22. -/
def Tag.code : Tag → BitVec 2
  | .none => 0 | .mono => 1 | .stereo => 2 | .intensity => 3

/-- `nch(tag)` (R22): "1 for MONO and INTENSITY, 2 for STEREO, 0 for NONE". -/
def Tag.nch : Tag → Nat
  | .none => 0 | .mono => 1 | .stereo => 2 | .intensity => 1

/-- `CHSEL` as the 2-bit code of R33. -/
def ChSel.code : ChSel → BitVec 2
  | .both => 0 | .left => 1 | .right => 2

/-- `PHASE` as the 4-bit code of R31. -/
def Phase.code : Phase → BitVec 4
  | .unconf => 0 | .idle => 1 | .alloc => 2 | .sfsel => 3 | .gate => 4 | .scf => 5
  | .read => 6 | .write => 7 | .calc0 => 8 | .calc1 => 9 | .faulted => 15

/-- A fault code as it appears in `err` and FCODE (R190). -/
def FaultCode.code : FaultCode → BitVec 4
  | .none => 0 | .ill => 1 | .seq => 2 | .cfg => 3 | .eod => 4 | .fmt => 5

/-- `ChannelMode(MODE)` (R33): "SingleChannel if MODE = 3, JointStereo if MODE = 1, DualOrStereo otherwise". -/
def channelMode (m : BitVec 2) : ChannelMode :=
  if m = 3 then .singleChannel else if m = 1 then .jointStereo else .dualOrStereo

/-- `need2` (R33): "`CHSEL = BOTH and ChannelMode(MODE) != SingleChannel`". -/
def State.need2 (s : State) : Bool :=
  decide (s.chsel = .both) && decide (channelMode s.mode ≠ .singleChannel)

/-! ### Arrays -/

/-- A vector given entry by entry. -/
def vec {α : Type} (n : Nat) (f : Nat → α) : Vector α n := ⟨⟨(List.range n).map f⟩, by simp⟩

/-- Entry `i` of a vector of values (`0` of `V` outside, where no rule looks). -/
def entry {n : Nat} (v : Vector Val n) (i : Nat) : Val := if h : i < n then v[i] else Val.zero

/-- The slot record `InitSlot(t)` of R94: tag `t`, every other field 0. -/
def initSlot (t : Tag) : Slot where
  tag := t
  alloc := Vector.replicate 2 0
  scf := Vector.replicate 2 0
  buf := Vector.replicate 2 Val.zero
  cnt := 0#4

/-- `SB[k]` (R10, R21). -/
def State.slot (s : State) (k : BitVec 5) : Slot := s.sb[k.toNat]'k.isLt

/-- `SB[k] <- x`. -/
def State.setSlot (s : State) (k : BitVec 5) (x : Slot) : State :=
  { s with sb := s.sb.set k.toNat x k.isLt }

/-- `SB[k].alloc[c] <- a` (R23). -/
def State.setAlloc (s : State) (k : BitVec 5) (c : Channel) (a : Nat) : State :=
  s.setSlot k { s.slot k with alloc := (s.slot k).alloc.set c.val a }

/-- `SB[k].scf[c] <- v` (R24). -/
def State.setScf (s : State) (k : BitVec 5) (c : Channel) (v : Nat) : State :=
  s.setSlot k { s.slot k with scf := (s.slot k).scf.set c.val v }

/-- `SB[k].buf[c] <- v` (R25). -/
def State.setBuf (s : State) (k : BitVec 5) (c : Channel) (v : Val) : State :=
  s.setSlot k { s.slot k with buf := (s.slot k).buf.set c.val v }

/-- `SB[k].cnt <- v` (R26). -/
def State.setCnt (s : State) (k : BitVec 5) (v : BitVec 4) : State :=
  s.setSlot k { s.slot k with cnt := v }

/-- SynFilter `f` (R28, R29). -/
def State.filter (s : State) (f : FilterNo) : SynFilter := s.filters[f.val]

/-- Replace filter `f`. -/
def State.setFilter (s : State) (f : FilterNo) (x : SynFilter) : State :=
  { s with filters := s.filters.set f.val x }

/-- `S[f][k] <- v` within a filter (nothing outside 0..31). -/
def SynFilter.setInput (x : SynFilter) (k : Nat) (v : Val) : SynFilter :=
  { x with input := x.input.setIfInBounds k v }

/-- `Vh[f][i] <- v` within a filter (nothing outside 0..HIST_LEN-1). -/
def SynFilter.setHist (x : SynFilter) (i : Nat) (v : Val) : SynFilter :=
  { x with hist := x.hist.setIfInBounds i v }

/-- `S[f][k]` (R10). -/
def State.inputAt (s : State) (f : FilterNo) (k : BitVec 5) : Val :=
  (s.filter f).input[k.toNat]'k.isLt

/-- `Inject(f, k, v)`: `S[f][k] <- v`. "It overwrites; it does not add." (R141) -/
def State.inject (s : State) (f : FilterNo) (k : BitVec 5) (v : Val) : State :=
  s.setFilter f ((s.filter f).setInput k.toNat v)

/-! ### The address spaces of R50 and MemRead / MemWrite of R10

No command names an address; these give R10's notation its meaning over the same state. -/

/-- The internal address spaces (R50). -/
inductive Space where
  | slot | s | vh
deriving DecidableEq, Repr

/-- What one address holds (R50: "one address holds one element"). -/
inductive Element where
  | slot (x : Slot)
  | val (v : Val)
deriving DecidableEq, Repr

/-- The element at `(space, index)`, none outside the index range: SLOT 0..31; S 0..63 with index
`32f + k`; VH 0..2*HIST_LEN-1 with index `HIST_LEN*f + i` (R50). -/
def State.memAt (s : State) : Space → Nat → Option Element
  | .slot, i => (s.sb[i]?).map .slot
  | .s, i => (s.filters[i / nBand]?).bind fun x => (x.input[i % nBand]?).map .val
  | .vh, i => (s.filters[i / histLen]?).bind fun x => (x.hist[i % histLen]?).map .val

/-- `MemRead(A, n)`: "the `n` consecutive elements of an internal array starting at address `A`" (R10). -/
def State.memRead (s : State) (sp : Space) (i n : Nat) : Option (List Element) :=
  (List.range n).mapM fun j => s.memAt sp (i + j)

/-- One element of `MemWrite`; none where the address does not exist or holds another kind of element. -/
def State.memPut (s : State) : Space → Nat → Element → Option State
  | .slot, i, .slot x => if h : i < nBand then some { s with sb := s.sb.set i x h } else none
  | .s, i, .val v =>
    if h : i / nBand < 2 then
      some (s.setFilter ⟨i / nBand, h⟩ ((s.filter ⟨i / nBand, h⟩).setInput (i % nBand) v))
    else none
  | .vh, i, .val v =>
    if h : i / histLen < 2 then
      some (s.setFilter ⟨i / histLen, h⟩ ((s.filter ⟨i / histLen, h⟩).setHist (i % histLen) v))
    else none
  | _, _, _ => none

/-- `MemWrite(A, n, v)` (R10), element after element. -/
def State.memWrite (s : State) (sp : Space) (i : Nat) : List Element → Option State
  | [] => some s
  | x :: rest => (s.memPut sp i x).bind fun s' => s'.memWrite sp (i + 1) rest

/-! ### The observation (R14, R58) -/

/-- Record an event at a port. -/
def State.emit (s : State) (e : Event) : State :=
  { s with env := { s.env with history := s.env.history ++ [e] } }

/-- `crclog`: the pairs `(v, n)` of the CrcAdd calls, in call order (R58). -/
def Env.crclog (e : Env) : List (Nat × Nat) :=
  e.history.filterMap fun | .crcAdd v n => some (v, n) | _ => none

/-- `sink`: the pairs `(f, blk)` of the SinkAppend calls, in call order (R58). -/
def Env.sink (e : Env) : List (FilterNo × PcmBlock) :=
  e.history.filterMap fun | .sinkAppend f b => some (f, b) | _ => none

/-- The responses `(err, val)`, in order (R14). -/
def Env.responses (e : Env) : List (BitVec 4 × Word32) :=
  e.history.filterMap fun | .response err val => some (err, val) | _ => none

/-- The number of bits consumed from the bitstream (R14). -/
def Env.bitsConsumed (e : Env) : Nat :=
  (e.history.map fun | .bitsRead n _ => n | _ => 0).sum

/-! ### Port primitives (R11) -/

/-- The unsigned number a run of bits stands for, "first bit consumed is the most significant" (R53, R54). -/
def bitsVal (bs : List Bool) : Nat := bs.foldl (fun acc b => 2 * acc + b.toNat) 0

/-- `BitRead(n)`: consume the next `n` bits and return them as an unsigned number; none if fewer than
`n` remain, and then nothing is consumed (R11, R53, R54). -/
def bitRead (n : Nat) (s : State) : Option (Nat × State) :=
  if s.env.bits.length < n then none
  else
    let v := bitsVal (s.env.bits.take n)
    some (v, { s with env := { s.env with
      bits := s.env.bits.drop n, history := s.env.history ++ [.bitsRead n v] } })

/-- `HdrRead(N)` (R11, R55). -/
def hdrN (s : State) : BitVec 6 := s.env.header.n

/-- `HdrRead(MODE)` (R11, R55). -/
def hdrMode (s : State) : BitVec 2 := s.env.header.mode

/-- `HdrRead(BOUND)` (R11, R55). -/
def hdrBound (s : State) : BitVec 6 := s.env.header.bound

/-- `HdrRead(CKVALID)` (R11, R55). -/
def hdrCkvalid (s : State) : Bool := s.env.header.ckvalid

/-- `CrcPresent()` (R11, R56). -/
def crcPresent (s : State) : Bool := s.env.crcPresent

/-- `CrcAdd(v, n)` (R11, R56). -/
def crcAdd (v n : Nat) (s : State) : State := s.emit (.crcAdd v n)

/-- `SinkAppend(f, blk)` (R11, R57). -/
def sinkAppend (f : FilterNo) (blk : PcmBlock) (s : State) : State := s.emit (.sinkAppend f blk)

/-! ### Responses, and a command's control flow -/

/-- `respond(err, val)` (R6, R81). -/
def respond (e : FaultCode) (v : Word32) (s : State) : State := s.emit (.response e.code v)

/-- A boolean result as a response value: "bit 0 is the boolean ... bits [31:1] are 0" (R81). -/
def boolVal (b : Bool) : Word32 := if b then 1#32 else 0#32

/-- Where a command stands: it goes on from a state, or it has answered and ended there (R12: a `raise`
"stops the command at that point"). -/
inductive CmdFlow where
  | go (s : State)
  | done (s : State)
deriving DecidableEq, Repr

/-- Go on with the rest of the command, unless it has ended. -/
def CmdFlow.andThen : CmdFlow → (State → CmdFlow) → CmdFlow
  | .go s, rest => rest s
  | .done s, _ => .done s

/-- The state a command leaves: "A rule's pseudocode that reaches its end without a `respond` ends with
`respond(0, 0)`" (R90). -/
def CmdFlow.finish : CmdFlow → State
  | .go s => respond .none 0 s
  | .done s => s

/-- `respond(0, val)` as a command's last act. -/
def answer (v : Word32) (s : State) : CmdFlow := .done (respond .none v s)

/-! ### Taking a fault, and the way out of one -/

/-- Taking a fault, R196, in its order: FCODE, FPHASE (the phase the command was checked against), FIDX,
FCMD, then PHASE <- FAULTED, then `respond(code, 0)`; everything else keeps what it held. -/
def takeFault (f : FaultCode) (cmd : Word) (s : State) : State :=
  respond f 0
    { s with fcode := f, fphase := s.phase, fidx := s.idx, fcmd := cmd, phase := .faulted }

/-- `raise <F>` inside a command (R12). -/
def raise (f : FaultCode) (cmd : Word) (s : State) : CmdFlow := .done (takeFault f cmd s)

/-- What a FAULTED block does with any command but NOP and RDCSR: nothing, and it answers `(FCODE, 0)` (R197). -/
def rejectSticky (s : State) : State := respond s.fcode 0 s

/-- An illegal command word (R79, R191, R198): ILL, "when the block is not already FAULTED". -/
def illegalWord (w : Word) (s : State) : State :=
  if s.phase = .faulted then rejectSticky s else takeFault .ill w s

/-- The reset input (R220), "the only way out of FAULTED": every piece of the block's state takes its
value of R43; "Reset does nothing to the environment" (R221). -/
def blockReset (s : State) : State := { State.reset with env := s.env, pending := s.pending }

/-! ### Reading bits inside a command -/

/-- `v <- BitRead(n)`, raising EOD where the stream ends (R53, R194). -/
def readBits (cmd : Word) (n : Nat) (s : State) (rest : Nat → State → CmdFlow) : CmdFlow :=
  match bitRead n s with
  | none => raise .eod cmd s
  | some (v, s') => rest v s'

/-- The loop over a slot's channels, `c = 0` then `c = 1`, of which there are `n` (R110). -/
def forChannels (n : Nat) (body : Channel → State → CmdFlow) (s : State) : CmdFlow :=
  (if 0 < n then body 0 s else .go s).andThen fun s => if 1 < n then body 1 s else .go s

/-! ### The sequencer (R13) -/

/-- `seq <- (P, i)`. -/
def setSeq (p : Phase) (i : BitVec 5) (s : State) : State := { s with phase := p, idx := i }

/-- `EndFrame()`: `seq <- (IDLE, 0)`. -/
def endFrame (s : State) : State := setSeq .idle 0 s

/-- `Advance(P_next)`: "`if IDX + 1 = N then seq <- (P_next, 0) else IDX <- IDX + 1`, the comparison done
on unbounded naturals" (R13). -/
def advance (next : Phase) (s : State) : State :=
  if s.idx.toNat + 1 = s.n.toNat then setSeq next 0 s
  else { s with idx := BitVec.ofNat 5 (s.idx.toNat + 1) }

/-! ### Sums in `V` -/

/-- `Σ_{i=0..n-1} f i` in the ring of `Numerics` (R9). -/
def sumV (num : Numerics) : Nat → (Nat → Val) → Val
  | 0, _ => Val.zero
  | n + 1, f => num.add (sumV num n f) (f n)

end Sys2Proof.Machine
end

