-- ==== Sys2Proof/Machine/Flags.lean ====
section
/-! DEFINITION. The three flags of spec/10_state.md rule R32 and what computes each: RDLAST from the slot's sample counter (spec/41_subband_read.md rules R117, R118), WRLAST (spec/42_subband_put.md rule R133), GATEOK (spec/40_frame_control.md rule R99). -/

namespace Sys2Proof.Machine

/-- "FRAME clears" RDLAST, WRLAST and GATEOK (R32, R93). -/
def clearFlags (s : State) : State := { s with rdlast := false, wrlast := false, gateok := false }

/-- The value RDSMP returns: whether this call reads the slot's last sample position of the frame,
`SB[k].cnt + 1 = SPF` on unbounded naturals (R15, R117, R118). -/
def burstDone (cfg : Cfg) (slot : Slot) : Bool := decide (slot.cnt.toNat + 1 = cfg.spf)

/-- The counter after an RDSMP: it "wraps ... to 0 when it reaches SPF" (R26, R117). -/
def nextCnt (cfg : Cfg) (slot : Slot) : BitVec 4 :=
  if burstDone cfg slot then 0#4 else BitVec.ofNat 4 (slot.cnt.toNat + 1)

/-- The value PUT returns: "always 1: the buffer is one value deep per channel" (R133). -/
def putDone : Bool := true

/-- The gate's outcome: open if no accumulator was attached when the frame began, else the header's
CKVALID (R99). -/
def gateOpen (s : State) : Bool := if s.crcen then hdrCkvalid s else true

end Sys2Proof.Machine
end

