-- ==== Sys2Proof/Machine/Operands.lean ====
section
/-! DEFINITION. What a command does with its operand field (spec/30_encoding.md rules R71 to R76): the acceptance check of spec/40_frame_control.md rule R90 with and without the subband index `k`, the filter number `f`, the selection `chsel`, the register address `a`. -/

namespace Sys2Proof.Machine

/-- `Accept(P)` (R90): a FAULTED block answers the sticky code and nothing else happens; a command in
another phase than the one it needs raises SEQ. -/
def accept (i : Instr) (p : Phase) (s : State) : CmdFlow :=
  if s.phase = .faulted then .done (rejectSticky s)
  else if s.phase ≠ p then raise .seq (encode i) s
  else .go s

/-- `Accept(P, k)` (R90): the same, and a subband index other than IDX raises SEQ. -/
def acceptAt (i : Instr) (p : Phase) (k : BitVec 5) (s : State) : CmdFlow :=
  (accept i p s).andThen fun s => if k ≠ s.idx then raise .seq (encode i) s else .go s

/-- Format F: `f` = 0 is filter 0, `f` = 1 filter 1 (R73). -/
def filterOf (f : BitVec 1) : FilterNo := f.toFin

/-- The phase in which `calc f` is accepted (R142, R143). -/
def calcPhase (f : BitVec 1) : Phase := if f = 0#1 then .calc0 else .calc1

/-- Format S: 0 = BOTH, 1 = LEFT, 2 = RIGHT, 3 = reserved (R74). -/
def selectionOf (chsel : BitVec 2) : Option ChSel :=
  if chsel = 0#2 then some .both
  else if chsel = 1#2 then some .left
  else if chsel = 2#2 then some .right
  else none

/-- CSR 0, `ID` (R34). -/
def csrId : Word32 := 0x50534631#32

/-- CSR 1, `CFG`: bits [1:0] = CHSEL, bit [2] = CONF, bits [31:3] = 0 (R35). -/
def csrCfg (s : State) : Word32 := 0#29 ++ BitVec.ofBool s.conf ++ s.chsel.code

/-- CSR 2, `STATUS`: bits [3:0] = PHASE, [8:4] = IDX, [9] = RDLAST, [10] = WRLAST, [11] = GATEOK,
[31:12] = 0 (R36). -/
def csrStatus (s : State) : Word32 :=
  0#20 ++ BitVec.ofBool s.gateok ++ BitVec.ofBool s.wrlast ++ BitVec.ofBool s.rdlast ++ s.idx ++ s.phase.code

/-- CSR 3, `FAULT`: bits [3:0] = FCODE, [7:4] = FPHASE, [12:8] = FIDX, [15:13] = 0, [31:16] = FCMD (R37). -/
def csrFault (s : State) : Word32 := s.fcmd ++ 0#3 ++ s.fidx ++ s.fphase.code ++ s.fcode.code

/-- CSR 4, `FRAMEINFO`: bits [5:0] = N, [7:6] = MODE, [13:8] = BOUND, [14] = CRCEN, [31:15] = 0 (R38). -/
def csrFrameInfo (s : State) : Word32 := 0#17 ++ BitVec.ofBool s.crcen ++ s.bound ++ s.mode ++ s.n

/-- `CSR(a)` (R162); "CSR addresses 5 to 15 hold nothing; RDCSR of one returns 0" (R39). -/
def csr (a : BitVec 4) (s : State) : Word32 :=
  if a = 0#4 then csrId
  else if a = 1#4 then csrCfg s
  else if a = 2#4 then csrStatus s
  else if a = 3#4 then csrFault s
  else if a = 4#4 then csrFrameInfo s
  else 0#32

end Sys2Proof.Machine
end

