-- ==== Sys2Proof/Machine/FrameControl.lean ====
section
/-! DEFINITION. The frame-control commands SETUP, FRAME, SFSEL and GATE (spec/40_frame_control.md rules R91 to R101). -/

namespace Sys2Proof.Machine

/-- SETUP (R91): latch the channel selection and leave UNCONF. `chsel` = 3 is no command: its word is
illegal and is treated as R79 says. -/
def execSetup (chsel : BitVec 2) (s : State) : Host.Outcome State Fault Refusal :=
  match selectionOf chsel with
  | none => .next (illegalWord (encode (.setup chsel)) s)
  | some sel =>
    .next ((accept (.setup chsel) .unconf s).andThen fun s =>
      .go (setSeq .idle 0 { s with chsel := sel, conf := true })).finish

/-- `Variant(k, n, m, b)` (R95), on the port's numbers. -/
def variant (k n : Nat) (m : BitVec 2) (b : Nat) : Tag :=
  if n ≤ k then .none
  else if m = 3 then .mono
  else if m = 1 ∧ k < b then .stereo
  else if m = 1 ∧ b ≤ k then .intensity
  else .stereo

/-- The slot file FRAME writes: `SB[k] <- InitSlot(Variant(k, n, m, b))` for all 32 slots (R93, R94). -/
def initSlots (n : Nat) (m : BitVec 2) (b : Nat) : Vector Slot nBand :=
  vec nBand fun k => initSlot (variant k n m b)

/-- What FRAME does with a valid header (R93): latch it and whether an accumulator is attached, clear
the flags, instantiate all 32 slots, and start the first pass (or none, if the count is 0). -/
def startFrame (s : State) : State :=
  let n := hdrN s
  let m := hdrMode s
  let b := hdrBound s
  let c := crcPresent s
  let s := { s with n := n, mode := m, bound := if m = 1#2 then b else 0#6, crcen := c }
  let s := clearFlags s
  let s := { s with sb := initSlots n.toNat m b.toNat }
  setSeq (if n = 0#6 then .sfsel else .alloc) 0 s

/-- FRAME after `Accept` (R93): the two CFG checks come before any write. -/
def frameBody (s : State) : CmdFlow :=
  if 32 < (hdrN s).toNat then raise .cfg (encode .frame) s
  else if hdrMode s = 1#2 ∧ (hdrN s).toNat < (hdrBound s).toNat then raise .cfg (encode .frame) s
  else .go (startFrame s)

/-- FRAME (R93). -/
def execFrame (s : State) : Host.Outcome State Fault Refusal :=
  .next ((accept .frame .idle s).andThen frameBody).finish

/-- SFSEL (R97): the placeholder phase; "Always executes without consuming bits here". -/
def execSfsel (s : State) : Host.Outcome State Fault Refusal :=
  .next ((accept .sfsel .sfsel s).andThen fun s => .go (setSeq .gate 0 s)).finish

/-- GATE after `Accept` (R99, R100). -/
def gateBody (s : State) : CmdFlow :=
  let ok := gateOpen s
  let s := { s with gateok := ok }
  let s := if ok = false ∨ s.n = 0 then endFrame s else setSeq .scf 0 s
  answer (boolVal ok) s

/-- GATE (R99). -/
def execGate (s : State) : Host.Outcome State Fault Refusal :=
  .next ((accept .gate .gate s).andThen gateBody).finish

end Sys2Proof.Machine
end

