-- ==== Sys2Proof/Machine/SubbandPut.lean ====
section
/-! DEFINITION. The subband write command PUT and the routing of values to filters (spec/42_subband_put.md rules R131 to R135). -/

namespace Sys2Proof.Machine

/-- A pair of the routing table, present only where the channel has data ("A channel whose allocation
is 0 contributes no pair", R132). -/
def routed (hasData : Bool) (f : FilterNo) (v : Val) : List (FilterNo × Val) :=
  if hasData then [(f, v)] else []

/-- `Route(slot, CHSEL, k)`: the table of R132, row by row and in its order. -/
def route (num : Numerics) (slot : Slot) (sel : ChSel) (k : BitVec 5) : List (FilterNo × Val) :=
  let d0 := slot.alloc[0] != 0
  let d1 := slot.alloc[1] != 0
  match slot.tag, sel with
  | .none, _ => []
  | .mono, .both => routed d0 0 slot.buf[0]
  | .mono, .left => routed d0 0 slot.buf[0]
  | .mono, .right => []
  | .stereo, .both => routed d0 0 slot.buf[0] ++ routed d1 1 slot.buf[1]
  | .stereo, .left => routed d0 0 slot.buf[0]
  | .stereo, .right => routed d1 0 slot.buf[1]
  | .intensity, .both =>
    routed d0 0 (num.mul (num.iw 0 k) slot.buf[0]) ++ routed d0 1 (num.mul (num.iw 1 k) slot.buf[0])
  | .intensity, .left => routed d0 0 (num.mul (num.iw 0 k) slot.buf[0])
  | .intensity, .right => routed d0 0 (num.mul (num.iw 1 k) slot.buf[0])

/-- `Inject(f, k, v)` for each pair, in the order listed (R131). -/
def injectAll (k : BitVec 5) (pairs : List (FilterNo × Val)) (s : State) : State :=
  pairs.foldl (fun s p => s.inject p.1 k p.2) s

/-- PUT (R131) under a configuration. -/
def execPutWith (cfg : Cfg) (k : BitVec 5) (s : State) : Host.Outcome State Fault Refusal :=
  .next ((acceptAt (.put k) .write k s).andThen fun s =>
    let s := injectAll k (route cfg.num (s.slot k) s.chsel k) s
    let s := { s with wrlast := putDone }
    answer (boolVal putDone) (advance .calc0 s)).finish

/-- PUT (R131). -/
def execPut (k : BitVec 5) (s : State) : Host.Outcome State Fault Refusal :=
  execPutWith Config.cfg k s

end Sys2Proof.Machine
end

