-- ==== Sys2Proof/Machine/SubbandRead.lean ====
section
/-! DEFINITION. The subband read commands RDALLOC, RDSCF and RDSMP (spec/41_subband_read.md rules R110 to R121): the block's loads, each from the bitstream port into one slot. -/

namespace Sys2Proof.Machine

/-- One channel of RDALLOC (R111): read the code, feed it to the accumulator when one was attached,
store it, then check it. -/
def rdallocChannel (cfg : Cfg) (k : BitVec 5) (c : Channel) (s : State) : CmdFlow :=
  readBits (encode (.rdalloc k)) cfg.allocBits s fun a s =>
    let s := if s.crcen then crcAdd a cfg.allocBits s else s
    let s := s.setAlloc k c a
    if cfg.allocLegal a then .go s else raise .fmt (encode (.rdalloc k)) s

/-- RDALLOC (R111) under a configuration. -/
def execRdallocWith (cfg : Cfg) (k : BitVec 5) (s : State) : Host.Outcome State Fault Refusal :=
  .next ((acceptAt (.rdalloc k) .alloc k s).andThen fun s =>
    (forChannels (s.slot k).tag.nch (rdallocChannel cfg k) s).andThen fun s =>
      .go (advance .sfsel s)).finish

/-- RDALLOC (R111). -/
def execRdalloc (k : BitVec 5) (s : State) : Host.Outcome State Fault Refusal :=
  execRdallocWith Config.cfg k s

/-- One channel of RDSCF (R114): a channel with allocation 0 reads nothing (R115). -/
def rdscfChannel (cfg : Cfg) (k : BitVec 5) (c : Channel) (s : State) : CmdFlow :=
  if (s.slot k).alloc[c.val] ≠ 0 then
    readBits (encode (.rdscf k)) cfg.scfBits s fun v s => .go (s.setScf k c v)
  else .go s

/-- RDSCF (R114) under a configuration. -/
def execRdscfWith (cfg : Cfg) (k : BitVec 5) (s : State) : Host.Outcome State Fault Refusal :=
  .next ((acceptAt (.rdscf k) .scf k s).andThen fun s =>
    (forChannels (s.slot k).tag.nch (rdscfChannel cfg k) s).andThen fun s =>
      .go (advance .read s)).finish

/-- RDSCF (R114). -/
def execRdscf (k : BitVec 5) (s : State) : Host.Outcome State Fault Refusal :=
  execRdscfWith Config.cfg k s

/-- The finished value of a sample: `Dequant(k, a, q) * Scf(scf)` (R117). -/
def sampleValue (cfg : Cfg) (k : BitVec 5) (a q scf : Nat) : Val :=
  cfg.num.mul (cfg.num.dequant k a q) (cfg.num.scf scf)

/-- One channel of RDSMP (R117): a channel with allocation 0 reads nothing (R120). -/
def rdsmpChannel (cfg : Cfg) (k : BitVec 5) (c : Channel) (s : State) : CmdFlow :=
  let a := (s.slot k).alloc[c.val]
  if a ≠ 0 then
    readBits (encode (.rdsmp k)) (cfg.sampleLen k a) s fun q s =>
      .go (s.setBuf k c (sampleValue cfg k a q (s.slot k).scf[c.val]))
  else .go s

/-- RDSMP after its channels (R117): count, set RDLAST, advance, return `r`. -/
def rdsmpEnd (cfg : Cfg) (k : BitVec 5) (s : State) : CmdFlow :=
  let r := burstDone cfg (s.slot k)
  let s := s.setCnt k (nextCnt cfg (s.slot k))
  let s := { s with rdlast := r }
  answer (boolVal r) (advance .write s)

/-- RDSMP (R117) under a configuration. -/
def execRdsmpWith (cfg : Cfg) (k : BitVec 5) (s : State) : Host.Outcome State Fault Refusal :=
  .next ((acceptAt (.rdsmp k) .read k s).andThen fun s =>
    (forChannels (s.slot k).tag.nch (rdsmpChannel cfg k) s).andThen (rdsmpEnd cfg k)).finish

/-- RDSMP (R117). -/
def execRdsmp (k : BitVec 5) (s : State) : Host.Outcome State Fault Refusal :=
  execRdsmpWith Config.cfg k s

end Sys2Proof.Machine
end

