-- ==== Sys2Proof/Machine/Synthesis.lean ====
section
/-! DEFINITION. The synthesis filters and CALC (spec/43_synthesis.md rules R140 to R149). -/

namespace Sys2Proof.Machine

/-- One of the 64 matrixed values: `Σ_{k=0..31} N(i, k) * X[k]` (R144). -/
def matrixed (num : Numerics) (x : Vector Val nBand) (i : Nat) : Val :=
  sumV num nBand fun k => num.mul (num.matrix i k) (entry x k)

/-- The new history `H'`: the 64 matrixed values at indices 0..63, the rest shifted up by 64 (R144). -/
def synthHist (num : Numerics) (h : Vector Val histLen) (x : Vector Val nBand) : Vector Val histLen :=
  vec histLen fun i => if i < 64 then matrixed num x i else entry h (i - 64)

/-- The 512-vector `U`: `U[64*i + j] = H'[128*i + j]`, `U[64*i + 32 + j] = H'[128*i + 96 + j]` (R144). -/
def synthU (h' : Vector Val histLen) (u : Nat) : Val :=
  if u % 64 < 32 then entry h' (128 * (u / 64) + u % 64)
  else entry h' (128 * (u / 64) + 96 + (u % 64 - 32))

/-- An output value before `ToPcm`: `y[j] = Σ_{i=0..15} U[j + 32*i] * D(j + 32*i)` (R144). -/
def synthY (num : Numerics) (h' : Vector Val histLen) (j : Nat) : Val :=
  sumV num 16 fun i => num.mul (synthU h' (j + 32 * i)) (num.window (j + 32 * i))

/-- The PCM block of a history: `blk[j] = ToPcm(y[j])` (R144). -/
def synthBlock (num : Numerics) (h' : Vector Val histLen) : PcmBlock :=
  vec nBand fun j => num.toPcm (synthY num h' j)

/-- `AfterPass()` (R146). -/
def afterPass (s : State) : State :=
  if s.wrlast = false then setSeq .write 0 s
  else if s.rdlast = false then setSeq .read 0 s
  else endFrame s

/-- Where the sequencer goes after CALC (R143): to the second filter's CALC if it is needed and still to
come, else on as `AfterPass` says. -/
def afterCalc (f : BitVec 1) (s : State) : State :=
  if f = 0#1 ∧ s.need2 = true then setSeq .calc1 0 s else afterPass s

/-- CALC after `Accept` (R143): history update, then the append, then the clearing of `S[f]` (R69, R145). -/
def calcBody (cfg : Cfg) (f : BitVec 1) (s : State) : CmdFlow :=
  let fi := filterOf f
  let h' := synthHist cfg.num (s.filter fi).hist (s.filter fi).input
  let s := s.setFilter fi { s.filter fi with hist := h' }
  let s := sinkAppend fi (synthBlock cfg.num h') s
  let s := s.setFilter fi { s.filter fi with input := Vector.replicate nBand Val.zero }
  .go (afterCalc f s)

/-- CALC (R143) under a configuration. -/
def execCalcWith (cfg : Cfg) (f : BitVec 1) (s : State) : Host.Outcome State Fault Refusal :=
  .next ((accept (.calcPcm f) (calcPhase f) s).andThen (calcBody cfg f)).finish

/-- CALC (R143). -/
def execCalc (f : BitVec 1) (s : State) : Host.Outcome State Fault Refusal :=
  execCalcWith Config.cfg f s

end Sys2Proof.Machine
end

