-- ==== Sys2Proof/Machine/System.lean ====
section
/-! DEFINITION. The system commands NOP and RDCSR (spec/44_system.md rules R160 to R163). They do not call `Accept`: both execute in every phase, FAULTED included. -/

namespace Sys2Proof.Machine

/-- NOP (R161): `respond(0, 0)`. -/
def execNop (s : State) : Host.Outcome State Fault Refusal := .next (respond .none 0 s)

/-- RDCSR (R162): `respond(0, CSR(a))`. -/
def execRdcsr (a : BitVec 4) (s : State) : Host.Outcome State Fault Refusal :=
  .next (respond .none (csr a s) s)

end Sys2Proof.Machine
end

