-- ==== Sys2Proof/Machine/Dispatch.lean ====
section
/-! DEFINITION. One arm per constructor of Instr: the meaning each command has. -/

namespace Sys2Proof.Machine

/-- The effect of one command on the machine (spec/30_encoding.md rule R77, column "semantics"). -/
def exec (i : Instr) (s : State) : Host.Outcome State Fault Refusal :=
  match i with
  | .nop => Sys2Proof.Machine.execNop s
  | .setup chsel => Sys2Proof.Machine.execSetup chsel s
  | .frame => Sys2Proof.Machine.execFrame s
  | .rdalloc k => Sys2Proof.Machine.execRdalloc k s
  | .sfsel => Sys2Proof.Machine.execSfsel s
  | .gate => Sys2Proof.Machine.execGate s
  | .rdscf k => Sys2Proof.Machine.execRdscf k s
  | .rdsmp k => Sys2Proof.Machine.execRdsmp k s
  | .put k => Sys2Proof.Machine.execPut k s
  | .calcPcm f => Sys2Proof.Machine.execCalc f s
  | .rdcsr a => Sys2Proof.Machine.execRdcsr a s

end Sys2Proof.Machine
end

