-- ==== Sys2Proof/Machine/HostMoves.lean ====
section
/-! DEFINITION. What the host does at the ports between commands: the liberties of spec/70_reset_and_hazards.md rule R228, each allowed in the phases its row names and refused in the others (93_implementation_defined.md U22). -/

namespace Sys2Proof.Machine

/-- The phases in which the host may touch the bitstream, the header and the accumulator (R228):
"PHASE in {UNCONF, IDLE}". -/
def betweenFrames (p : Phase) : Bool := p = .unconf || p = .idle

/-- The phases in which the verdict CKVALID may still arrive: between frames, and in a frame up to GATE
(R228: "have CKVALID valid before GATE"). -/
def beforeGate (p : Phase) : Bool := betweenFrames p || p = .alloc || p = .sfsel || p = .gate

/-- Move the cursor or replace the stream (R228, bitstream row). -/
def hostSetStream (bits : List Bool) (s : State) : Host.Outcome State Fault Refusal :=
  if betweenFrames s.phase then .next { s with env := { s.env with bits := bits } }
  else .refused .streamMovedInFrame

/-- Change the header's fields (R228, header row). -/
def hostSetHeader (h : Header) (s : State) : Host.Outcome State Fault Refusal :=
  if betweenFrames s.phase then .next { s with env := { s.env with header := h } }
  else .refused .headerChangedInFrame

/-- The verdict becomes valid (R228, header row). -/
def hostSetCkvalid (v : Bool) (s : State) : Host.Outcome State Fault Refusal :=
  if beforeGate s.phase then
    .next { s with env := { s.env with header := { s.env.header with ckvalid := v } } }
  else .refused .headerChangedInFrame

/-- Attach or detach the accumulator (R228, CRC row). -/
def hostSetCrc (present : Bool) (s : State) : Host.Outcome State Fault Refusal :=
  if betweenFrames s.phase then .next { s with env := { s.env with crcPresent := present } }
  else .refused .crcChangedInFrame

/-- Clear or preload the accumulator (R228, CRC row): nothing the block can see changes. -/
def hostTouchCrc (s : State) : Host.Outcome State Fault Refusal :=
  if betweenFrames s.phase then .next s else .refused .crcChangedInFrame

/-- Take blocks out of the sink (R228, sink row: "always"): the record of what was appended stays. -/
def hostConsumeSink (s : State) : Host.Outcome State Fault Refusal := .next s

end Sys2Proof.Machine
end

