-- ==== Sys2Proof/Machine/Fetch.lean ====
section
/-! DEFINITION. How a command word reaches the block, and the effect of each move of the host (spec/30_encoding.md rules R70, R78, R79; spec/60_exceptions.md rule R198). -/

namespace Sys2Proof.Machine

/-- A command word presented to the block: decoded and executed, or illegal (R78, R79, R198). -/
def runWord (w : Word) (s : State) : Host.Outcome State Fault Refusal :=
  match decode w with
  | .ok i => exec i s
  | .error _ => .next (illegalWord w s)

/-- The effect of one move of the host. -/
def runMove (m : HostMove) (s : State) : Host.Outcome State Fault Refusal :=
  match m with
  | .command w => runWord w s
  | .reset => .next (blockReset s)
  | .setStream bits => hostSetStream bits s
  | .setHeader h => hostSetHeader h s
  | .setCkvalid v => hostSetCkvalid v s
  | .setCrc present => hostSetCrc present s
  | .touchCrc => hostTouchCrc s
  | .consumeSink => hostConsumeSink s

end Sys2Proof.Machine
end

