-- ==== Sys2Proof/Machine/Step.lean ====
section
/-! DEFINITION. One step: the host's next move (spec/00_scope.md rules R5, R6). "The block has no instruction memory and fetches nothing; the host presents each command" (spec/10_state.md rule R30). -/

namespace Sys2Proof.Machine

/-- One step: the host's next move is taken from its queue and carried out to completion (R6, R61,
R222: reset only between commands); with no move pending the block waits and nothing changes
(R208: "waiting for a command"). -/
def step (s : State) : Host.Outcome State Fault Refusal :=
  match s.pending with
  | [] => .next s
  | m :: rest => runMove m { s with pending := rest }

/-- `s` with the command word of the table's numbering presented next: it is put at the head of the
host's queue, which is all that "fetching" takes on this block (notes/assumptions/4.md). -/
def State.withFetchWord (s : State) (nbits w : Nat) : State :=
  { s with pending := .command (tableWord nbits w) :: s.pending }

end Sys2Proof.Machine
end

