-- ==== Sys2Proof/Safety.lean ====
section
/-! DEFINITION. What counts as a legal command, a legal state and a completed run: the sequencer's transition table (spec/45_frame_sequence.md rule R170), the invariants the rules of spec/10_state.md claim of every state that can occur, and the end of a run (R177). -/

namespace Sys2Proof.Machine

/-! ### The sequencer's table (R170) -/

/-- The commands a phase accepts (R31, R170). NOP and RDCSR are accepted everywhere and are not in the table. -/
def Accepts (s : State) : Instr → Prop
  | .nop => True
  | .setup chsel => s.phase = .unconf ∧ chsel ≠ 3#2
  | .frame => s.phase = .idle
  | .rdalloc k => s.phase = .alloc ∧ k = s.idx
  | .sfsel => s.phase = .sfsel
  | .gate => s.phase = .gate
  | .rdscf k => s.phase = .scf ∧ k = s.idx
  | .rdsmp k => s.phase = .read ∧ k = s.idx
  | .put k => s.phase = .write ∧ k = s.idx
  | .calcPcm f => s.phase = calcPhase f
  | .rdcsr _ => True

/-- "IDX + 1 < N" or "IDX + 1 = N": the two rows of a pass in R170. -/
def passNext (s : State) (here next : Phase) : Phase × Nat :=
  if s.idx.toNat + 1 = s.n.toNat then (next, 0) else (here, s.idx.toNat + 1)

/-- AfterPass (R170, last sentence of the table). -/
def afterPassNext (s : State) : Phase × Nat :=
  if s.wrlast = false then (.write, 0) else if s.rdlast = false then (.read, 0) else (.idle, 0)

/-- The column "next (PHASE, IDX)" of R170 for an accepted command that raises no fault. -/
def nextSeq (s : State) : Instr → Phase × Nat
  | .nop => (s.phase, s.idx.toNat)
  | .setup _ => (.idle, 0)
  | .frame => if s.env.header.n = 0 then (.sfsel, 0) else (.alloc, 0)
  | .rdalloc _ => passNext s .alloc .sfsel
  | .sfsel => (.gate, 0)
  | .gate => if gateOpen s = false ∨ s.n = 0 then (.idle, 0) else (.scf, 0)
  | .rdscf _ => passNext s .scf .read
  | .rdsmp _ => passNext s .read .write
  | .put _ => passNext s .write .calc0
  | .calcPcm f => if f = 0#1 ∧ s.need2 = true then (.calc1, 0) else afterPassNext s
  | .rdcsr _ => (s.phase, s.idx.toNat)

/-! ### Invariants -/

/-- The phases of a frame after its scale factors have begun. -/
def Phase.afterGate (p : Phase) : Prop :=
  p = .scf ∨ p = .read ∨ p = .write ∨ p = .calc0 ∨ p = .calc1

/-- The phases in which every slot's allocation has been read and found legal. -/
def Phase.allocated (p : Phase) : Prop := p = .sfsel ∨ p = .gate ∨ p.afterGate

/-- The phases that take a subband index. -/
def Phase.takesIndex (p : Phase) : Prop := p = .alloc ∨ p = .scf ∨ p = .read ∨ p = .write

/-- The sequencer and the latches (R30: IDX "never holds a value >= max(N, 1)"; R33: N and BOUND in
0..32; R93: BOUND is 0 unless the mode is joint stereo, and then at most N; R142: CALC1 only when
`need2`; R99: SCF and later only with an open gate). -/
structure SeqInv (s : State) : Prop where
  idx_lt : s.idx.toNat < max s.n.toNat 1
  n_le : s.n.toNat ≤ 32
  bound_le : s.bound.toNat ≤ s.n.toNat
  bound_joint : s.mode ≠ 1#2 → s.bound = 0#6
  idx_zero : ¬ s.phase.takesIndex → s.phase ≠ .faulted → s.idx = 0#5
  n_pos : s.phase = .alloc ∨ s.phase.afterGate → 0 < s.n.toNat
  calc1_need2 : s.phase = .calc1 → s.need2 = true
  gate_open : s.phase.afterGate → s.gateok = true
  put_done : s.phase = .calc0 ∨ s.phase = .calc1 → s.wrlast = true
  configured : s.phase ≠ .unconf → s.phase ≠ .faulted → s.conf = true
  unconfigured : s.phase = .unconf → s.conf = false ∧ s.n = 0#6

/-- The fault record (R37, R197): it is written exactly when the block is FAULTED, FIDX is the IDX the
fault left, and FPHASE is a phase in which a fault can be raised. -/
structure FaultInv (s : State) : Prop where
  faulted_iff : s.phase = .faulted ↔ s.fcode ≠ .none
  unwritten : s.fcode = .none → s.fphase = .unconf ∧ s.fidx = 0#5 ∧ s.fcmd = 0#16
  fphase_ne : s.fphase ≠ .faulted
  fidx_eq : s.fcode ≠ .none → s.fidx = s.idx

/-- One slot `SB[k]` in a state (R21 to R26): its tag is the frame's variant, its codes fit their widths,
its counter is below SPF, a channel it does not have holds 0, and a channel without data holds scale
factor 0 and value 0 (R115, R120). -/
structure SlotOk (cfg : Cfg) (s : State) (k : BitVec 5) : Prop where
  tag_eq : (s.slot k).tag = variant k.toNat s.n.toNat s.mode s.bound.toNat
  alloc_lt : ∀ c : Channel, (s.slot k).alloc[c.val] < 2 ^ cfg.allocBits
  scf_lt : ∀ c : Channel, (s.slot k).scf[c.val] < 2 ^ cfg.scfBits
  cnt_lt : (s.slot k).cnt.toNat < cfg.spf
  absent : ∀ c : Channel, (s.slot k).tag.nch ≤ c.val → (s.slot k).alloc[c.val] = 0
  silent : ∀ c : Channel, (s.slot k).alloc[c.val] = 0 →
    (s.slot k).scf[c.val] = 0 ∧ (s.slot k).buf[c.val] = Val.zero
  legal : s.phase.allocated ∨ (s.phase = .alloc ∧ k.toNat < s.idx.toNat) →
    ∀ c : Channel, c.val < (s.slot k).tag.nch → cfg.allocLegal (s.slot k).alloc[c.val] = true
  unread : s.phase = .alloc → s.idx.toNat ≤ k.toNat → ∀ c : Channel, (s.slot k).alloc[c.val] = 0

/-- Every slot is as `SlotOk` says. -/
def SlotInv (cfg : Cfg) (s : State) : Prop := ∀ k : BitVec 5, SlotOk cfg s k

/-- The phases in which an input vector may hold a value (R28: "outside a write pass, every `S[f][k]` is
0"; a write pass ends with its CALCs, and a FAULTED block keeps what it held). -/
def Phase.inWritePass (p : Phase) : Prop := p = .write ∨ p = .calc0 ∨ p = .calc1 ∨ p = .faulted

/-- The input vectors (R28, R135, R142): 0 outside a write pass, 0 for the bands still to be put and for
unused bands, and filter 1 is untouched unless `need2`. -/
structure FilterInv (s : State) : Prop where
  outside : ¬ s.phase.inWritePass → ∀ f k, s.inputAt f k = Val.zero
  toPut : s.phase = .write → ∀ f k, s.idx.toNat ≤ k.toNat → s.inputAt f k = Val.zero
  unused : ∀ f k, s.n.toNat ≤ k.toNat → s.inputAt f k = Val.zero
  filter1 : s.need2 = false → ∀ k, s.inputAt 1 k = Val.zero
  computed : s.phase = .calc1 → ∀ k, s.inputAt 0 k = Val.zero

/-- Lock-step (R118, R120): before the first read pass every counter is 0; in a read pass the slots
already read are one position ahead of the others; after it all slots agree, and RDLAST says whether
the position read was the frame's last. -/
structure LockInv (cfg : Cfg) (s : State) : Prop where
  start : s.phase = .alloc ∨ s.phase = .sfsel ∨ s.phase = .gate ∨ s.phase = .scf →
    ∀ k : BitVec 5, (s.slot k).cnt = 0#4
  reading : s.phase = .read → ∃ c, c < cfg.spf ∧ ∀ k : BitVec 5, k.toNat < s.n.toNat →
    (s.slot k).cnt.toNat = (if k.toNat < s.idx.toNat then (c + 1) % cfg.spf else c)
  drained : s.phase = .write ∨ s.phase = .calc0 ∨ s.phase = .calc1 →
    ∃ c, c < cfg.spf ∧ (s.rdlast = true ↔ c = 0) ∧
      ∀ k : BitVec 5, k.toNat < s.n.toNat → (s.slot k).cnt.toNat = c

/-- Everything the rules claim of a state that can occur, under the machine's configuration. -/
structure Inv (s : State) : Prop where
  seq : SeqInv s
  fault : FaultInv s
  slots : SlotInv Config.cfg s
  filters : FilterInv s
  lock : LockInv Config.cfg s

/-! ### The end of a run (R177) -/

/-- "A run is complete when its last state has PHASE = IDLE or PHASE = UNCONF and FCODE = 0". -/
def Complete (s : State) : Prop := (s.phase = .idle ∨ s.phase = .unconf) ∧ s.fcode = .none

/-- "A run whose last state has PHASE = FAULTED has failed". -/
def Failed (s : State) : Prop := s.phase = .faulted

end Sys2Proof.Machine
end

