-- ==== Sys2Proof/Certificates/Slice0/Obligations.lean ====
section
/-! DEFINITION. The statements for the provers. Each docstring names the rules of spec/ it comes from; a state written as a record update says that every field not named in it is unchanged. -/

open Sys2Proof Sys2Proof.Machine

/-! ### Words the statements share -/

namespace Sys2Proof.Claims

/-- The word of a format-K command (R82: `0x3000 + k` and so on). -/
def wordK (base : Word) (k : BitVec 5) : Word := base + k.setWidth 16

/-- The state with these events recorded after its own. -/
def logged (s : State) (events : List Event) : State :=
  { s with env := { s.env with history := s.env.history ++ events } }

/-- The state with the cursor moved to where `rest` is what remains, and these events recorded. -/
def consumed (s : State) (rest : List Bool) (events : List Event) : State :=
  { s with env := { s.env with bits := rest, history := s.env.history ++ events } }

/-- Channel `c` of slot `k` exists and has data (R22, R23). -/
abbrev HasData (s : State) (k : BitVec 5) (c : Channel) : Prop :=
  c.val < (s.slot k).tag.nch ∧ (s.slot k).alloc[c.val] ≠ 0

/-- How many bits a read of `len` bits takes on a channel that reads only where it has data. -/
def width (s : State) (k : BitVec 5) (c : Channel) (len : Nat) : Nat := if HasData s k c then len else 0

/-- The event of such a read, if there is one. -/
def readEvent (s : State) (k : BitVec 5) (c : Channel) (len v : Nat) : List Event :=
  if HasData s k c then [.bitsRead len v] else []

/-- PHASE after a command of a pass (R13): the next phase after the last slot. -/
def passPhase (s : State) (here next : Phase) : Phase := if s.idx.toNat + 1 = s.n.toNat then next else here

/-- IDX after a command of a pass (R13). -/
def passIdx (s : State) : BitVec 5 :=
  if s.idx.toNat + 1 = s.n.toNat then 0 else BitVec.ofNat 5 (s.idx.toNat + 1)

/-- The state RDALLOC leaves after reading code `a` for channel `c`, `events` being the events so far:
`rest` remains of the stream, the code is fed to the accumulator if CRCEN, and it is stored (R111). -/
def codeStored (cfg : Cfg) (s : State) (k : BitVec 5) (c : Channel) (a : Nat) (rest : List Bool) : State :=
  (consumed s rest ([.bitsRead cfg.allocBits a] ++ if s.crcen then [.crcAdd a cfg.allocBits] else [])).setSlot k
    { s.slot k with alloc := (s.slot k).alloc.set c.val a }

/-- The other filter. -/
def otherFilter (f : FilterNo) : FilterNo := if f = 0 then 1 else 0

/-- Every entry of a vector of values is 0. -/
def AllZero {n : Nat} (v : Vector Val n) : Prop := ∀ i, i < n → entry v i = Val.zero

/-- The sum of two vectors of values. -/
def sumVec (num : Numerics) {n : Nat} (v w : Vector Val n) : Vector Val n :=
  vec n fun i => num.add (entry v i) (entry w i)

/-- `n` CALCs of a filter into which nothing is injected. -/
def silentCalcs (num : Numerics) : Nat → Vector Val histLen → Vector Val histLen
  | 0, h => h
  | n + 1, h => silentCalcs num n (synthHist num h (Vector.replicate nBand Val.zero))

/-- The history after CALCs of one filter with these inputs, the first one first. -/
def calcsOf (num : Numerics) : List (Vector Val nBand) → Vector Val histLen → Vector Val histLen
  | [], h => h
  | x :: xs, h => calcsOf num xs (synthHist num h x)

/-- What R43's table gives of a state after reset; the slots' `alloc`, `scf`, `buf` and `cnt`, which it calls
unspecified, are not mentioned. -/
def HasResetValues (s : State) : Prop :=
  s.phase = .unconf ∧ s.idx = 0 ∧ s.rdlast = false ∧ s.wrlast = false ∧ s.gateok = false ∧
  s.chsel = .both ∧ s.conf = false ∧ s.n = 0 ∧ s.mode = 0 ∧ s.bound = 0 ∧ s.crcen = false ∧
  s.fcode = .none ∧ s.fphase = .unconf ∧ s.fidx = 0 ∧ s.fcmd = 0 ∧
  (∀ k, (s.slot k).tag = .none) ∧ (∀ f k, s.inputAt f k = Val.zero) ∧ (∀ f, AllZero (s.filter f).hist)

end Sys2Proof.Claims

open Sys2Proof.Claims

/-! ### Encoding -/

/-- R82, R77, R79 (and the vectors of 95_test_vectors.md section 3): words written out from the encodings. -/
def Obligations.SpecWordsDecode : Prop :=
  decode 0x0000#16 = .ok .nop ∧
  decode 0x1000#16 = .ok (.setup 0) ∧ decode 0x1001#16 = .ok (.setup 1) ∧ decode 0x1002#16 = .ok (.setup 2) ∧
  decode 0x2000#16 = .ok .frame ∧ decode 0x301F#16 = .ok (.rdalloc 31) ∧
  decode 0x4000#16 = .ok .sfsel ∧ decode 0x5000#16 = .ok .gate ∧
  decode 0x6005#16 = .ok (.rdscf 5) ∧ decode 0x7005#16 = .ok (.rdsmp 5) ∧ decode 0x8005#16 = .ok (.put 5) ∧
  decode 0x9001#16 = .ok (.calcPcm 1) ∧ decode 0xA00F#16 = .ok (.rdcsr 15) ∧
  decode 0x1003#16 = .error .reservedChsel ∧ decode 0x1004#16 = .error (.reservedBit 1) ∧
  decode 0x3020#16 = .error (.reservedBit 3) ∧ decode 0xC123#16 = .error (.reservedOpcode 0xC)

/-- R71 to R78: decoding an encoded command gives it back, for every command and every operand value. -/
def Obligations.DecodeOfEncodeIsTheCommand : Prop :=
  ∀ i : Instr, i.wellFormed = true → decode (encode i) = .ok i

/-- R78, "every 16-bit word is either exactly one command of rule R77 or illegal": a word decodes to a command
exactly when it is that command's one encoding. -/
def Obligations.DecodedWordIsTheEncoding : Prop :=
  ∀ (w : Word) (i : Instr), decode w = .ok i ↔ i.wellFormed = true ∧ encode i = w

/-- R79, "The illegal words are: ...", by the fields of the formats R71 to R75 (not by the masks). -/
def Obligations.IllegalWordsAreExactlyTheReserved : Prop :=
  ∀ w : Word, (∃ e, decode w = .error e) ↔
    (0xB#4 ≤ w.extractLsb' 12 4 ∨
     (w.extractLsb' 12 4 ∈ [0x0#4, 0x2#4, 0x4#4, 0x5#4] ∧ w.extractLsb' 0 12 ≠ 0) ∨
     (w.extractLsb' 12 4 ∈ [0x3#4, 0x6#4, 0x7#4, 0x8#4] ∧ w.extractLsb' 5 7 ≠ 0) ∨
     (w.extractLsb' 12 4 = 0x1#4 ∧ w.extractLsb' 2 10 ≠ 0) ∨
     (w.extractLsb' 12 4 = 0x9#4 ∧ w.extractLsb' 1 11 ≠ 0) ∨
     (w.extractLsb' 12 4 = 0xA#4 ∧ w.extractLsb' 4 8 ≠ 0) ∨
     w = 0x1003#16)

/-! ### The step -/

/-- R6, R70: when the host's next move is a command word that decodes to `i`, the step is `exec i`, on the state
with that move taken off the queue; with no move pending the block waits and nothing changes (R208, R220). -/
def Obligations.StepRunsTheDecodedCommand : Prop :=
  (∀ (s : State) (w : Word) (rest : List HostMove) (i : Instr), s.pending = .command w :: rest → decode w = .ok i →
    step s = exec i { s with pending := rest }) ∧
  (∀ s : State, s.pending = [] → step s = .next s)

/-- R191: an illegal word raises ILL when the block is not FAULTED, and nothing of it is executed: only the
fault record, PHASE and the response change. -/
def Obligations.IllegalWordRaisesIll : Prop :=
  ∀ (s : State) (w : Word) (rest : List HostMove) (e : DecodeError), s.pending = .command w :: rest →
    decode w = .error e → s.phase ≠ .faulted →
    step s = .next { logged s [.response 1 0] with
      pending := rest, fcode := .ill, fphase := s.phase, fidx := s.idx, fcmd := w, phase := .faulted }

/-- R228: the host's liberties, in the phases their rows name, change the port they are about and nothing else;
in the others the move is refused (93_implementation_defined.md U22). THE MODEL'S CHOICES in it: CKVALID may still
arrive in a frame until GATE and not later (notes/assumptions/7.md, DESIGN CHOICE); header and accumulator moves are
refused in FAULTED and after GATE too (notes/assumptions/8.md, DEDUCED); touching the accumulator's contents and
taking blocks from the sink change nothing (notes/assumptions/17.md, DESIGN CHOICE). -/
def Obligations.HostMovesKeepTheDuties : Prop :=
  ∀ (s : State) (rest : List HostMove),
    (∀ bits, s.pending = .setStream bits :: rest → step s =
      if s.phase = .unconf ∨ s.phase = .idle then .next { s with pending := rest, env := { s.env with bits := bits } }
      else .refused .streamMovedInFrame) ∧
    (∀ h, s.pending = .setHeader h :: rest → step s =
      if s.phase = .unconf ∨ s.phase = .idle then .next { s with pending := rest, env := { s.env with header := h } }
      else .refused .headerChangedInFrame) ∧
    (∀ v, s.pending = .setCkvalid v :: rest → step s =
      if s.phase ∈ [Phase.unconf, .idle, .alloc, .sfsel, .gate] then
        .next { s with pending := rest, env := { s.env with header := { s.env.header with ckvalid := v } } }
      else .refused .headerChangedInFrame) ∧
    (∀ p, s.pending = .setCrc p :: rest → step s =
      if s.phase = .unconf ∨ s.phase = .idle then .next { s with pending := rest, env := { s.env with crcPresent := p } }
      else .refused .crcChangedInFrame) ∧
    (s.pending = .touchCrc :: rest → step s =
      if s.phase = .unconf ∨ s.phase = .idle then .next { s with pending := rest } else .refused .crcChangedInFrame) ∧
    (s.pending = .consumeSink :: rest → step s = .next { s with pending := rest })

/-! ### Reset -/

/-- R43, the values the table gives (the fields it calls unspecified are not mentioned). -/
def Obligations.ResetValues : Prop := HasResetValues State.reset

/-- R220, R43, R221: the reset input puts the block's state to the reset values and does nothing to the environment: the
stream, the header, the accumulator's presence and every event already recorded stay. That the slots' payload is
the one of `State.reset`, 0, is THE MODEL'S CHOICE: R43 calls it unspecified (notes/assumptions/2.md, DESIGN CHOICE,
unsafe). `ResetInputGivesTheTable` says the same without it. -/
def Obligations.ResetLeavesTheEnvironment : Prop :=
  ∀ (s : State) (rest : List HostMove), s.pending = .reset :: rest →
    step s = .next { State.reset with env := s.env, pending := rest }

/-- R220, "Reset is the only way out of FAULTED, the only way to clear a filter's history, and the only way to make
SETUP acceptable again": a step that leaves FAULTED or enters UNCONF is a reset, and one that changes a history AT ALL
is a reset or a `calc` command. (Sixteen CALCs with nothing injected bring a history to 0 too, R147, R149 (b), so the
third clause says who writes it and not that reset alone empties it.) -/
def Obligations.OnlyResetUndoes : Prop :=
  ∀ s t : State, step s = .next t →
    (s.phase = .faulted → t.phase ≠ .faulted → ∃ rest, s.pending = .reset :: rest) ∧
    (s.phase ≠ .unconf → t.phase = .unconf → ∃ rest, s.pending = .reset :: rest) ∧
    ((∃ f, (t.filter f).hist ≠ (s.filter f).hist) → (∃ rest, s.pending = .reset :: rest) ∨
      ∃ w f rest, s.pending = .command w :: rest ∧ decode w = .ok (.calcPcm f))

/-! ### Faults -/

/-- R196: `raise <F>` writes the record, moves PHASE to FAULTED and answers `(code, 0)`; IDX, the flags, the
latches, the slot file and the filters keep what they held. -/
def Obligations.FaultEntryWritesTheRecord : Prop :=
  ∀ (f : FaultCode) (cmd : Word) (s : State), takeFault f cmd s =
    { logged s [.response f.code 0] with
      fcode := f, fphase := s.phase, fidx := s.idx, fcmd := cmd, phase := .faulted }

/-- R197: a FAULTED block executes only a decoded NOP or RDCSR; any other command word, legal or illegal, changes
nothing and is answered with the sticky code; nothing but the reset input takes the block out of FAULTED or writes the
fault record again; and reset does, and clears the filters. -/
def Obligations.FaultedIsTerminal : Prop :=
  (∀ (s : State) (w : Word) (rest : List HostMove), s.pending = .command w :: rest → s.phase = .faulted →
    step s = .next { logged s [match decode w with
      | .ok .nop => .response 0 0
      | .ok (.rdcsr a) => .response 0 (csr a s)
      | _ => .response s.fcode.code 0] with pending := rest }) ∧
  (∀ s t : State, step s = .next t → s.phase = .faulted → (∀ rest, s.pending ≠ .reset :: rest) →
    t.phase = .faulted ∧ t.fcode = s.fcode ∧ t.fphase = s.fphase ∧ t.fidx = s.fidx ∧ t.fcmd = s.fcmd) ∧
  (∀ (s : State) (rest : List HostMove), s.pending = .reset :: rest →
    ∃ t, step s = .next t ∧ t.phase = .unconf ∧ t.fcode = .none ∧
      (∀ f, AllZero (t.filter f).hist) ∧ ∀ f k, t.inputAt f k = Val.zero)

/-- R192: a legal command other than NOP and RDCSR in a phase that does not accept it, or with a subband index
other than IDX, raises SEQ and nothing of it is executed; in a state that can occur an index at or above N is
never IDX. -/
def Obligations.WrongPhaseOrIndexRaisesSeq : Prop :=
  (∀ (i : Instr) (s : State), i.wellFormed = true → s.phase ≠ .faulted → ¬ Accepts s i →
    exec i s = .next { logged s [.response 2 0] with
      fcode := .seq, fphase := s.phase, fidx := s.idx, fcmd := encode i, phase := .faulted }) ∧
  (∀ (s : State) (k : BitVec 5), SeqInv s → s.phase.takesIndex → s.n.toNat ≤ k.toNat → k ≠ s.idx)

/-- R198: the order in which a command word is checked. (1) NOP and RDCSR execute; (2) a FAULTED block answers the
sticky code; (3) an illegal word is ILL; (4) a command in the wrong place is SEQ; (5) FRAME checks the count and the
boundary (both CFG); and a fault of the reading commands is EOD or FMT. -/
def Obligations.ChecksGoInOrder : Prop :=
  ∀ (s t : State) (w : Word) (rest : List HostMove), s.pending = .command w :: rest → step s = .next t →
    ((decode w = .ok .nop ∨ ∃ a, decode w = .ok (.rdcsr a)) → t.fcode = s.fcode ∧ t.phase = s.phase) ∧
    (s.phase = .faulted → t.fcode = s.fcode ∧ t.phase = s.phase) ∧
    (∀ e, s.phase ≠ .faulted → decode w = .error e → t.fcode = .ill) ∧
    (∀ i, s.phase ≠ .faulted → decode w = .ok i → ¬ Accepts s i → t.fcode = .seq) ∧
    (∀ i, s.phase ≠ .faulted → decode w = .ok i → Accepts s i →
      t.fcode = s.fcode ∨
      (i = .frame ∧ t.fcode = .cfg) ∨
      ((∃ k, i = .rdalloc k) ∧ (t.fcode = .eod ∨ t.fcode = .fmt)) ∨
      ((∃ k, i = .rdscf k ∨ i = .rdsmp k) ∧ t.fcode = .eod))

/-- R37, R163: the fault record is written only by the fault that moves the block to FAULTED, and never again
except by reset. -/
def Obligations.FaultRecordIsWrittenOnce : Prop :=
  ∀ (i : Instr) (s t : State), exec i s = .next t →
    (t.fcode ≠ s.fcode ∨ t.fphase ≠ s.fphase ∨ t.fidx ≠ s.fidx ∨ t.fcmd ≠ s.fcmd) →
    s.phase ≠ .faulted ∧ t.phase = .faulted

/-! ### System commands -/

/-- R161: NOP does nothing but answer `(0, 0)`, in every phase; NOP with a reserved bit set is an illegal word. -/
def Obligations.NopOnlyAnswers : Prop :=
  (∀ s : State, exec .nop s = .next (logged s [.response 0 0])) ∧
  decode 0x0000#16 = .ok .nop ∧
  (∀ w : Word, w.extractLsb' 12 4 = 0 → w ≠ 0 → ∃ e, decode w = .error e)

/-- R162 with the layouts R34, R35, R36, R38, R39 (and that of R37): RDCSR answers with the register, bit by bit,
in every phase, and changes nothing. -/
def Obligations.RdcsrReadsTheRegister : Prop :=
  (∀ a : BitVec 4, decode (0xA000#16 + a.setWidth 16) = .ok (.rdcsr a)) ∧
  (∀ (a : BitVec 4) (s : State), exec (.rdcsr a) s = .next (logged s [.response 0 (csr a s)])) ∧
  (∀ s : State, csr 0 s = 0x50534631#32) ∧
  (∀ s : State, (csr 1 s).extractLsb' 0 2 = s.chsel.code ∧ (csr 1 s).getLsbD 2 = s.conf ∧
    (csr 1 s).extractLsb' 3 29 = 0) ∧
  (∀ s : State, (csr 2 s).extractLsb' 0 4 = s.phase.code ∧ (csr 2 s).extractLsb' 4 5 = s.idx ∧
    (csr 2 s).getLsbD 9 = s.rdlast ∧ (csr 2 s).getLsbD 10 = s.wrlast ∧ (csr 2 s).getLsbD 11 = s.gateok ∧
    (csr 2 s).extractLsb' 12 20 = 0) ∧
  (∀ s : State, (csr 3 s).extractLsb' 0 4 = s.fcode.code ∧ (csr 3 s).extractLsb' 4 4 = s.fphase.code ∧
    (csr 3 s).extractLsb' 8 5 = s.fidx ∧ (csr 3 s).extractLsb' 13 3 = 0 ∧ (csr 3 s).extractLsb' 16 16 = s.fcmd) ∧
  (∀ s : State, (csr 4 s).extractLsb' 0 6 = s.n ∧ (csr 4 s).extractLsb' 6 2 = s.mode ∧
    (csr 4 s).extractLsb' 8 6 = s.bound ∧ (csr 4 s).getLsbD 14 = s.crcen ∧ (csr 4 s).extractLsb' 15 17 = 0) ∧
  (∀ (a : BitVec 4) (s : State), 5 ≤ a.toNat → csr a s = 0)

/-! ### Frame control -/

/-- R91: SETUP in UNCONF latches the selection, sets CONF and goes to (IDLE, 0); in another phase it raises SEQ;
`chsel` = 3 is an illegal word. -/
def Obligations.SetupLatchesTheSelection : Prop :=
  (∀ (c : BitVec 2) (sel : ChSel) (s : State), s.phase = .unconf → sel.code = c →
    exec (.setup c) s = .next { logged s [.response 0 0] with
      chsel := sel, conf := true, phase := .idle, idx := 0 }) ∧
  (∀ (c : BitVec 2) (s : State), c ≠ 3 → s.phase ≠ .unconf → s.phase ≠ .faulted →
    exec (.setup c) s = .next (takeFault .seq (0x1000#16 + c.setWidth 16) s)) ∧
  (∀ c : BitVec 2, c ≠ 3 → decode (0x1000#16 + c.setWidth 16) = .ok (.setup c)) ∧
  (∃ e, decode 0x1003#16 = .error e)

/-- R93, R94: FRAME in IDLE with a valid header latches it, clears the flags, instantiates all 32 slots and goes to
ALLOC (or SFSEL if the count is 0). -/
def Obligations.FrameInstantiatesTheSlots : Prop :=
  ∀ s : State, s.phase = .idle → s.env.header.n.toNat ≤ 32 →
    (s.env.header.mode = 1 → s.env.header.bound.toNat ≤ s.env.header.n.toNat) →
    ∃ t, exec .frame s = .next t ∧
      t = { logged s [.response 0 0] with
        n := s.env.header.n, mode := s.env.header.mode,
        bound := if s.env.header.mode = 1 then s.env.header.bound else 0,
        crcen := s.env.crcPresent, rdlast := false, wrlast := false, gateok := false,
        sb := t.sb, phase := if s.env.header.n = 0 then .sfsel else .alloc, idx := 0 } ∧
      ∀ k : BitVec 5, t.slot k =
        { tag := variant k.toNat s.env.header.n.toNat s.env.header.mode s.env.header.bound.toNat,
          alloc := #v[0, 0], scf := #v[0, 0], buf := #v[Val.zero, Val.zero], cnt := 0 }

/-- R95, R96: the variant of a slot, by the document's three cases; at `b = 0` a joint-stereo frame is all
INTENSITY, at `b = n` all STEREO, and in another mode the boundary is not looked at. -/
def Obligations.VariantFollowsTheMode : Prop :=
  ∀ (k n b : Nat) (m : BitVec 2),
    (n ≤ k → variant k n m b = .none) ∧
    (k < n → m = 3 → variant k n m b = .mono) ∧
    (k < n → m = 1 → k < b → variant k n m b = .stereo) ∧
    (k < n → m = 1 → b ≤ k → variant k n m b = .intensity) ∧
    (k < n → m = 0 ∨ m = 2 → variant k n m b = .stereo) ∧
    (k < n → variant k n 1 0 = .intensity ∧ variant k n 1 n = .stereo) ∧
    (m ≠ 1 → ∀ b', variant k n m b = variant k n m b')

/-- R193: CFG is raised by FRAME when the count exceeds 32, or in joint stereo when the boundary exceeds the count;
no latch, flag or slot is written. -/
def Obligations.FrameRaisesCfg : Prop :=
  ∀ s : State, s.phase = .idle →
    (32 < s.env.header.n.toNat ∨ s.env.header.mode = 1 ∧ s.env.header.n.toNat < s.env.header.bound.toNat) →
    exec .frame s = .next { logged s [.response 3 0] with
      fcode := .cfg, fphase := .idle, fidx := s.idx, fcmd := 0x2000#16, phase := .faulted }

/-- R97: SFSEL only advances the sequencer to GATE; it raises SEQ in another phase; and in phase SFSEL neither RDSCF
nor GATE is accepted. -/
def Obligations.SfselOnlyAdvances : Prop :=
  decode 0x4000#16 = .ok .sfsel ∧
  (∀ s : State, s.phase = .sfsel →
    exec .sfsel s = .next { logged s [.response 0 0] with phase := .gate, idx := 0 }) ∧
  (∀ s : State, s.phase ≠ .sfsel → s.phase ≠ .faulted → exec .sfsel s = .next (takeFault .seq 0x4000#16 s)) ∧
  (∀ s : State, s.phase = .sfsel → exec .gate s = .next (takeFault .seq 0x5000#16 s) ∧
    ∀ k, exec (.rdscf k) s = .next (takeFault .seq (wordK 0x6000 k) s))

/-- R99, R100: GATE opens when no accumulator was attached or CKVALID is 1; a closed gate, or an empty frame, ends the
frame; the response carries the outcome either way. -/
def Obligations.GateDecidesTheFrame : Prop :=
  decode 0x5000#16 = .ok .gate ∧
  (∀ (s : State) (ok : Bool), s.phase = .gate → ok = (if s.crcen = false then true else s.env.header.ckvalid) →
    exec .gate s = .next { logged s [.response 0 (if ok then 1 else 0)] with
      gateok := ok, phase := if ok = false ∨ s.n = 0 then .idle else .scf, idx := 0 }) ∧
  (∀ s : State, s.phase ≠ .gate → s.phase ≠ .faulted → exec .gate s = .next (takeFault .seq 0x5000#16 s))

/-! ### Subband reads -/

/-- R111 on a MONO or INTENSITY slot: one legal code is read, fed to the accumulator if CRCEN, stored, and the
sequencer advances. -/
def Obligations.RdallocReadsOneCode : Prop :=
  ∀ (k : BitVec 5) (s : State) (a : Nat), s.phase = .alloc → k = s.idx →
    ((s.slot k).tag = .mono ∨ (s.slot k).tag = .intensity) → Config.cfg.allocBits ≤ s.env.bits.length →
    a = bitsVal (s.env.bits.take Config.cfg.allocBits) → Config.cfg.allocLegal a = true →
    exec (.rdalloc k) s = .next { logged (codeStored Config.cfg s k 0 a (s.env.bits.drop Config.cfg.allocBits))
      [.response 0 0] with phase := passPhase s .alloc .sfsel, idx := passIdx s }

/-- R111 on a STEREO slot: the same for channel 0, then for channel 1 (R110). -/
def Obligations.RdallocReadsTwoCodes : Prop :=
  ∀ (k : BitVec 5) (s : State) (a b : Nat), s.phase = .alloc → k = s.idx → (s.slot k).tag = .stereo →
    2 * Config.cfg.allocBits ≤ s.env.bits.length →
    a = bitsVal (s.env.bits.take Config.cfg.allocBits) →
    b = bitsVal ((s.env.bits.drop Config.cfg.allocBits).take Config.cfg.allocBits) →
    Config.cfg.allocLegal a = true → Config.cfg.allocLegal b = true →
    exec (.rdalloc k) s = .next { logged (codeStored Config.cfg
        (codeStored Config.cfg s k 0 a (s.env.bits.drop Config.cfg.allocBits)) k 1 b
        (s.env.bits.drop (2 * Config.cfg.allocBits)))
      [.response 0 0] with phase := passPhase s .alloc .sfsel, idx := passIdx s }

/-- R112, R195: an illegal code is consumed, fed to the accumulator and stored, and then FMT is raised, on channel 0
or, after a legal code there, on channel 1. For every configuration, the machine's among
them (one may have no illegal code). -/
def Obligations.RdallocRaisesFmt : Prop :=
  (∀ k s, exec (.rdalloc k) s = execRdallocWith Config.cfg k s) ∧
  ∀ (cfg : Cfg) (k : BitVec 5) (s : State) (a b : Nat), s.phase = .alloc → k = s.idx →
    a = bitsVal (s.env.bits.take cfg.allocBits) →
    b = bitsVal ((s.env.bits.drop cfg.allocBits).take cfg.allocBits) →
    ((s.slot k).tag ≠ .none → cfg.allocBits ≤ s.env.bits.length → cfg.allocLegal a = false →
      execRdallocWith cfg k s = .next (takeFault .fmt (wordK 0x3000 k)
        (codeStored cfg s k 0 a (s.env.bits.drop cfg.allocBits)))) ∧
    ((s.slot k).tag = .stereo → 2 * cfg.allocBits ≤ s.env.bits.length → cfg.allocLegal a = true →
      cfg.allocLegal b = false →
      execRdallocWith cfg k s = .next (takeFault .fmt (wordK 0x3000 k)
        (codeStored cfg (codeStored cfg s k 0 a (s.env.bits.drop cfg.allocBits)) k 1 b
          (s.env.bits.drop (2 * cfg.allocBits)))))

/-- R194, R112, R199: a stream too short for channel 0 raises EOD with nothing consumed; on a STEREO slot, one too
short for channel 1 leaves channel 0's code consumed, logged and stored. -/
def Obligations.RdallocRaisesEod : Prop :=
  ∀ (k : BitVec 5) (s : State) (a : Nat), s.phase = .alloc → k = s.idx →
    a = bitsVal (s.env.bits.take Config.cfg.allocBits) →
    ((s.slot k).tag ≠ .none → s.env.bits.length < Config.cfg.allocBits →
      exec (.rdalloc k) s = .next (takeFault .eod (wordK 0x3000 k) s)) ∧
    ((s.slot k).tag = .stereo → Config.cfg.allocBits ≤ s.env.bits.length →
      s.env.bits.length < 2 * Config.cfg.allocBits → Config.cfg.allocLegal a = true →
      exec (.rdalloc k) s = .next (takeFault .eod (wordK 0x3000 k)
        (codeStored Config.cfg s k 0 a (s.env.bits.drop Config.cfg.allocBits))))

/-- R114, R115: RDSCF reads one index for each channel that exists and has data, channel 0 first, and advances; a
channel without data reads nothing and keeps its index. -/
def Obligations.RdscfReadsWhereThereIsData : Prop :=
  ∀ (k : BitVec 5) (s : State) (w0 w1 u v : Nat) (scf0 : Vector Nat 2), s.phase = .scf → k = s.idx →
    w0 = width s k 0 Config.cfg.scfBits → w1 = width s k 1 Config.cfg.scfBits → w0 + w1 ≤ s.env.bits.length →
    u = bitsVal (s.env.bits.take w0) → v = bitsVal ((s.env.bits.drop w0).take w1) →
    scf0 = (if HasData s k 0 then (s.slot k).scf.set 0 u else (s.slot k).scf) →
    exec (.rdscf k) s = .next { logged ((consumed s (s.env.bits.drop (w0 + w1))
        (readEvent s k 0 Config.cfg.scfBits u ++ readEvent s k 1 Config.cfg.scfBits v)).setSlot k
          { s.slot k with scf := if HasData s k 1 then scf0.set 1 v else scf0 })
      [.response 0 0] with phase := passPhase s .scf .read, idx := passIdx s }

/-- R114, R194, R199: a stream too short raises EOD; an index already read stays read and stored. -/
def Obligations.RdscfRaisesEod : Prop :=
  ∀ (k : BitVec 5) (s : State) (w0 u : Nat), s.phase = .scf → k = s.idx →
    w0 = width s k 0 Config.cfg.scfBits → u = bitsVal (s.env.bits.take w0) →
    (HasData s k 0 → s.env.bits.length < Config.cfg.scfBits →
      exec (.rdscf k) s = .next (takeFault .eod (wordK 0x6000 k) s)) ∧
    (HasData s k 1 → w0 ≤ s.env.bits.length → s.env.bits.length < w0 + Config.cfg.scfBits →
      exec (.rdscf k) s = .next (takeFault .eod (wordK 0x6000 k)
        ((consumed s (s.env.bits.drop w0) (readEvent s k 0 Config.cfg.scfBits u)).setSlot k
          { s.slot k with scf := if HasData s k 0 then (s.slot k).scf.set 0 u else (s.slot k).scf })))

/-- R117, R120: RDSMP reads one sample for each channel that exists and has data, channel 0 first, stores
`Dequant(k, a, q) * Scf(scf)` in its buffer, counts the position modulo SPF, sets RDLAST to whether it was the
last, advances, and returns RDLAST. -/
def Obligations.RdsmpDequantisesAndCounts : Prop :=
  ∀ (k : BitVec 5) (s : State) (l0 l1 w0 w1 p q : Nat) (buf0 : Vector Val 2) (last : Bool),
    s.phase = .read → k = s.idx →
    l0 = Config.cfg.sampleLen k (s.slot k).alloc[0] → l1 = Config.cfg.sampleLen k (s.slot k).alloc[1] →
    w0 = width s k 0 l0 → w1 = width s k 1 l1 → w0 + w1 ≤ s.env.bits.length →
    p = bitsVal (s.env.bits.take w0) → q = bitsVal ((s.env.bits.drop w0).take w1) →
    buf0 = (if HasData s k 0 then (s.slot k).buf.set 0 (Config.cfg.num.mul
      (Config.cfg.num.dequant k (s.slot k).alloc[0] p) (Config.cfg.num.scf (s.slot k).scf[0])) else (s.slot k).buf) →
    last = decide ((s.slot k).cnt.toNat + 1 = Config.cfg.spf) →
    exec (.rdsmp k) s = .next { logged ((consumed s (s.env.bits.drop (w0 + w1))
        (readEvent s k 0 l0 p ++ readEvent s k 1 l1 q)).setSlot k
          { s.slot k with
            buf := if HasData s k 1 then buf0.set 1 (Config.cfg.num.mul
              (Config.cfg.num.dequant k (s.slot k).alloc[1] q) (Config.cfg.num.scf (s.slot k).scf[1])) else buf0,
            cnt := if last then 0 else BitVec.ofNat 4 ((s.slot k).cnt.toNat + 1) })
      [.response 0 (if last then 1 else 0)] with
        rdlast := last, phase := passPhase s .read .write, idx := passIdx s }

/-- R117, R120, R194, R199: a stream too short raises EOD; a value already stored stays, and the counter and RDLAST
are not updated. For every configuration, the machine's among them (one may have no non-zero legal code). -/
def Obligations.RdsmpRaisesEod : Prop :=
  (∀ k s, exec (.rdsmp k) s = execRdsmpWith Config.cfg k s) ∧
  ∀ (cfg : Cfg) (k : BitVec 5) (s : State) (l0 w0 p : Nat), s.phase = .read → k = s.idx →
    l0 = cfg.sampleLen k (s.slot k).alloc[0] → w0 = width s k 0 l0 → p = bitsVal (s.env.bits.take w0) →
    (HasData s k 0 → s.env.bits.length < l0 →
      execRdsmpWith cfg k s = .next (takeFault .eod (wordK 0x7000 k) s)) ∧
    (HasData s k 1 → w0 ≤ s.env.bits.length →
      s.env.bits.length < w0 + cfg.sampleLen k (s.slot k).alloc[1] →
      execRdsmpWith cfg k s = .next (takeFault .eod (wordK 0x7000 k)
        ((consumed s (s.env.bits.drop w0) (readEvent s k 0 l0 p)).setSlot k
          { s.slot k with buf := if HasData s k 0 then (s.slot k).buf.set 0 (cfg.num.mul
              (cfg.num.dequant k (s.slot k).alloc[0] p) (cfg.num.scf (s.slot k).scf[0]))
            else (s.slot k).buf })))

/-- R54 (R53): `BitRead(n)` on the reference stream returns the sum of its bits weighted from the most significant
down and removes them; with fewer bits left it reads nothing. -/
def Obligations.BitReadIsMostSignificantFirst : Prop :=
  ∀ (n : Nat) (s : State),
    (s.env.bits.length < n → bitRead n s = none) ∧
    (n ≤ s.env.bits.length → ∃ v, v = ∑ j ∈ Finset.range n, (s.env.bits.getD j false).toNat * 2 ^ (n - (j + 1)) ∧
      v < 2 ^ n ∧ bitRead n s = some (v, consumed s (s.env.bits.drop n) [.bitsRead n v]))

/-! ### PUT -/

/-- R131, R132: PUT injects by the routing table: row by row what `S[0][k]` and `S[1][k]` become; every other entry of
the input vectors, both histories and everything else stay; WRLAST becomes 1 and is returned. -/
def Obligations.PutRoutesByTheTable : Prop :=
  ∀ (k : BitVec 5) (s : State) (x : Slot) (iw0 iw1 : Val), s.phase = .write → k = s.idx → x = s.slot k →
    iw0 = Config.cfg.num.mul (Config.cfg.num.iw 0 k) x.buf[0] →
    iw1 = Config.cfg.num.mul (Config.cfg.num.iw 1 k) x.buf[0] →
    ∃ t, exec (.put k) s = .next t ∧
      t = { logged s [.response 0 1] with
        filters := t.filters, wrlast := true, phase := passPhase s .write .calc0, idx := passIdx s } ∧
      (∀ f, (t.filter f).hist = (s.filter f).hist) ∧
      (∀ f j, j ≠ k → t.inputAt f j = s.inputAt f j) ∧
      (x.tag = .none → t.inputAt 0 k = s.inputAt 0 k ∧ t.inputAt 1 k = s.inputAt 1 k) ∧
      (x.tag = .mono → t.inputAt 1 k = s.inputAt 1 k ∧
        t.inputAt 0 k = if x.alloc[0] ≠ 0 ∧ s.chsel ≠ .right then x.buf[0] else s.inputAt 0 k) ∧
      (x.tag = .stereo → s.chsel = .both →
        t.inputAt 0 k = (if x.alloc[0] ≠ 0 then x.buf[0] else s.inputAt 0 k) ∧
        t.inputAt 1 k = if x.alloc[1] ≠ 0 then x.buf[1] else s.inputAt 1 k) ∧
      (x.tag = .stereo → s.chsel = .left → t.inputAt 1 k = s.inputAt 1 k ∧
        t.inputAt 0 k = if x.alloc[0] ≠ 0 then x.buf[0] else s.inputAt 0 k) ∧
      (x.tag = .stereo → s.chsel = .right → t.inputAt 1 k = s.inputAt 1 k ∧
        t.inputAt 0 k = if x.alloc[1] ≠ 0 then x.buf[1] else s.inputAt 0 k) ∧
      (x.tag = .intensity → s.chsel = .both →
        t.inputAt 0 k = (if x.alloc[0] ≠ 0 then iw0 else s.inputAt 0 k) ∧
        t.inputAt 1 k = if x.alloc[0] ≠ 0 then iw1 else s.inputAt 1 k) ∧
      (x.tag = .intensity → s.chsel = .left → t.inputAt 1 k = s.inputAt 1 k ∧
        t.inputAt 0 k = if x.alloc[0] ≠ 0 then iw0 else s.inputAt 0 k) ∧
      (x.tag = .intensity → s.chsel = .right → t.inputAt 1 k = s.inputAt 1 k ∧
        t.inputAt 0 k = if x.alloc[0] ≠ 0 then iw1 else s.inputAt 0 k)

/-! ### Synthesis -/

/-- R143, R145, R146: CALC in its phase computes the new history and the block, appends the block to the sink tagged
with the filter, clears the input vector, leaves the other filter alone, and moves the sequencer. -/
def Obligations.CalcComputesOneBlock : Prop :=
  ∀ (f : BitVec 1) (s : State) (h : Vector Val histLen), s.phase = (if f = 0 then .calc0 else .calc1) →
    h = synthHist Config.cfg.num (s.filter (filterOf f)).hist (s.filter (filterOf f)).input →
    ∃ t, exec (.calcPcm f) s = .next t ∧
      t = { logged s [.sinkAppend (filterOf f) (synthBlock Config.cfg.num h), .response 0 0] with
        filters := t.filters, idx := 0,
        phase := if f = 0 ∧ s.chsel = .both ∧ s.mode ≠ 3 then .calc1
          else if s.wrlast = false then .write else if s.rdlast = false then .read else .idle } ∧
      t.filter (filterOf f) = { input := Vector.replicate nBand Val.zero, hist := h } ∧
      t.filter (otherFilter (filterOf f)) = s.filter (otherFilter (filterOf f))

/-- R144: the shift, the matrixing, the vector `U`, the window sum and `ToPcm`, and the written-out form of `y`. -/
def Obligations.SynthFollowsTheDirectForm : Prop :=
  ∀ (num : Numerics) (h : Vector Val histLen) (x : Vector Val nBand) (h' : Vector Val histLen), h' = synthHist num h x →
    (∀ i, 64 ≤ i → i < 1024 → entry h' i = entry h (i - 64)) ∧
    (∀ i, i < 64 → entry h' i = sumV num 32 fun k => num.mul (num.matrix i k) (entry x k)) ∧
    (∀ i j, i < 8 → j < 32 → synthU h' (64 * i + j) = entry h' (128 * i + j) ∧
      synthU h' (64 * i + 32 + j) = entry h' (128 * i + 96 + j)) ∧
    (∀ j, j < 32 → synthY num h' j =
      sumV num 16 fun i => num.mul (synthU h' (j + 32 * i)) (num.window (j + 32 * i))) ∧
    (∀ j, j < 32 → synthY num h' j = sumV num 8 fun m => num.add
      (num.mul (entry h' (128 * m + j)) (num.window (64 * m + j)))
      (num.mul (entry h' (128 * m + 96 + j)) (num.window (64 * m + 32 + j)))) ∧
    (∀ (j : Nat) (hj : j < 32), (synthBlock num h')[j] = num.toPcm (synthY num h' j))

/-- R149 (a): a zero input into a zero history gives a block of zeros and leaves the history zero. -/
def Obligations.SilenceGivesSilence : Prop :=
  ∀ (num : Numerics) (h : Vector Val histLen) (x : Vector Val nBand), AllZero h → AllZero x →
    AllZero (synthHist num h x) ∧ ∀ (j : Nat) (hj : j < 32), (synthBlock num (synthHist num h x))[j] = 0

/-- R149 (c): the first block of a fresh filter with the single value `v` in band `k`: `y[j] = N(j, k) * v * D(j)`. -/
def Obligations.FirstBlockOfOneValue : Prop :=
  ∀ (num : Numerics) (h : Vector Val histLen) (x : Vector Val nBand) (k : Nat) (v : Val), AllZero h → k < 32 →
    entry x k = v → (∀ i, i < 32 → i ≠ k → entry x i = Val.zero) →
    ∀ j, j < 32 → synthY num (synthHist num h x) j = num.mul (num.mul (num.matrix j k) v) (num.window j)

/-- R144, R147, and the vector V-S7 of 95_test_vectors.md: how long an input is heard. The single value `v` in band `k` of
a fresh filter gives, with nothing injected after it, the block `N(j, k) * v * D(64m + j)` at age `2m` and
`N(32 + j, k) * v * D(64m + 32 + j)` at age `2m + 1`, for the ages 0 to 15; after sixteen later CALCs, whatever they
inject, the history is the same whatever it was before them, and 0 if they inject nothing. -/
def Obligations.InputReachesSixteenBlocks : Prop :=
  ∀ num : Numerics,
    (∀ (h : Vector Val histLen) (x : Vector Val nBand) (k : Nat) (v : Val), AllZero h → k < 32 →
      entry x k = v → (∀ i, i < 32 → i ≠ k → entry x i = Val.zero) → ∀ m j, m < 8 → j < 32 →
        synthY num (silentCalcs num (2 * m) (synthHist num h x)) j =
          num.mul (num.mul (num.matrix j k) v) (num.window (64 * m + j)) ∧
        synthY num (silentCalcs num (2 * m + 1) (synthHist num h x)) j =
          num.mul (num.mul (num.matrix (32 + j) k) v) (num.window (64 * m + 32 + j))) ∧
    (∀ (xs : List (Vector Val nBand)) (h g : Vector Val histLen), xs.length = 16 → calcsOf num xs h = calcsOf num xs g) ∧
    (∀ h : Vector Val histLen, AllZero (silentCalcs num 16 h))

/-- R147: before `ToPcm` the output is additive in history and input together. -/
def Obligations.SynthIsAdditive : Prop :=
  ∀ (num : Numerics) (h g : Vector Val histLen) (x z : Vector Val nBand) (j : Nat), j < 32 →
    synthY num (synthHist num (sumVec num h g) (sumVec num x z)) j =
      num.add (synthY num (synthHist num h x) j) (synthY num (synthHist num g z) j)

/-- R140, R149 (d): what CALC makes of a filter and appends to the sink depends on that filter alone. -/
def Obligations.FiltersDoNotInteract : Prop :=
  ∀ (f : BitVec 1) (s s' t t' : State), s.phase = calcPhase f → s'.phase = calcPhase f →
    s.filter (filterOf f) = s'.filter (filterOf f) → exec (.calcPcm f) s = .next t → exec (.calcPcm f) s' = .next t' →
    t.filter (filterOf f) = t'.filter (filterOf f) ∧
    ∃ blk, t.env.sink = s.env.sink ++ [(filterOf f, blk)] ∧ t'.env.sink = s'.env.sink ++ [(filterOf f, blk)]

/-- R133, R146: since PUT always returns 1, a pass is never followed by a second write pass. -/
def Obligations.NoSecondWritePass : Prop :=
  ∀ (f : BitVec 1) (s t : State), SeqInv s → exec (.calcPcm f) s = .next t → t.phase ≠ .write

/-- R142, R176 (a): when `need2` is false filter 1 is never computed: `calc 1` appends nothing to the sink and changes
no filter. -/
def Obligations.SecondFilterOnlyWhenNeeded : Prop :=
  ∀ s t : State, SeqInv s → s.need2 = false → exec (.calcPcm 1) s = .next t →
    t.env.sink = s.env.sink ∧ t.filters = s.filters

/-! ### Whole-machine rules -/

/-- R170: an accepted command moves the sequencer by its row of the table, or raises one of its own faults; every
other command raises SEQ and moves the block to FAULTED; and FAULTED is left by none. -/
def Obligations.SequencerFollowsItsTable : Prop :=
  ∀ (i : Instr) (s t : State), SeqInv s → i.wellFormed = true → exec i s = .next t →
    (s.phase ≠ .faulted → Accepts s i → (t.phase, t.idx.toNat) = nextSeq s i ∨
      (t.phase = .faulted ∧ t.idx = s.idx ∧ (t.fcode = .cfg ∨ t.fcode = .eod ∨ t.fcode = .fmt))) ∧
    (s.phase ≠ .faulted → ¬ Accepts s i → t.phase = .faulted ∧ t.idx = s.idx ∧ t.fcode = .seq) ∧
    (s.phase = .faulted → t.phase = .faulted ∧ t.idx = s.idx)

/-- R81, R233: every command completes and answers exactly once; the value is 0 whenever `err` is not, is a boolean for
RDSMP, PUT and GATE, and is 0 for every other command but RDCSR. THE MODEL'S ASSUMPTION in it: a command completes
because every port answers (notes/assumptions/11.md, DEDUCED from R233 and U21, UNSAFE for this liveness claim); and
the term `setup 3`, which no word decodes to, answers as its word 0x1003 does (notes/assumptions/9.md, DESIGN
CHOICE). -/
def Obligations.EveryCommandAnswersOnce : Prop :=
  ∀ (i : Instr) (s : State), ∃ t err val, exec i s = .next t ∧
    t.env.responses = s.env.responses ++ [(err, val)] ∧ (err ≠ 0 → val = 0) ∧
    ((∃ k, i = .rdsmp k ∨ i = .put k) ∨ i = .gate → val = 0 ∨ val = 1) ∧
    ((∀ k, i ≠ .rdsmp k) → (∀ k, i ≠ .put k) → i ≠ .gate → (∀ a, i ≠ .rdcsr a) → val = 0)

/-- R58, R14, U25: the record of port events and responses only grows, whatever the host does and even by a fault. That
taking blocks from the sink removes nothing from the record is notes/assumptions/17.md (DESIGN CHOICE), after R58. -/
def Obligations.HistoryOnlyGrows : Prop :=
  ∀ s t : State, step s = .next t → ∃ new, t.env.history = s.env.history ++ new

/-- R32, R33: CHSEL and CONF are written only by SETUP; N, MODE, BOUND and CRCEN only by FRAME; RDLAST only by RDSMP,
WRLAST only by PUT, GATEOK only by GATE, but that FRAME clears all three. -/
def Obligations.LatchesAndFlagsHaveTheirWriters : Prop :=
  ∀ (i : Instr) (s t : State), exec i s = .next t →
    ((∀ c, i ≠ .setup c) → t.chsel = s.chsel ∧ t.conf = s.conf) ∧
    (i ≠ .frame → t.n = s.n ∧ t.mode = s.mode ∧ t.bound = s.bound ∧ t.crcen = s.crcen) ∧
    (i ≠ .frame → (∀ k, i ≠ .rdsmp k) → t.rdlast = s.rdlast) ∧
    (i ≠ .frame → (∀ k, i ≠ .put k) → t.wrlast = s.wrlast) ∧
    (i ≠ .frame → i ≠ .gate → t.gateok = s.gateok)

/-- R21 to R26, R50: FRAME alone writes tags and other slots than the command's own; RDALLOC writes only `alloc`, RDSCF
only `scf`, RDSMP only `buf` and `cnt` of slot `k`; no other command writes the slot file. -/
def Obligations.SlotFieldsHaveTheirWriters : Prop :=
  ∀ (i : Instr) (s t : State), exec i s = .next t → i ≠ .frame → ∀ j : BitVec 5,
    (t.slot j).tag = (s.slot j).tag ∧
    (i ≠ .rdalloc j → (t.slot j).alloc = (s.slot j).alloc) ∧
    (i ≠ .rdscf j → (t.slot j).scf = (s.slot j).scf) ∧
    (i ≠ .rdsmp j → (t.slot j).buf = (s.slot j).buf ∧ (t.slot j).cnt = (s.slot j).cnt)

/-- R28, R29, R50, R141: an input vector is written only by PUT (at its own index) and by the CALC of that filter, a
history only by the CALC of that filter. -/
def Obligations.FiltersHaveTheirWriters : Prop :=
  ∀ (i : Instr) (s t : State), exec i s = .next t → ∀ f : FilterNo,
    ((∀ g, i = .calcPcm g → filterOf g ≠ f) → (t.filter f).hist = (s.filter f).hist ∧
      ∀ j, i ≠ .put j → t.inputAt f j = s.inputAt f j)

/-- R52, R56, R57, R61: the stream is read only by RDALLOC, RDSCF and RDSMP; the accumulator is fed only by RDALLOC and
only if CRCEN; the sink is appended to only by CALC; no command changes the header, the accumulator's presence or the
host's queue. -/
def Obligations.PortsHaveTheirUsers : Prop :=
  ∀ (i : Instr) (s t : State), exec i s = .next t →
    t.env.header = s.env.header ∧ t.env.crcPresent = s.env.crcPresent ∧ t.pending = s.pending ∧
    ((∀ k, i ≠ .rdalloc k ∧ i ≠ .rdscf k ∧ i ≠ .rdsmp k) →
      t.env.bits = s.env.bits ∧ t.env.bitsConsumed = s.env.bitsConsumed) ∧
    ((∀ k, i ≠ .rdalloc k) ∨ s.crcen = false → t.env.crclog = s.env.crclog) ∧
    ((∀ f, i ≠ .calcPcm f) → t.env.sink = s.env.sink)

/-- R14, R53: what a step takes off the stream is what the record says it read. -/
def Obligations.ConsumedBitsAreRecorded : Prop :=
  ∀ (i : Instr) (s t : State), exec i s = .next t →
    t.env.bitsConsumed + t.env.bits.length = s.env.bitsConsumed + s.env.bits.length

/-- R10, R50: the address spaces: SLOT holds the slots, S the input vectors at `32f + k`, VH the histories at
`1024f + i`, and there is nothing beyond. -/
def Obligations.AddressesFollowTheIndexFormulas : Prop :=
  ∀ (s : State) (f : FilterNo),
    (∀ k : BitVec 5, s.memRead .slot k.toNat 1 = some [.slot (s.slot k)]) ∧
    (∀ k : BitVec 5, s.memRead .s (32 * f.val + k.toNat) 1 = some [.val (s.inputAt f k)]) ∧
    (∀ i, i < 1024 → s.memRead .vh (1024 * f.val + i) 1 = some [.val (entry (s.filter f).hist i)]) ∧
    (∀ (k : BitVec 5) (v : Val), s.memWrite .s (32 * f.val + k.toNat) [.val v] = some (s.inject f k v)) ∧
    (∀ i, (32 ≤ i → s.memRead .slot i 1 = none) ∧ (64 ≤ i → s.memRead .s i 1 = none) ∧
      (2048 ≤ i → s.memRead .vh i 1 = none))

/-! ### Invariants -/

/-- R43: the reset state meets every invariant (the slots' payload there is the model's choice, notes/assumptions/2.md). -/
def Obligations.ResetMeetsTheInvariant : Prop := Inv State.reset

/-- R30, R31, R33, R37, R93, R142: every step of a state that meets the sequencer's and the fault record's invariant gives
one that does. -/
def Obligations.StepKeepsSequencerInvariant : Prop :=
  ∀ s t : State, SeqInv s → FaultInv s → step s = .next t → SeqInv t ∧ FaultInv t

/-- R21 to R26, R115, R120: every step keeps the slot file well formed. The step that takes the reset input does so only
because the payload there is 0, THE MODEL'S CHOICE where R43 says unspecified (notes/assumptions/2.md, DESIGN CHOICE,
unsafe); every other step rests on the rules. -/
def Obligations.StepKeepsSlotInvariant : Prop :=
  ∀ s t : State, SeqInv s → SlotInv Config.cfg s → step s = .next t → SlotInv Config.cfg t

/-- R28, R135, R141: every step keeps the input vectors as R28 says: 0 outside a write pass, and inside it 0 for the
bands still to be put. -/
def Obligations.StepKeepsFilterInvariant : Prop :=
  ∀ s t : State, SeqInv s → SlotInv Config.cfg s → FilterInv s → step s = .next t → FilterInv t

/-- R118, R120: every step keeps the slots' counters in lock-step, and RDLAST saying whether the pass was the last. -/
def Obligations.StepKeepsLockStep : Prop :=
  ∀ s t : State, SeqInv s → SlotInv Config.cfg s → LockInv Config.cfg s → step s = .next t → LockInv Config.cfg t

/-- R30, R90: in the phases that take a subband index, the index expected is below N and its slot is not NONE. -/
def Obligations.ExpectedIndexHasASlot : Prop :=
  ∀ s : State, SeqInv s → SlotInv Config.cfg s → s.phase.takesIndex →
    s.idx.toNat < s.n.toNat ∧ (s.slot s.idx).tag ≠ .none

/-- R118: in a state that can occur, every slot of a read pass gives the same answer, and it is 1 exactly when the pass
reads the frame's last position. -/
def Obligations.SlotsAnswerAlike : Prop :=
  ∀ (s : State) (k : BitVec 5), SeqInv s → LockInv Config.cfg s → s.phase = .read → k.toNat < s.idx.toNat →
    (burstDone Config.cfg (s.slot s.idx) = true ↔ (s.slot k).cnt = 0)

/-- R53, R15: in a state that can occur every read a command makes is 1 to 16 bits wide and its value fits. -/
def Obligations.ReadWidthsAreInRange : Prop :=
  ∀ (i : Instr) (s t : State), SeqInv s → SlotInv Config.cfg s → exec i s = .next t →
    ∃ new, t.env.history = s.env.history ++ new ∧
      ∀ n v, Event.bitsRead n v ∈ new → 1 ≤ n ∧ n ≤ 16 ∧ v < 2 ^ n

/-! ### Reset, without the model's choice -/

/-- R221, R43: a step that takes the reset input gives a state with every value R43's table gives, and leaves the
environment as it was. Nothing is said of the slots' payload, which the table calls unspecified. -/
def Obligations.ResetInputGivesTheTable : Prop :=
  ∀ (s : State) (rest : List HostMove), s.pending = .reset :: rest →
    ∃ t, step s = .next t ∧ HasResetValues t ∧ t.env = s.env ∧ t.pending = rest
end

