-- ==== Sys2Proof/Laws/State.lean ====
section
/-! SUPPORT. One lemma per field for each primitive update of the state (emit, setSlot, setFilter, setSeq, takeFault), all true by rfl; and every other update in terms of these. -/

namespace Sys2Proof.Machine.State

variable (s : State)

/-! ### emit -/

@[simp] theorem emit_sb (e : Event) : (s.emit e).sb = s.sb := rfl
@[simp] theorem emit_filters (e : Event) : (s.emit e).filters = s.filters := rfl
@[simp] theorem emit_phase (e : Event) : (s.emit e).phase = s.phase := rfl
@[simp] theorem emit_idx (e : Event) : (s.emit e).idx = s.idx := rfl
@[simp] theorem emit_rdlast (e : Event) : (s.emit e).rdlast = s.rdlast := rfl
@[simp] theorem emit_wrlast (e : Event) : (s.emit e).wrlast = s.wrlast := rfl
@[simp] theorem emit_gateok (e : Event) : (s.emit e).gateok = s.gateok := rfl
@[simp] theorem emit_chsel (e : Event) : (s.emit e).chsel = s.chsel := rfl
@[simp] theorem emit_conf (e : Event) : (s.emit e).conf = s.conf := rfl
@[simp] theorem emit_n (e : Event) : (s.emit e).n = s.n := rfl
@[simp] theorem emit_mode (e : Event) : (s.emit e).mode = s.mode := rfl
@[simp] theorem emit_bound (e : Event) : (s.emit e).bound = s.bound := rfl
@[simp] theorem emit_crcen (e : Event) : (s.emit e).crcen = s.crcen := rfl
@[simp] theorem emit_fcode (e : Event) : (s.emit e).fcode = s.fcode := rfl
@[simp] theorem emit_fphase (e : Event) : (s.emit e).fphase = s.fphase := rfl
@[simp] theorem emit_fidx (e : Event) : (s.emit e).fidx = s.fidx := rfl
@[simp] theorem emit_fcmd (e : Event) : (s.emit e).fcmd = s.fcmd := rfl
@[simp] theorem emit_env (e : Event) : (s.emit e).env = { s.env with history := s.env.history ++ [e] } := rfl
@[simp] theorem emit_pending (e : Event) : (s.emit e).pending = s.pending := rfl

/-! ### setSlot -/

@[simp] theorem setSlot_sb (k : BitVec 5) (x : Slot) : (s.setSlot k x).sb = s.sb.set k.toNat x k.isLt := rfl
@[simp] theorem setSlot_filters (k : BitVec 5) (x : Slot) : (s.setSlot k x).filters = s.filters := rfl
@[simp] theorem setSlot_phase (k : BitVec 5) (x : Slot) : (s.setSlot k x).phase = s.phase := rfl
@[simp] theorem setSlot_idx (k : BitVec 5) (x : Slot) : (s.setSlot k x).idx = s.idx := rfl
@[simp] theorem setSlot_rdlast (k : BitVec 5) (x : Slot) : (s.setSlot k x).rdlast = s.rdlast := rfl
@[simp] theorem setSlot_wrlast (k : BitVec 5) (x : Slot) : (s.setSlot k x).wrlast = s.wrlast := rfl
@[simp] theorem setSlot_gateok (k : BitVec 5) (x : Slot) : (s.setSlot k x).gateok = s.gateok := rfl
@[simp] theorem setSlot_chsel (k : BitVec 5) (x : Slot) : (s.setSlot k x).chsel = s.chsel := rfl
@[simp] theorem setSlot_conf (k : BitVec 5) (x : Slot) : (s.setSlot k x).conf = s.conf := rfl
@[simp] theorem setSlot_n (k : BitVec 5) (x : Slot) : (s.setSlot k x).n = s.n := rfl
@[simp] theorem setSlot_mode (k : BitVec 5) (x : Slot) : (s.setSlot k x).mode = s.mode := rfl
@[simp] theorem setSlot_bound (k : BitVec 5) (x : Slot) : (s.setSlot k x).bound = s.bound := rfl
@[simp] theorem setSlot_crcen (k : BitVec 5) (x : Slot) : (s.setSlot k x).crcen = s.crcen := rfl
@[simp] theorem setSlot_fcode (k : BitVec 5) (x : Slot) : (s.setSlot k x).fcode = s.fcode := rfl
@[simp] theorem setSlot_fphase (k : BitVec 5) (x : Slot) : (s.setSlot k x).fphase = s.fphase := rfl
@[simp] theorem setSlot_fidx (k : BitVec 5) (x : Slot) : (s.setSlot k x).fidx = s.fidx := rfl
@[simp] theorem setSlot_fcmd (k : BitVec 5) (x : Slot) : (s.setSlot k x).fcmd = s.fcmd := rfl
@[simp] theorem setSlot_env (k : BitVec 5) (x : Slot) : (s.setSlot k x).env = s.env := rfl
@[simp] theorem setSlot_pending (k : BitVec 5) (x : Slot) : (s.setSlot k x).pending = s.pending := rfl

/-! ### setFilter -/

@[simp] theorem setFilter_sb (f : FilterNo) (x : SynFilter) : (s.setFilter f x).sb = s.sb := rfl
@[simp] theorem setFilter_filters (f : FilterNo) (x : SynFilter) : (s.setFilter f x).filters = s.filters.set f.val x := rfl
@[simp] theorem setFilter_phase (f : FilterNo) (x : SynFilter) : (s.setFilter f x).phase = s.phase := rfl
@[simp] theorem setFilter_idx (f : FilterNo) (x : SynFilter) : (s.setFilter f x).idx = s.idx := rfl
@[simp] theorem setFilter_rdlast (f : FilterNo) (x : SynFilter) : (s.setFilter f x).rdlast = s.rdlast := rfl
@[simp] theorem setFilter_wrlast (f : FilterNo) (x : SynFilter) : (s.setFilter f x).wrlast = s.wrlast := rfl
@[simp] theorem setFilter_gateok (f : FilterNo) (x : SynFilter) : (s.setFilter f x).gateok = s.gateok := rfl
@[simp] theorem setFilter_chsel (f : FilterNo) (x : SynFilter) : (s.setFilter f x).chsel = s.chsel := rfl
@[simp] theorem setFilter_conf (f : FilterNo) (x : SynFilter) : (s.setFilter f x).conf = s.conf := rfl
@[simp] theorem setFilter_n (f : FilterNo) (x : SynFilter) : (s.setFilter f x).n = s.n := rfl
@[simp] theorem setFilter_mode (f : FilterNo) (x : SynFilter) : (s.setFilter f x).mode = s.mode := rfl
@[simp] theorem setFilter_bound (f : FilterNo) (x : SynFilter) : (s.setFilter f x).bound = s.bound := rfl
@[simp] theorem setFilter_crcen (f : FilterNo) (x : SynFilter) : (s.setFilter f x).crcen = s.crcen := rfl
@[simp] theorem setFilter_fcode (f : FilterNo) (x : SynFilter) : (s.setFilter f x).fcode = s.fcode := rfl
@[simp] theorem setFilter_fphase (f : FilterNo) (x : SynFilter) : (s.setFilter f x).fphase = s.fphase := rfl
@[simp] theorem setFilter_fidx (f : FilterNo) (x : SynFilter) : (s.setFilter f x).fidx = s.fidx := rfl
@[simp] theorem setFilter_fcmd (f : FilterNo) (x : SynFilter) : (s.setFilter f x).fcmd = s.fcmd := rfl
@[simp] theorem setFilter_env (f : FilterNo) (x : SynFilter) : (s.setFilter f x).env = s.env := rfl
@[simp] theorem setFilter_pending (f : FilterNo) (x : SynFilter) : (s.setFilter f x).pending = s.pending := rfl

/-! ### setSeq -/

@[simp] theorem setSeq_sb (p : Phase) (i : BitVec 5) : (setSeq p i s).sb = s.sb := rfl
@[simp] theorem setSeq_filters (p : Phase) (i : BitVec 5) : (setSeq p i s).filters = s.filters := rfl
@[simp] theorem setSeq_phase (p : Phase) (i : BitVec 5) : (setSeq p i s).phase = p := rfl
@[simp] theorem setSeq_idx (p : Phase) (i : BitVec 5) : (setSeq p i s).idx = i := rfl
@[simp] theorem setSeq_rdlast (p : Phase) (i : BitVec 5) : (setSeq p i s).rdlast = s.rdlast := rfl
@[simp] theorem setSeq_wrlast (p : Phase) (i : BitVec 5) : (setSeq p i s).wrlast = s.wrlast := rfl
@[simp] theorem setSeq_gateok (p : Phase) (i : BitVec 5) : (setSeq p i s).gateok = s.gateok := rfl
@[simp] theorem setSeq_chsel (p : Phase) (i : BitVec 5) : (setSeq p i s).chsel = s.chsel := rfl
@[simp] theorem setSeq_conf (p : Phase) (i : BitVec 5) : (setSeq p i s).conf = s.conf := rfl
@[simp] theorem setSeq_n (p : Phase) (i : BitVec 5) : (setSeq p i s).n = s.n := rfl
@[simp] theorem setSeq_mode (p : Phase) (i : BitVec 5) : (setSeq p i s).mode = s.mode := rfl
@[simp] theorem setSeq_bound (p : Phase) (i : BitVec 5) : (setSeq p i s).bound = s.bound := rfl
@[simp] theorem setSeq_crcen (p : Phase) (i : BitVec 5) : (setSeq p i s).crcen = s.crcen := rfl
@[simp] theorem setSeq_fcode (p : Phase) (i : BitVec 5) : (setSeq p i s).fcode = s.fcode := rfl
@[simp] theorem setSeq_fphase (p : Phase) (i : BitVec 5) : (setSeq p i s).fphase = s.fphase := rfl
@[simp] theorem setSeq_fidx (p : Phase) (i : BitVec 5) : (setSeq p i s).fidx = s.fidx := rfl
@[simp] theorem setSeq_fcmd (p : Phase) (i : BitVec 5) : (setSeq p i s).fcmd = s.fcmd := rfl
@[simp] theorem setSeq_env (p : Phase) (i : BitVec 5) : (setSeq p i s).env = s.env := rfl
@[simp] theorem setSeq_pending (p : Phase) (i : BitVec 5) : (setSeq p i s).pending = s.pending := rfl

/-! ### takeFault (R196) -/

@[simp] theorem takeFault_sb (f : FaultCode) (cmd : Word) : (takeFault f cmd s).sb = s.sb := rfl
@[simp] theorem takeFault_filters (f : FaultCode) (cmd : Word) : (takeFault f cmd s).filters = s.filters := rfl
@[simp] theorem takeFault_phase (f : FaultCode) (cmd : Word) : (takeFault f cmd s).phase = .faulted := rfl
@[simp] theorem takeFault_idx (f : FaultCode) (cmd : Word) : (takeFault f cmd s).idx = s.idx := rfl
@[simp] theorem takeFault_rdlast (f : FaultCode) (cmd : Word) : (takeFault f cmd s).rdlast = s.rdlast := rfl
@[simp] theorem takeFault_wrlast (f : FaultCode) (cmd : Word) : (takeFault f cmd s).wrlast = s.wrlast := rfl
@[simp] theorem takeFault_gateok (f : FaultCode) (cmd : Word) : (takeFault f cmd s).gateok = s.gateok := rfl
@[simp] theorem takeFault_chsel (f : FaultCode) (cmd : Word) : (takeFault f cmd s).chsel = s.chsel := rfl
@[simp] theorem takeFault_conf (f : FaultCode) (cmd : Word) : (takeFault f cmd s).conf = s.conf := rfl
@[simp] theorem takeFault_n (f : FaultCode) (cmd : Word) : (takeFault f cmd s).n = s.n := rfl
@[simp] theorem takeFault_mode (f : FaultCode) (cmd : Word) : (takeFault f cmd s).mode = s.mode := rfl
@[simp] theorem takeFault_bound (f : FaultCode) (cmd : Word) : (takeFault f cmd s).bound = s.bound := rfl
@[simp] theorem takeFault_crcen (f : FaultCode) (cmd : Word) : (takeFault f cmd s).crcen = s.crcen := rfl
@[simp] theorem takeFault_fcode (f : FaultCode) (cmd : Word) : (takeFault f cmd s).fcode = f := rfl
@[simp] theorem takeFault_fphase (f : FaultCode) (cmd : Word) : (takeFault f cmd s).fphase = s.phase := rfl
@[simp] theorem takeFault_fidx (f : FaultCode) (cmd : Word) : (takeFault f cmd s).fidx = s.idx := rfl
@[simp] theorem takeFault_fcmd (f : FaultCode) (cmd : Word) : (takeFault f cmd s).fcmd = cmd := rfl
@[simp] theorem takeFault_env (f : FaultCode) (cmd : Word) : (takeFault f cmd s).env = { s.env with history := s.env.history ++ [.response f.code 0] } := rfl
@[simp] theorem takeFault_pending (f : FaultCode) (cmd : Word) : (takeFault f cmd s).pending = s.pending := rfl

/-! ### Every other update is one of these -/

@[simp] theorem respond_eq (e : FaultCode) (v : Word32) : respond e v s = s.emit (.response e.code v) := rfl
@[simp] theorem crcAdd_eq (v n : Nat) : crcAdd v n s = s.emit (.crcAdd v n) := rfl
@[simp] theorem sinkAppend_eq (f : FilterNo) (b : PcmBlock) : sinkAppend f b s = s.emit (.sinkAppend f b) := rfl
@[simp] theorem rejectSticky_eq : rejectSticky s = s.emit (.response s.fcode.code 0) := rfl
@[simp] theorem endFrame_eq : endFrame s = setSeq .idle 0 s := rfl
theorem setAlloc_eq (k : BitVec 5) (c : Channel) (a : Nat) :
    s.setAlloc k c a = s.setSlot k { s.slot k with alloc := (s.slot k).alloc.set c.val a } := rfl
theorem setScf_eq (k : BitVec 5) (c : Channel) (v : Nat) :
    s.setScf k c v = s.setSlot k { s.slot k with scf := (s.slot k).scf.set c.val v } := rfl
theorem setBuf_eq (k : BitVec 5) (c : Channel) (v : Val) :
    s.setBuf k c v = s.setSlot k { s.slot k with buf := (s.slot k).buf.set c.val v } := rfl
theorem setCnt_eq (k : BitVec 5) (v : BitVec 4) :
    s.setCnt k v = s.setSlot k { s.slot k with cnt := v } := rfl
theorem inject_eq (f : FilterNo) (k : BitVec 5) (v : Val) :
    s.inject f k v = s.setFilter f ((s.filter f).setInput k.toNat v) := rfl

/-! ### Reading an array after a write -/

@[simp] theorem slot_emit (e : Event) (k : BitVec 5) : (s.emit e).slot k = s.slot k := rfl
@[simp] theorem slot_setFilter (f : FilterNo) (x : SynFilter) (k : BitVec 5) : (s.setFilter f x).slot k = s.slot k := rfl
@[simp] theorem slot_setSeq (p : Phase) (i k : BitVec 5) : (setSeq p i s).slot k = s.slot k := rfl
@[simp] theorem slot_takeFault (f : FaultCode) (cmd : Word) (k : BitVec 5) : (takeFault f cmd s).slot k = s.slot k := rfl
@[simp] theorem filter_emit (e : Event) (f : FilterNo) : (s.emit e).filter f = s.filter f := rfl
@[simp] theorem filter_setSlot (k : BitVec 5) (x : Slot) (f : FilterNo) : (s.setSlot k x).filter f = s.filter f := rfl
@[simp] theorem filter_setSeq (p : Phase) (i : BitVec 5) (f : FilterNo) : (setSeq p i s).filter f = s.filter f := rfl
@[simp] theorem filter_takeFault (g : FaultCode) (cmd : Word) (f : FilterNo) : (takeFault g cmd s).filter f = s.filter f := rfl

@[simp] theorem slot_setSlot_self (k : BitVec 5) (x : Slot) : (s.setSlot k x).slot k = x := by
  simp [State.slot]

theorem slot_setSlot_ne {k j : BitVec 5} (x : Slot) (h : j ≠ k) : (s.setSlot k x).slot j = s.slot j := by
  have : k.toNat ≠ j.toNat := fun e => h (BitVec.eq_of_toNat_eq e.symm)
  simp [State.slot, Vector.getElem_set_ne, this]

theorem slot_setSlot (k j : BitVec 5) (x : Slot) :
    (s.setSlot k x).slot j = if j = k then x else s.slot j := by
  by_cases h : j = k
  · subst h; simp
  · simp [h, slot_setSlot_ne]

@[simp] theorem setSlot_setSlot (k : BitVec 5) (x y : Slot) : (s.setSlot k x).setSlot k y = s.setSlot k y := by
  simp [State.setSlot]

@[simp] theorem filter_setFilter_self (f : FilterNo) (x : SynFilter) : (s.setFilter f x).filter f = x := by
  simp [State.filter]

theorem filter_setFilter_ne {f g : FilterNo} (x : SynFilter) (h : g ≠ f) : (s.setFilter f x).filter g = s.filter g := by
  have : f.val ≠ g.val := fun e => h (Fin.ext e.symm)
  simp [State.filter, Vector.getElem_set_ne, this]

theorem filter_setFilter (f g : FilterNo) (x : SynFilter) :
    (s.setFilter f x).filter g = if g = f then x else s.filter g := by
  by_cases h : g = f
  · subst h; simp
  · simp [h, filter_setFilter_ne]

@[simp] theorem setFilter_setFilter (f : FilterNo) (x y : SynFilter) :
    (s.setFilter f x).setFilter f y = s.setFilter f y := by
  simp [State.setFilter]

@[simp] theorem setSlot_slot_self (k : BitVec 5) : s.setSlot k (s.slot k) = s := by
  simp [State.setSlot, State.slot]

@[simp] theorem setFilter_filter_self (f : FilterNo) : s.setFilter f (s.filter f) = s := by
  simp [State.setFilter, State.filter]

/-- Reading a filter looks at the filters only. -/
theorem filter_congr {s t : State} (h : t.filters = s.filters) (f : FilterNo) : t.filter f = s.filter f := by
  simp only [State.filter, h]

/-- Reading an input vector looks at the filters only. -/
theorem inputAt_congr {s t : State} (h : t.filters = s.filters) (f : FilterNo) (k : BitVec 5) :
    t.inputAt f k = s.inputAt f k := by
  simp only [State.inputAt, State.filter, h]

/-- Reading a slot looks at the slot file only. -/
theorem slot_congr {s t : State} (h : t.sb = s.sb) (k : BitVec 5) : t.slot k = s.slot k := by
  simp only [State.slot, h]

/-- `Inject` writes `S[f][k]` and no other entry of any input vector (R141). -/
theorem inputAt_inject (f g : FilterNo) (k j : BitVec 5) (v : Val) :
    (s.inject f k v).inputAt g j = if g = f ∧ j = k then v else s.inputAt g j := by
  have hk : j = k ↔ k.toNat = j.toNat := ⟨fun h => by rw [h], fun h => BitVec.eq_of_toNat_eq h.symm⟩
  by_cases h : g = f
  · subst h
    simp [State.inputAt, inject_eq, SynFilter.setInput, Vector.getElem_setIfInBounds, hk]
  · simp [State.inputAt, inject_eq, filter_setFilter_ne, h]

end Sys2Proof.Machine.State
end

