-- ==== Sys2Proof/Laws/Ops.lean ====
section
/-! SUPPORT. What each shared operation does: vectors given entry by entry, bit reads, the sequencer primitives, a command's control flow, the acceptance check. -/

namespace Sys2Proof.Machine

/-! ### Vectors -/

@[simp] theorem getElem_vec {α : Type} (n : Nat) (f : Nat → α) (i : Nat) (h : i < n) : (vec n f)[i] = f i := by
  simp [vec]

theorem entry_of_lt {n : Nat} (v : Vector Val n) {i : Nat} (h : i < n) : entry v i = v[i] := by
  simp [entry, h]

/-- Two vectors of values with the same entries are the same. -/
theorem vec_eq_of_entry {n : Nat} {v w : Vector Val n} (h : ∀ i, i < n → entry v i = entry w i) : v = w := by
  ext i hi
  have := h i hi
  rwa [entry_of_lt _ hi, entry_of_lt _ hi] at this

@[simp] theorem entry_vec (n : Nat) (f : Nat → Val) (i : Nat) (h : i < n) : entry (vec n f) i = f i := by
  simp [entry, h]

@[simp] theorem entry_replicate_zero (n i : Nat) : entry (Vector.replicate n Val.zero) i = Val.zero := by
  simp [entry]

/-! ### Bit reads (R53, R54) -/

theorem bitRead_short {n : Nat} {s : State} (h : s.env.bits.length < n) : bitRead n s = none := by
  simp [bitRead, h]

theorem bitRead_enough {n : Nat} {s : State} (h : n ≤ s.env.bits.length) :
    bitRead n s = some (bitsVal (s.env.bits.take n),
      { s with env := { s.env with bits := s.env.bits.drop n, history := s.env.history ++ [.bitsRead n (bitsVal (s.env.bits.take n))] } }) := by
  simp [bitRead, Nat.not_lt.mpr h]

theorem bitsVal_foldl (bs : List Bool) (a : Nat) :
    bs.foldl (fun acc b => 2 * acc + b.toNat) a = a * 2 ^ bs.length + bitsVal bs := by
  induction bs generalizing a with
  | nil => simp [bitsVal]
  | cons b bs ih =>
    simp only [List.foldl_cons, List.length_cons, bitsVal] at ih ⊢
    rw [ih, ih (2 * 0 + b.toNat), Nat.pow_succ, Nat.add_mul]
    simp only [Nat.mul_zero, Nat.zero_add]
    rw [Nat.mul_comm 2 a, Nat.mul_assoc, Nat.mul_comm 2 (2 ^ _), Nat.add_assoc]

theorem bitsVal_cons (b : Bool) (bs : List Bool) :
    bitsVal (b :: bs) = b.toNat * 2 ^ bs.length + bitsVal bs := by
  have h := bitsVal_foldl bs (2 * 0 + b.toNat)
  simpa [bitsVal] using h

/-- A read of `n` bits is below `2^n` (R53). -/
theorem bitsVal_lt (bs : List Bool) : bitsVal bs < 2 ^ bs.length := by
  induction bs with
  | nil => simp [bitsVal]
  | cons b bs ih =>
    rw [bitsVal_cons, List.length_cons, Nat.pow_succ]
    cases b <;> simp <;> omega

theorem bitsVal_take_lt (n : Nat) (bs : List Bool) : bitsVal (bs.take n) < 2 ^ n :=
  Nat.lt_of_lt_of_le (bitsVal_lt _) (Nat.pow_le_pow_right (by decide) (List.length_take_le n bs))

/-! ### Control flow -/

@[simp] theorem CmdFlow.andThen_go (s : State) (k : State → CmdFlow) : (CmdFlow.go s).andThen k = k s := rfl
@[simp] theorem CmdFlow.andThen_done (s : State) (k : State → CmdFlow) : (CmdFlow.done s).andThen k = .done s := rfl
@[simp] theorem CmdFlow.finish_go (s : State) : (CmdFlow.go s).finish = s.emit (.response 0 0) := rfl
@[simp] theorem CmdFlow.finish_done (s : State) : (CmdFlow.done s).finish = s := rfl
theorem raise_eq (f : FaultCode) (cmd : Word) (s : State) : raise f cmd s = .done (takeFault f cmd s) := rfl
theorem answer_eq (v : Word32) (s : State) : answer v s = .done (s.emit (.response 0 v)) := rfl

theorem readBits_short {cmd : Word} {n : Nat} {s : State} {k : Nat → State → CmdFlow} (h : s.env.bits.length < n) :
    readBits cmd n s k = .done (takeFault .eod cmd s) := by
  simp [readBits, bitRead_short h, raise]

theorem readBits_enough {cmd : Word} {n : Nat} {s : State} {k : Nat → State → CmdFlow} (h : n ≤ s.env.bits.length) :
    readBits cmd n s k = k (bitsVal (s.env.bits.take n))
      { s with env := { s.env with bits := s.env.bits.drop n, history := s.env.history ++ [.bitsRead n (bitsVal (s.env.bits.take n))] } } := by
  simp [readBits, bitRead_enough h]

@[simp] theorem forChannels_zero (b : Channel → State → CmdFlow) (s : State) : forChannels 0 b s = .go s := rfl

@[simp] theorem forChannels_one (b : Channel → State → CmdFlow) (s : State) : forChannels 1 b s = b 0 s := by
  simp only [forChannels]; cases b 0 s <;> rfl

@[simp] theorem forChannels_two (b : Channel → State → CmdFlow) (s : State) :
    forChannels 2 b s = (b 0 s).andThen (b 1) := rfl

/-! ### Acceptance (R90) -/

theorem accept_faulted {i : Instr} {p : Phase} {s : State} (h : s.phase = .faulted) :
    accept i p s = .done (rejectSticky s) := by simp [accept, h]

theorem accept_wrong {i : Instr} {p : Phase} {s : State} (h : s.phase ≠ .faulted) (hp : s.phase ≠ p) :
    accept i p s = .done (takeFault .seq (encode i) s) := by simp [accept, h, hp, raise]

theorem accept_right {i : Instr} {p : Phase} {s : State} (h : s.phase = p) (hp : p ≠ .faulted) :
    accept i p s = .go s := by subst h; simp [accept, hp]

theorem acceptAt_faulted {i : Instr} {p : Phase} {k : BitVec 5} {s : State} (h : s.phase = .faulted) :
    acceptAt i p k s = .done (rejectSticky s) := by simp [acceptAt, accept_faulted h]

theorem acceptAt_wrong {i : Instr} {p : Phase} {k : BitVec 5} {s : State} (h : s.phase ≠ .faulted)
    (hp : s.phase ≠ p ∨ k ≠ s.idx) : acceptAt i p k s = .done (takeFault .seq (encode i) s) := by
  by_cases hq : s.phase = p
  · have hk : k ≠ s.idx := hp.resolve_left (fun n => n hq)
    simp [acceptAt, accept_right hq (hq ▸ h), hk, raise]
  · simp [acceptAt, accept_wrong h hq]

theorem acceptAt_right {i : Instr} {p : Phase} {k : BitVec 5} {s : State} (h : s.phase = p) (hp : p ≠ .faulted)
    (hk : k = s.idx) : acceptAt i p k s = .go s := by
  simp [acceptAt, accept_right h hp, hk]

/-! ### The sequencer (R13, R146) -/

/-- `Advance` writes PHASE and IDX and nothing else. -/
theorem advance_eq (next : Phase) (s : State) : advance next s =
    setSeq (if s.idx.toNat + 1 = s.n.toNat then next else s.phase)
      (if s.idx.toNat + 1 = s.n.toNat then 0 else BitVec.ofNat 5 (s.idx.toNat + 1)) s := by
  simp only [advance]; split <;> rfl

/-- `AfterPass` writes PHASE and IDX and nothing else, and IDX becomes 0. -/
theorem afterPass_eq (s : State) : afterPass s =
    setSeq (if s.wrlast = false then .write else if s.rdlast = false then .read else .idle) 0 s := by
  simp only [afterPass, endFrame]
  split
  · rfl
  · split <;> rfl

end Sys2Proof.Machine
end

