-- ==== Sys2Proof/Laws/Flow.lean ====
section
/-! SUPPORT. A small logic for a command's control flow: `CmdFlow.Sat f G D` says that where `f` goes on, `G` holds of the state, and where it has answered and ended, `D` does. One rule for each way a command is put together. -/

namespace Sys2Proof.Machine

/-- Where the flow goes on its state meets `G`; where it has ended its state meets `D`. -/
def CmdFlow.Sat (f : CmdFlow) (G D : State → Prop) : Prop :=
  match f with
  | .go s => G s
  | .done s => D s

theorem CmdFlow.sat_go {s : State} {G D : State → Prop} (h : G s) : (CmdFlow.go s).Sat G D := h

theorem CmdFlow.sat_done {s : State} {G D : State → Prop} (h : D s) : (CmdFlow.done s).Sat G D := h

theorem CmdFlow.Sat.andThen {f : CmdFlow} {k : State → CmdFlow} {G H D : State → Prop} (hf : f.Sat G D)
    (hk : ∀ s, G s → (k s).Sat H D) : (f.andThen k).Sat H D := by
  cases f with
  | go s => exact hk s hf
  | done s => exact hf

theorem CmdFlow.Sat.mono {f : CmdFlow} {G D G' D' : State → Prop} (hf : f.Sat G D) (hG : ∀ s, G s → G' s)
    (hD : ∀ s, D s → D' s) : f.Sat G' D' := by
  cases f with
  | go s => exact hG s hf
  | done s => exact hD s hf

/-- The state a whole command leaves. -/
theorem CmdFlow.Sat.finish {f : CmdFlow} {G D : State → Prop} (hf : f.Sat G D)
    (hG : ∀ s, G s → D (s.emit (.response 0 0))) : D f.finish := by
  cases f with
  | go s => exact hG s hf
  | done s => exact hf

/-- A command passes `Accept` only in its phase; otherwise it leaves the sticky answer or a SEQ fault (R90). -/
theorem sat_accept {i : Instr} {p : Phase} {s : State} {G D : State → Prop} (hp : p ≠ .faulted)
    (hgo : s.phase = p → G s) (hsticky : s.phase = .faulted → D (rejectSticky s))
    (hseq : s.phase ≠ .faulted → s.phase ≠ p → D (takeFault .seq (encode i) s)) : (accept i p s).Sat G D := by
  by_cases h : s.phase = .faulted
  · rw [accept_faulted h]; exact hsticky h
  · by_cases hq : s.phase = p
    · rw [accept_right hq hp]; exact hgo hq
    · rw [accept_wrong h hq]; exact hseq h hq

/-- The same for a command with a subband index (R90). -/
theorem sat_acceptAt {i : Instr} {p : Phase} {k : BitVec 5} {s : State} {G D : State → Prop} (hp : p ≠ .faulted)
    (hgo : s.phase = p → k = s.idx → G s) (hsticky : s.phase = .faulted → D (rejectSticky s))
    (hseq : s.phase ≠ .faulted → ¬ (s.phase = p ∧ k = s.idx) → D (takeFault .seq (encode i) s)) :
    (acceptAt i p k s).Sat G D := by
  by_cases h : s.phase = .faulted
  · rw [acceptAt_faulted h]; exact hsticky h
  · by_cases hq : s.phase = p ∧ k = s.idx
    · rw [acceptAt_right hq.1 hp hq.2]; exact hgo hq.1 hq.2
    · rw [acceptAt_wrong h (by by_cases hs : s.phase = p <;> simp_all)]; exact hseq h hq

/-- `Accept`, and then the rest of the command. -/
theorem sat_accept_then {i : Instr} {p : Phase} {s : State} {rest : State → CmdFlow} {G D : State → Prop}
    (hp : p ≠ .faulted) (hgo : s.phase = p → (rest s).Sat G D) (hsticky : s.phase = .faulted → D (rejectSticky s))
    (hseq : s.phase ≠ .faulted → s.phase ≠ p → D (takeFault .seq (encode i) s)) :
    ((accept i p s).andThen rest).Sat G D :=
  CmdFlow.Sat.andThen (G := fun m => m = s ∧ s.phase = p) (sat_accept hp (fun h => ⟨rfl, h⟩) hsticky hseq)
    fun m h => by rw [h.1]; exact hgo h.2

/-- `Accept` with a subband index, and then the rest of the command. -/
theorem sat_acceptAt_then {i : Instr} {p : Phase} {k : BitVec 5} {s : State} {rest : State → CmdFlow}
    {G D : State → Prop} (hp : p ≠ .faulted) (hgo : s.phase = p → k = s.idx → (rest s).Sat G D)
    (hsticky : s.phase = .faulted → D (rejectSticky s))
    (hseq : s.phase ≠ .faulted → ¬ (s.phase = p ∧ k = s.idx) → D (takeFault .seq (encode i) s)) :
    ((acceptAt i p k s).andThen rest).Sat G D :=
  CmdFlow.Sat.andThen (G := fun m => m = s ∧ s.phase = p ∧ k = s.idx)
    (sat_acceptAt hp (fun h hk => ⟨rfl, h, hk⟩) hsticky hseq) fun m h => by rw [h.1]; exact hgo h.2.1 h.2.2

/-- A read goes on with the bits consumed, or ends in an EOD fault with nothing consumed (R53, R194). -/
theorem sat_readBits {cmd : Word} {n : Nat} {s : State} {k : Nat → State → CmdFlow} {G D : State → Prop}
    (hread : n ≤ s.env.bits.length → (k (bitsVal (s.env.bits.take n))
      { s with env := { s.env with bits := s.env.bits.drop n, history := s.env.history ++ [.bitsRead n (bitsVal (s.env.bits.take n))] } }).Sat G D)
    (heod : s.env.bits.length < n → D (takeFault .eod cmd s)) : (readBits cmd n s k).Sat G D := by
  by_cases h : s.env.bits.length < n
  · rw [readBits_short h]; exact heod h
  · rw [readBits_enough (Nat.not_lt.mp h)]; exact hread (Nat.not_lt.mp h)

/-- The channel loop keeps whatever each channel keeps (R110). -/
theorem sat_forChannels {n : Nat} {body : Channel → State → CmdFlow} {s : State} {G D : State → Prop} (h0 : G s)
    (hbody : ∀ (c : Channel) (t : State), c.val < n → G t → (body c t).Sat G D) : (forChannels n body s).Sat G D := by
  refine CmdFlow.Sat.andThen (G := G) ?_ ?_
  · split
    · exact hbody 0 s (by assumption) h0
    · exact h0
  · intro t ht
    split
    · exact hbody 1 t (by assumption) ht
    · exact ht

end Sys2Proof.Machine
end

