-- ==== Sys2Proof/Laws/Commands.lean ====
section
/-! SUPPORT. What each command can do, said once: the words of the encoder, the record update behind CALC, PUT and the sequencer, and `exec_sat`, the one rule from which a property of every command's next state follows case by case. -/

namespace Sys2Proof.Machine

/-! ### The encoder's words (R82) -/

theorem encode_setup (c : BitVec 2) : encode (.setup c) = 0x1000#16 + c.setWidth 16 := by revert c; decide
theorem encode_rdalloc (k : BitVec 5) : encode (.rdalloc k) = 0x3000#16 + k.setWidth 16 := by revert k; decide
theorem encode_rdscf (k : BitVec 5) : encode (.rdscf k) = 0x6000#16 + k.setWidth 16 := by revert k; decide
theorem encode_rdsmp (k : BitVec 5) : encode (.rdsmp k) = 0x7000#16 + k.setWidth 16 := by revert k; decide
theorem encode_put (k : BitVec 5) : encode (.put k) = 0x8000#16 + k.setWidth 16 := by revert k; decide

/-! ### Operands -/

theorem selectionOf_code (sel : ChSel) : selectionOf sel.code = some sel := by cases sel <;> decide

theorem selectionOf_eq_none {c : BitVec 2} : selectionOf c = none ↔ c = 3#2 := by revert c; decide

theorem calcPhase_ne_faulted (f : BitVec 1) : calcPhase f ≠ .faulted := by unfold calcPhase; split <;> decide

theorem need2_iff (s : State) : s.need2 = true ↔ s.chsel = .both ∧ s.mode ≠ 3#2 := by
  simp only [State.need2, channelMode]
  by_cases h3 : s.mode = 3#2
  · simp [h3]
  · by_cases h1 : s.mode = 1#2 <;> simp [h1, h3]

/-! ### CALC and PUT as updates of the state -/

theorem afterCalc_eq (f : BitVec 1) (s : State) : afterCalc f s =
    setSeq (if f = 0#1 ∧ s.need2 = true then .calc1
      else if s.wrlast = false then .write else if s.rdlast = false then .read else .idle) 0 s := by
  simp only [afterCalc, afterPass_eq]; split <;> rfl

/-- Everything CALC does once accepted (R143, R145, R146). -/
theorem calcBody_eq (cfg : Cfg) (f : BitVec 1) (s : State) : calcBody cfg f s = .go
    (setSeq (if f = 0#1 ∧ s.need2 = true then .calc1
        else if s.wrlast = false then .write else if s.rdlast = false then .read else .idle) 0
      ((s.setFilter (filterOf f)
          { input := Vector.replicate nBand Val.zero,
            hist := synthHist cfg.num (s.filter (filterOf f)).hist (s.filter (filterOf f)).input }).emit
        (.sinkAppend (filterOf f)
          (synthBlock cfg.num (synthHist cfg.num (s.filter (filterOf f)).hist (s.filter (filterOf f)).input))))) := by
  simp only [calcBody, sinkAppend, afterCalc_eq, State.setFilter, State.emit, State.filter, setSeq, Vector.set_set]
  simp [State.need2]

/-- Injecting writes the filters and nothing else. -/
theorem injectAll_eq (k : BitVec 5) (l : List (FilterNo × Val)) (s : State) :
    injectAll k l s = { s with filters := (injectAll k l s).filters } := by
  induction l generalizing s with
  | nil => rfl
  | cons p l ih =>
    have h := ih (s.inject p.1 k p.2)
    simp only [injectAll, List.foldl_cons] at h ⊢
    rw [h]; rfl

/-- Injecting leaves every history alone. -/
theorem injectAll_hist (k : BitVec 5) (l : List (FilterNo × Val)) (s : State) (f : FilterNo) :
    ((injectAll k l s).filter f).hist = (s.filter f).hist := by
  induction l generalizing s with
  | nil => rfl
  | cons p l ih =>
    have h := ih (s.inject p.1 k p.2)
    simp only [injectAll, List.foldl_cons] at h ⊢
    rw [h, State.inject, State.filter_setFilter]
    split <;> simp_all [SynFilter.setInput]

/-- Injecting at `k` leaves every other band alone. -/
theorem injectAll_inputAt_ne {k j : BitVec 5} (h : j ≠ k) (l : List (FilterNo × Val)) (s : State) (f : FilterNo) :
    (injectAll k l s).inputAt f j = s.inputAt f j := by
  induction l generalizing s with
  | nil => rfl
  | cons p l ih =>
    have e := ih (s.inject p.1 k p.2)
    simp only [injectAll, List.foldl_cons] at e ⊢
    rw [e, State.inputAt_inject]; simp [h]

/-- A filter that no pair names is left alone. -/
theorem injectAll_filter_ne (k : BitVec 5) (l : List (FilterNo × Val)) (s : State) (f : FilterNo)
    (h : ∀ p ∈ l, p.1 ≠ f) : (injectAll k l s).filter f = s.filter f := by
  induction l generalizing s with
  | nil => rfl
  | cons p l ih =>
    have e := ih (s.inject p.1 k p.2) fun q hq => h q (List.mem_cons_of_mem _ hq)
    simp only [injectAll, List.foldl_cons] at e ⊢
    rw [e, State.inject, State.filter_setFilter_ne]
    exact fun e => h p List.mem_cons_self e.symm

/-! ### The channels of the reading commands -/

/-- One channel of RDALLOC: EOD with nothing read, or the code stored, and then FMT if it is not legal (R111, R112). -/
theorem sat_rdallocChannel {cfg : Cfg} {k : BitVec 5} {c : Channel} {s : State} {G D : State → Prop}
    (heod : s.env.bits.length < cfg.allocBits → D (takeFault .eod (encode (.rdalloc k)) s))
    (hread : cfg.allocBits ≤ s.env.bits.length → ∀ a m, a < 2 ^ cfg.allocBits →
      m = { s with env := { s.env with
        bits := s.env.bits.drop cfg.allocBits,
        history := s.env.history ++ ([Event.bitsRead cfg.allocBits a] ++ if s.crcen then [Event.crcAdd a cfg.allocBits] else []) } } →
      (cfg.allocLegal a = true → G (m.setAlloc k c a)) ∧
      (cfg.allocLegal a = false → D (takeFault .fmt (encode (.rdalloc k)) (m.setAlloc k c a)))) :
    (rdallocChannel cfg k c s).Sat G D := by
  refine sat_readBits (fun h => ?_) heod
  obtain ⟨h1, h2⟩ := hread h _ _ (bitsVal_take_lt _ _) rfl
  have e : ∀ m : State, m = s → True := fun _ _ => trivial
  cases hl : cfg.allocLegal (bitsVal (s.env.bits.take cfg.allocBits)) with
  | true =>
    by_cases hc : s.crcen = true
    · simpa [hc, hl, CmdFlow.Sat, crcAdd, State.emit, State.setAlloc, State.slot, State.setSlot] using h1 hl
    · simpa [hc, hl, CmdFlow.Sat, State.setAlloc, State.slot, State.setSlot] using h1 hl
  | false =>
    by_cases hc : s.crcen = true
    · simpa [hc, hl, CmdFlow.Sat, raise, crcAdd, State.emit, State.setAlloc, State.slot, State.setSlot] using h2 hl
    · simpa [hc, hl, CmdFlow.Sat, raise, State.setAlloc, State.slot, State.setSlot] using h2 hl

/-- One channel of RDSCF (R114, R115). -/
theorem sat_rdscfChannel {cfg : Cfg} {k : BitVec 5} {c : Channel} {s : State} {G D : State → Prop}
    (hskip : (s.slot k).alloc[c.val] = 0 → G s)
    (heod : s.env.bits.length < cfg.scfBits → D (takeFault .eod (encode (.rdscf k)) s))
    (hread : (s.slot k).alloc[c.val] ≠ 0 → cfg.scfBits ≤ s.env.bits.length → ∀ v, v < 2 ^ cfg.scfBits →
      G (State.setScf { s with env := { s.env with
        bits := s.env.bits.drop cfg.scfBits, history := s.env.history ++ [.bitsRead cfg.scfBits v] } } k c v)) :
    (rdscfChannel cfg k c s).Sat G D := by
  unfold rdscfChannel
  split
  · exact sat_readBits (fun h => hread (by assumption) h _ (bitsVal_take_lt _ _)) heod
  · exact hskip (by simp_all)

/-- One channel of RDSMP (R117, R120). -/
theorem sat_rdsmpChannel {cfg : Cfg} {k : BitVec 5} {c : Channel} {s : State} {G D : State → Prop}
    (hskip : (s.slot k).alloc[c.val] = 0 → G s)
    (heod : D (takeFault .eod (encode (.rdsmp k)) s))
    (hread : (s.slot k).alloc[c.val] ≠ 0 → ∀ n q v, n = cfg.sampleLen k (s.slot k).alloc[c.val] →
      n ≤ s.env.bits.length → q < 2 ^ n →
      G (State.setBuf { s with env := { s.env with
        bits := s.env.bits.drop n, history := s.env.history ++ [.bitsRead n q] } } k c v)) :
    (rdsmpChannel cfg k c s).Sat G D := by
  unfold rdsmpChannel
  simp only
  split
  · exact sat_readBits (fun h => hread (by assumption) _ _ _ rfl h (bitsVal_take_lt _ _)) fun _ => heod
  · exact hskip (by simp_all)

/-! ### Every command -/

/-- FRAME once accepted: a CFG fault with nothing written, or the latches, the flags and the slots (R93). -/
theorem sat_frameBody {s : State} {G D : State → Prop}
    (hcfg : D (takeFault .cfg (encode .frame) s))
    (hok : s.env.header.n.toNat ≤ 32 →
      (s.env.header.mode = 1#2 → s.env.header.bound.toNat ≤ s.env.header.n.toNat) →
      G { s with
        n := s.env.header.n, mode := s.env.header.mode,
        bound := if s.env.header.mode = 1#2 then s.env.header.bound else 0#6,
        crcen := s.env.crcPresent, rdlast := false, wrlast := false, gateok := false,
        sb := initSlots s.env.header.n.toNat s.env.header.mode s.env.header.bound.toNat,
        phase := if s.env.header.n = 0#6 then .sfsel else .alloc, idx := 0#5 }) :
    (frameBody s).Sat G D := by
  unfold frameBody
  by_cases h1 : 32 < (hdrN s).toNat
  · rw [if_pos h1]; exact hcfg
  · rw [if_neg h1]
    by_cases h2 : hdrMode s = 1#2 ∧ (hdrN s).toNat < (hdrBound s).toNat
    · rw [if_pos h2]; exact hcfg
    · rw [if_neg h2]
      exact hok (Nat.not_lt.mp h1) fun hm => Nat.not_lt.mp fun hlt => h2 ⟨hm, hlt⟩

/-- The one rule for all commands: `exec` answers a next state, and a property holds of it if it holds in each of
the ways a command can end. -/
theorem exec_sat {D : State → Prop} (i : Instr) (s : State)
    (hnop : i = .nop → D (s.emit (.response 0 0)))
    (hcsr : ∀ a, i = .rdcsr a → D (s.emit (.response 0 (csr a s))))
    (hsticky : s.phase = .faulted → D (rejectSticky s))
    (hill : i.wellFormed = false → s.phase ≠ .faulted → D (takeFault .ill (encode i) s))
    (hseq : s.phase ≠ .faulted → ¬ Accepts s i → D (takeFault .seq (encode i) s))
    (hsetup : ∀ c sel, i = .setup c → selectionOf c = some sel → s.phase = .unconf →
      D ((setSeq .idle 0 { s with chsel := sel, conf := true }).emit (.response 0 0)))
    (hframe : i = .frame → s.phase = .idle → (frameBody s).Sat (fun m => D (m.emit (.response 0 0))) D)
    (hsfsel : i = .sfsel → s.phase = .sfsel → D ((setSeq .gate 0 s).emit (.response 0 0)))
    (hgate : i = .gate → s.phase = .gate →
      D ((setSeq (if gateOpen s = false ∨ s.n = 0#6 then .idle else .scf) 0 { s with gateok := gateOpen s }).emit
        (.response 0 (boolVal (gateOpen s)))))
    (hrdalloc : ∀ k, i = .rdalloc k → s.phase = .alloc → k = s.idx →
      (forChannels (s.slot k).tag.nch (rdallocChannel Config.cfg k) s).Sat
        (fun m => D ((advance .sfsel m).emit (.response 0 0))) D)
    (hrdscf : ∀ k, i = .rdscf k → s.phase = .scf → k = s.idx →
      (forChannels (s.slot k).tag.nch (rdscfChannel Config.cfg k) s).Sat
        (fun m => D ((advance .read m).emit (.response 0 0))) D)
    (hrdsmp : ∀ k, i = .rdsmp k → s.phase = .read → k = s.idx →
      (forChannels (s.slot k).tag.nch (rdsmpChannel Config.cfg k) s).Sat
        (fun m => D ((advance .write { m.setCnt k (nextCnt Config.cfg (m.slot k)) with
          rdlast := burstDone Config.cfg (m.slot k) }).emit (.response 0 (boolVal (burstDone Config.cfg (m.slot k)))))) D)
    (hput : ∀ k, i = .put k → s.phase = .write → k = s.idx →
      D ((advance .calc0 { injectAll k (route Config.cfg.num (s.slot k) s.chsel k) s with wrlast := true }).emit
        (.response 0 1#32)))
    (hcalc : ∀ f m, i = .calcPcm f → s.phase = calcPhase f → calcBody Config.cfg f s = .go m →
      D (m.emit (.response 0 0))) :
    ∃ t, exec i s = .next t ∧ D t := by
  cases i with
  | nop => exact ⟨_, rfl, hnop rfl⟩
  | rdcsr a => exact ⟨_, rfl, hcsr a rfl⟩
  | setup c =>
    cases hc : selectionOf c with
    | none =>
      refine ⟨illegalWord (encode (.setup c)) s, by simp [exec, execSetup, hc], ?_⟩
      unfold illegalWord
      split
      · exact hsticky (by assumption)
      · exact hill (by simp [Instr.wellFormed, selectionOf_eq_none.mp hc]) (by assumption)
    | some sel =>
      have e : exec (.setup c) s = .next ((accept (.setup c) .unconf s).andThen fun s =>
          .go (setSeq .idle 0 { s with chsel := sel, conf := true })).finish := by simp only [exec, execSetup, hc]
      exact ⟨_, e, CmdFlow.Sat.finish (G := fun m => D (m.emit (.response 0 0))) (sat_accept_then (by decide) (hsetup c sel rfl hc) hsticky
        fun hf hp => hseq hf fun h => hp h.1) fun _ h => h⟩
  | frame =>
    exact ⟨_, rfl, CmdFlow.Sat.finish (G := fun m => D (m.emit (.response 0 0))) (sat_accept_then (by decide) (hframe rfl) hsticky hseq) fun _ h => h⟩
  | sfsel =>
    exact ⟨_, rfl, CmdFlow.Sat.finish (G := fun m => D (m.emit (.response 0 0))) (sat_accept_then (by decide) (hsfsel rfl) hsticky hseq) fun _ h => h⟩
  | gate =>
    refine ⟨_, rfl, CmdFlow.Sat.finish (G := fun m => D (m.emit (.response 0 0)))
      (sat_accept_then (by decide) (fun h => ?_) hsticky hseq) fun _ h => h⟩
    have e : gateBody s = .done ((setSeq (if gateOpen s = false ∨ s.n = 0#6 then .idle else .scf) 0
        { s with gateok := gateOpen s }).emit (.response 0 (boolVal (gateOpen s)))) := by
      simp only [gateBody, answer_eq, endFrame]; split <;> simp_all
    rw [e]
    exact hgate rfl h
  | rdalloc k =>
    exact ⟨_, rfl, CmdFlow.Sat.finish (G := fun m => D (m.emit (.response 0 0))) (sat_acceptAt_then (by decide)
      (fun h hk => CmdFlow.Sat.andThen (hrdalloc k rfl h hk) fun _ h => h) hsticky hseq) fun _ h => h⟩
  | rdscf k =>
    exact ⟨_, rfl, CmdFlow.Sat.finish (G := fun m => D (m.emit (.response 0 0))) (sat_acceptAt_then (by decide)
      (fun h hk => CmdFlow.Sat.andThen (hrdscf k rfl h hk) fun _ h => h) hsticky hseq) fun _ h => h⟩
  | rdsmp k =>
    exact ⟨_, rfl, CmdFlow.Sat.finish (G := fun m => D (m.emit (.response 0 0))) (sat_acceptAt_then (by decide)
      (fun h hk => CmdFlow.Sat.andThen (hrdsmp k rfl h hk) fun _ h => h) hsticky hseq) fun _ h => h⟩
  | put k =>
    exact ⟨_, rfl, CmdFlow.Sat.finish (G := fun m => D (m.emit (.response 0 0))) (sat_acceptAt_then (by decide)
      (hput k rfl) hsticky hseq) fun _ h => h⟩
  | calcPcm f =>
    refine ⟨_, rfl, CmdFlow.Sat.finish (G := fun m => D (m.emit (.response 0 0))) (sat_accept_then (calcPhase_ne_faulted f)
      (fun h => ?_) hsticky hseq) fun _ h => h⟩
    have e := calcBody_eq Config.cfg f s
    rw [e]
    exact hcalc f _ rfl h e

/-- The one rule for a step: a property that the queue and the environment do not matter to is kept by the step if
reset, an illegal word and every command keep it. -/
theorem step_sat {P : State → Prop} {s t : State} (hs : P s) (h : step s = .next t)
    (hpending : ∀ s p, P s → P { s with pending := p })
    (henv : ∀ s e, P s → P { s with env := e })
    (hreset : ∀ s, P s → P (blockReset s))
    (hill : ∀ s w, P s → s.phase ≠ .faulted → P (takeFault .ill w s))
    (hexec : ∀ i s, P s → ∃ t, exec i s = .next t ∧ P t) : P t := by
  unfold step at h
  split at h
  · cases h; exact hs
  · rename_i m rest hp
    have hs' := hpending s rest hs
    generalize ({ s with pending := rest } : State) = s' at h hs'
    cases m with
    | command w =>
      simp only [runMove, runWord] at h
      split at h
      · obtain ⟨t', h1, h2⟩ := hexec _ s' hs'
        rw [h1] at h; cases h; exact h2
      · cases h
        unfold illegalWord
        split
        · exact henv _ _ hs'
        · exact hill _ _ hs' (by assumption)
    | reset => cases h; exact hreset _ hs'
    | setStream _ => simp only [runMove, hostSetStream] at h; split at h <;> cases h; exact henv _ _ hs'
    | setHeader _ => simp only [runMove, hostSetHeader] at h; split at h <;> cases h; exact henv _ _ hs'
    | setCkvalid _ => simp only [runMove, hostSetCkvalid] at h; split at h <;> cases h; exact henv _ _ hs'
    | setCrc _ => simp only [runMove, hostSetCrc] at h; split at h <;> cases h; exact henv _ _ hs'
    | touchCrc => simp only [runMove, hostTouchCrc] at h; split at h <;> cases h; exact hs'
    | consumeSink => cases h; exact hs'

/-- The index a pass moves to is the next one: it does not wrap, because it stays below N (R13, R30). -/
theorem toNat_nextIdx {s : State} (h : SeqInv s) (hp : 0 < s.n.toNat) (hn : ¬ s.idx.toNat + 1 = s.n.toNat) :
    (BitVec.ofNat 5 (s.idx.toNat + 1)).toNat = s.idx.toNat + 1 := by
  have h1 := h.idx_lt
  have h2 := h.n_le
  rw [BitVec.toNat_ofNat, Nat.mod_eq_of_lt]
  omega

end Sys2Proof.Machine
end

