-- ==== Sys2Proof/Laws/PerInstr.lean ====
section
/-! SUPPORT. The per-instruction family DecodeEncode: for each command, decoding its word gives it back (spec/30_encoding.md rules R71 to R78). -/

namespace Sys2Proof.Laws.DecodeEncode

/-- A well-formed command is what the decoder reads from its own word. -/
def Statement (i : Instr) : Prop := i.wellFormed = true → decode (encode i) = .ok i

theorem nop : Statement .nop := fun _ => rfl
theorem setup (chsel : BitVec 2) : Statement (.setup chsel) := by unfold Statement; revert chsel; decide
theorem frame : Statement .frame := fun _ => rfl
theorem rdalloc (k : BitVec 5) : Statement (.rdalloc k) := by unfold Statement; revert k; decide
theorem sfsel : Statement .sfsel := fun _ => rfl
theorem gate : Statement .gate := fun _ => rfl
theorem rdscf (k : BitVec 5) : Statement (.rdscf k) := by unfold Statement; revert k; decide
theorem rdsmp (k : BitVec 5) : Statement (.rdsmp k) := by unfold Statement; revert k; decide
theorem put (k : BitVec 5) : Statement (.put k) := by unfold Statement; revert k; decide
theorem calcPcm (f : BitVec 1) : Statement (.calcPcm f) := by unfold Statement; revert f; decide
theorem rdcsr (a : BitVec 4) : Statement (.rdcsr a) := by unfold Statement; revert a; decide

end Sys2Proof.Laws.DecodeEncode
end

