-- ==== Sys2Proof/Laws/Ring.lean ====
section
/-! SUPPORT. The ring of a numerics record (spec/00_scope.md rule R8) as one of the library's commutative rings, and the sums of R9 as its finite sums. -/

namespace Sys2Proof.Machine

/-- The commutative ring R8 gives `V`. -/
@[reducible] def Numerics.commRing (num : Numerics) : CommRing Val where
  zero := Val.zero
  one := num.one
  add := num.add
  mul := num.mul
  neg := num.neg
  nsmul := @nsmulRec Val ⟨Val.zero⟩ ⟨num.add⟩
  zsmul := @zsmulRec Val ⟨Val.zero⟩ ⟨num.add⟩ ⟨num.neg⟩ (@nsmulRec Val ⟨Val.zero⟩ ⟨num.add⟩)
  npow := @npowRec Val ⟨num.one⟩ ⟨num.mul⟩
  nsmul_zero _ := rfl
  nsmul_succ _ _ := rfl
  zsmul_zero' _ := rfl
  zsmul_succ' _ _ := rfl
  zsmul_neg' _ _ := rfl
  npow_zero _ := rfl
  npow_succ _ _ := rfl
  add_assoc := num.add_assoc
  zero_add a := (num.add_comm _ _).trans (num.add_zero a)
  add_zero := num.add_zero
  add_comm := num.add_comm
  left_distrib := num.mul_add
  right_distrib a b c := by
    show num.mul (num.add a b) c = num.add (num.mul a c) (num.mul b c)
    rw [num.mul_comm, num.mul_add, num.mul_comm c a, num.mul_comm c b]
  zero_mul a := by
    show num.mul Val.zero a = Val.zero
    have h : num.add (num.mul a Val.zero) (num.mul a Val.zero) = num.mul a Val.zero := by
      rw [← num.mul_add, num.add_zero]
    have h2 := congrArg (fun x => num.add x (num.neg (num.mul a Val.zero))) h
    simp only [num.add_assoc, num.add_neg, num.add_zero] at h2
    rw [num.mul_comm, h2]
  mul_zero a := by
    show num.mul a Val.zero = Val.zero
    have h : num.add (num.mul a Val.zero) (num.mul a Val.zero) = num.mul a Val.zero := by
      rw [← num.mul_add, num.add_zero]
    have h2 := congrArg (fun x => num.add x (num.neg (num.mul a Val.zero))) h
    simpa only [num.add_assoc, num.add_neg, num.add_zero] using h2
  mul_assoc := num.mul_assoc
  one_mul a := (num.mul_comm _ _).trans (num.mul_one a)
  mul_one := num.mul_one
  neg_add_cancel a := (num.add_comm _ _).trans (num.add_neg a)
  mul_comm := num.mul_comm

variable (num : Numerics)

theorem num_zero_add (a : Val) : num.add Val.zero a = a := (num.add_comm _ _).trans (num.add_zero a)

theorem num_mul_zero (a : Val) : num.mul a Val.zero = Val.zero := (Numerics.commRing num).mul_zero a

theorem num_zero_mul (a : Val) : num.mul Val.zero a = Val.zero := (Numerics.commRing num).zero_mul a

/-- The sum of R9 is the library's finite sum in the ring of `num`. -/
theorem sumV_eq_sum (n : Nat) (f : Nat → Val) :
    sumV num n f = @Finset.sum Nat Val (Numerics.commRing num).toAddCommMonoid (Finset.range n) f := by
  let _ := Numerics.commRing num
  induction n with
  | zero => rfl
  | succ n ih =>
    show num.add (sumV num n f) (f n) = _
    rw [Finset.sum_range_succ, ih]
    rfl

theorem sumV_congr {n : Nat} {f g : Nat → Val} (h : ∀ i, i < n → f i = g i) : sumV num n f = sumV num n g := by
  induction n with
  | zero => rfl
  | succ n ih => rw [sumV, sumV, ih fun i hi => h i (by omega), h n (by omega)]

theorem sumV_zero {n : Nat} {f : Nat → Val} (h : ∀ i, i < n → f i = Val.zero) : sumV num n f = Val.zero := by
  induction n with
  | zero => rfl
  | succ n ih => rw [sumV, ih fun i hi => h i (by omega), h n (by omega), num.add_zero]

/-- A sum with one term other than 0. -/
theorem sumV_single {n : Nat} {f : Nat → Val} {k : Nat} (hk : k < n) (h : ∀ i, i < n → i ≠ k → f i = Val.zero) :
    sumV num n f = f k := by
  induction n with
  | zero => omega
  | succ n ih =>
    rw [sumV]
    by_cases hn : k = n
    · subst hn
      rw [sumV_zero num fun i hi => h i (by omega) (by omega), num_zero_add]
    · rw [ih (by omega) fun i hi hne => h i (by omega) hne, h n (by omega) (fun e => hn e.symm), num.add_zero]

theorem sumV_add (n : Nat) (f g : Nat → Val) :
    sumV num n (fun i => num.add (f i) (g i)) = num.add (sumV num n f) (sumV num n g) := by
  let _ := Numerics.commRing num
  rw [sumV_eq_sum, sumV_eq_sum, sumV_eq_sum]
  exact Finset.sum_add_distrib

/-- The entries of a new history (R144). -/
theorem entry_synthHist (h : Vector Val histLen) (x : Vector Val nBand) {i : Nat} (hi : i < histLen) :
    entry (synthHist num h x) i = if i < 64 then matrixed num x i else entry h (i - 64) := by
  rw [synthHist, entry_vec _ _ _ hi]

/-- The lower half of a 64-block of `U` (R144). -/
theorem synthU_low (h' : Vector Val histLen) (m : Nat) {j : Nat} (hj : j < 32) :
    synthU h' (64 * m + j) = entry h' (128 * m + j) := by
  rw [synthU, if_pos (by omega)]
  congr 1
  omega

/-- The upper half of a 64-block of `U` (R144). -/
theorem synthU_high (h' : Vector Val histLen) (m : Nat) {j : Nat} (hj : j < 32) :
    synthU h' (64 * m + 32 + j) = entry h' (128 * m + 96 + j) := by
  rw [synthU, if_neg (by omega)]
  congr 1
  omega

/-- A zero input vector matrixes to 0. -/
theorem matrixed_zero {x : Vector Val nBand} (hx : ∀ k, k < nBand → entry x k = Val.zero) (i : Nat) :
    matrixed num x i = Val.zero :=
  sumV_zero num fun k hk => by rw [hx k hk, num_mul_zero]

end Sys2Proof.Machine
end

