-- ==== Sys2Proof/Machine/Asm.lean ====
section
/-! DEFINITION. The assembler syntax of spec/30_encoding.md rule R82: one command per line, a lower-case mnemonic and at most one operand, `;` starts a comment. Notation only; no meaning depends on it. -/

namespace Sys2Proof.Machine

/-- Why a line is no command: "an operand out of range is an assembler error, not a word" (R82). -/
inductive AsmError where
  | unknownMnemonic
  | badOperand
deriving DecidableEq, Repr

/-- A line without its comment. -/
def stripComment (line : List Char) : List Char := line.takeWhile (· != ';')

/-- The words of a line. -/
def tokens (line : List Char) : List (List Char) :=
  let put := fun (acc : List (List Char) × List Char) (c : Char) =>
    if c = ' ' then (if acc.2.isEmpty then acc.1 else acc.1 ++ [acc.2], []) else (acc.1, acc.2 ++ [c])
  let out := (stripComment line).foldl put ([], [])
  if out.2.isEmpty then out.1 else out.1 ++ [out.2]

/-- The value of a digit below `base` (10 or 16). -/
def digit (base : Nat) (c : Char) : Option Nat :=
  let n := c.toNat
  let v := if 48 ≤ n ∧ n ≤ 57 then n - 48
    else if 97 ≤ n ∧ n ≤ 102 then n - 87
    else if 65 ≤ n ∧ n ≤ 70 then n - 55
    else base
  if v < base then some v else none

/-- A run of digits; none for an empty run. -/
def digits (base : Nat) (cs : List Char) : Option Nat :=
  if cs.isEmpty then none
  else cs.foldl (fun acc c => acc.bind fun a => (digit base c).map fun d => a * base + d) (some 0)

/-- "Numbers are decimal or `0x` hexadecimal" (R82). -/
def number : List Char → Option Nat
  | '0' :: 'x' :: cs => digits 16 cs
  | cs => digits 10 cs

/-- The register names `rdcsr` takes in place of a number (R82). -/
def csrNames : List (List Char × Nat) :=
  [("id".toList, 0), ("cfg".toList, 1), ("status".toList, 2), ("fault".toList, 3), ("frameinfo".toList, 4)]

/-- The selections `setup` takes (R82). -/
def selectionNames : List (List Char × Nat) :=
  [("both".toList, 0), ("left".toList, 1), ("right".toList, 2)]

/-- An operand that is a number below `limit`. -/
def operandBelow (limit : Nat) (tok : List Char) : Option Nat :=
  (number tok).bind fun v => if v < limit then some v else none

/-- One operand, found and in range, makes the command. -/
def withOperand (v : Option Nat) (build : Nat → Instr) : Except AsmError Instr :=
  match v with
  | some n => .ok (build n)
  | none => .error .badOperand

/-- A command without an operand. -/
def asmPlain (mnemonic : List Char) : Option Instr :=
  if mnemonic = "nop".toList then some .nop
  else if mnemonic = "frame".toList then some .frame
  else if mnemonic = "sfsel".toList then some .sfsel
  else if mnemonic = "gate".toList then some .gate
  else none

/-- A command with an operand. -/
def asmOperand (mnemonic tok : List Char) : Except AsmError Instr :=
  if mnemonic = "setup".toList then
    withOperand (selectionNames.lookup tok) fun v => .setup (BitVec.ofNat 2 v)
  else if mnemonic = "rdalloc".toList then
    withOperand (operandBelow 32 tok) fun v => .rdalloc (BitVec.ofNat 5 v)
  else if mnemonic = "rdscf".toList then
    withOperand (operandBelow 32 tok) fun v => .rdscf (BitVec.ofNat 5 v)
  else if mnemonic = "rdsmp".toList then
    withOperand (operandBelow 32 tok) fun v => .rdsmp (BitVec.ofNat 5 v)
  else if mnemonic = "put".toList then
    withOperand (operandBelow 32 tok) fun v => .put (BitVec.ofNat 5 v)
  else if mnemonic = "calc".toList then
    withOperand (operandBelow 2 tok) fun v => .calcPcm (BitVec.ofNat 1 v)
  else if mnemonic = "rdcsr".toList then
    withOperand ((csrNames.lookup tok).or (operandBelow 16 tok)) fun v => .rdcsr (BitVec.ofNat 4 v)
  else .error .unknownMnemonic

/-- One line of assembler text: no command (blank or comment), a command, or an error (R82). -/
def assemble (line : List Char) : Except AsmError (Option Instr) :=
  match tokens line with
  | [] => .ok none
  | [m] =>
    match asmPlain m with
    | some i => .ok (some i)
    | none => .error .unknownMnemonic
  | [m, tok] => (asmOperand m tok).map some
  | _ => .error .badOperand

end Sys2Proof.Machine
end

