-- ==== Sys2Proof/Machine/Sequence.lean ====
section
/-! DEFINITION. The pseudo-instructions of spec/30_encoding.md rule R83 and the host's frame sequence `decodeframe` (spec/45_frame_sequence.md rules R172 to R174): not commands of the block, but the order in which a host issues them. -/

namespace Sys2Proof.Machine

/-- The indices 0 .. n-1 of a pass, as operands (R83, R172). For `n > 32` neither rule says what a pass is, and 32 is
no operand (R82): there the index wraps modulo 32 (DESIGN CHOICE, notes/assumptions/20.md; `decodeframe` never gets
there, because FRAME raises CFG first, R193). -/
def passIndices (n : Nat) : List (BitVec 5) := (List.range n).map (BitVec.ofNat 5)

/-- `allocpass n` (R172). -/
def allocpass (n : Nat) : List Instr := (passIndices n).map .rdalloc

/-- `scfpass n` (R172). -/
def scfpass (n : Nat) : List Instr := (passIndices n).map .rdscf

/-- `readpass n` (R172). -/
def readpass (n : Nat) : List Instr := (passIndices n).map .rdsmp

/-- `writepass n` (R172). -/
def writepass (n : Nat) : List Instr := (passIndices n).map .put

/-- `synth need2` (R173). -/
def synth (need2 : Bool) : List Instr := if need2 then [.calcPcm 0, .calcPcm 1] else [.calcPcm 0]

/-- The response to the last command. -/
def lastResponse (s : State) : BitVec 4 × Word32 := s.env.responses.getLastD (0, 0)

/-- Bit 0 of the last response's value: the result of a pass (R172). After a pass of no commands, which has no result
and is never used, it is that of the response before (DESIGN CHOICE, notes/assumptions/20.md). -/
def lastBit (s : State) : Bool := (lastResponse s).2.getLsbD 0

/-- Issue commands one after another: "If any response has `err != 0` the host stops" (R174), here
with the state it stopped in. -/
def issueAll : List Instr → State → Except State State
  | [], s => .ok s
  | i :: rest, s =>
    match exec i s with
    | .next t => if (lastResponse t).1 = 0#4 then issueAll rest t else .error t
    | .fault _ => .error s
    | .refused _ => .error s

/-- The inner (write) cycle of R174: "repeat w <- writepass n; synth need2 until w = 1", at most `fuel` times. -/
def innerCycle (n : Nat) (need2 : Bool) : Nat → State → Except State State
  | 0, s => .error s
  | fuel + 1, s =>
    match issueAll (writepass n) s with
    | .error t => .error t
    | .ok t =>
      let w := lastBit t
      match issueAll (synth need2) t with
      | .error t => .error t
      | .ok t => if w then .ok t else innerCycle n need2 fuel t

/-- The outer (read) cycle of R174: "repeat r <- readpass n; (inner cycle) until r = 1". -/
def outerCycle (n : Nat) (need2 : Bool) : Nat → State → Except State State
  | 0, s => .error s
  | fuel + 1, s =>
    match issueAll (readpass n) s with
    | .error t => .error t
    | .ok t =>
      let r := lastBit t
      match innerCycle n need2 (fuel + 1) t with
      | .error t => .error t
      | .ok t => if r then .ok t else outerCycle n need2 fuel t

/-- `decodeframe` (R174): one frame as the host drives it. The host knows the selection it gave to SETUP
(here read off CHSEL, which SETUP latched) and reads the count and the mode from the header. -/
def decodeframe (fuel : Nat) (s : State) : Except State State :=
  let n := s.env.header.n.toNat
  let need2 := decide (s.chsel = .both) && decide (channelMode s.env.header.mode ≠ .singleChannel)
  match issueAll ([.frame] ++ allocpass n ++ [.sfsel, .gate]) s with
  | .error t => .error t
  | .ok t =>
    if lastBit t = false ∨ n = 0 then .ok t
    else
      match issueAll (scfpass n) t with
      | .error t => .error t
      | .ok t => outerCycle n need2 fuel t

end Sys2Proof.Machine
end

