-- ==== Sys2Proof/Tests/Slice0.lean ====
section
/-! SUPPORT. Tests: the WellFormed smoke, words written out from the spec's encodings, at most two small tests for each command (expected values from spec/95_test_vectors.md, whose vector is named), and for each obligation with hypotheses a witness that meets them. -/

namespace Sys2Proof.Tests

open Sys2Proof Sys2Proof.Machine Sys2Proof.Claims

/-! ### The toy configuration `Cfg_T` (95_test_vectors.md section 2) -/

def toyNum : Numerics where
  one := ⟨1⟩
  add := fun a b => ⟨a.code + b.code⟩
  mul := fun a b => ⟨a.code * b.code⟩
  neg := fun a => ⟨-a.code⟩
  dequant := fun _ a q => ⟨(q : Int) + 1 - 2 ^ a⟩
  scf := fun s => ⟨64 - (s : Int)⟩
  iw := fun c _ => if c = 0 then ⟨1⟩ else ⟨3⟩
  matrix := fun i k => if i = k then ⟨1⟩ else if i = k + 32 then ⟨2⟩ else ⟨0⟩
  window := fun i => ⟨(i : Int) + 1⟩
  toPcm := fun v => max (-32768) (min 32767 v.code)
  add_assoc := fun a b c => by simp [Int.add_assoc]
  add_comm := fun a b => by simp [Int.add_comm]
  add_zero := fun a => by simp [Val.zero]
  add_neg := fun a => by simp [Val.zero]
  mul_assoc := fun a b c => by simp [Int.mul_assoc]
  mul_comm := fun a b => by simp [Int.mul_comm]
  mul_one := fun a => by simp
  mul_add := fun a b c => by simp [Int.mul_add]
  toPcm_zero := rfl

def toy : Cfg := Cfg.withDefaults toyNum 2 (by decide) (fun v => by simp [toyNum])

/-! ### WellFormed: the one ill-formed term of each check is refused (R77, R79) -/

theorem test_wellformed_refuses_chsel_3 : (Instr.setup 3).wellFormed = false := by decide
theorem test_wellformed_accepts_right : (Instr.setup 2).wellFormed = true := by decide

/-! ### Decoding: words written out bit by bit from R71 to R77 -/

theorem test_decode_nop : (decode 0b0000000000000000#16).toOption = some .nop := by decide
theorem test_decode_setup : (decode 0b0001000000000010#16).toOption = some (.setup 2) := by decide
theorem test_decode_frame : (decode 0b0010000000000000#16).toOption = some .frame := by decide
theorem test_decode_rdalloc : (decode 0b0011000000011111#16).toOption = some (.rdalloc 31) := by decide
theorem test_decode_sfsel : (decode 0b0100000000000000#16).toOption = some .sfsel := by decide
theorem test_decode_gate : (decode 0b0101000000000000#16).toOption = some .gate := by decide
theorem test_decode_rdscf : (decode 0b0110000000000101#16).toOption = some (.rdscf 5) := by decide
theorem test_decode_rdsmp : (decode 0b0111000000010000#16).toOption = some (.rdsmp 16) := by decide
theorem test_decode_put : (decode 0b1000000000001010#16).toOption = some (.put 10) := by decide
theorem test_decode_calc : (decode 0b1001000000000001#16).toOption = some (.calcPcm 1) := by decide
theorem test_decode_rdcsr : (decode 0b1010000000001001#16).toOption = some (.rdcsr 9) := by decide
/-- V-E3, V-E4, V-E6, V-E8, V-E12, V-E14, V-E15 -/
theorem test_decode_refuses :
    [0x1003#16, 0x1004#16, 0x2800#16, 0x3020#16, 0x9002#16, 0xA010#16, 0xB000#16, 0xC123#16, 0xFFFF#16].all
      (fun w => (decode w).toOption.isNone) = true := by decide
/-- the words of R82 -/
theorem test_encode : [Instr.nop, .setup 1, .rdalloc 5, .put 31, .calcPcm 0, .rdcsr 15].map encode =
    [0x0000#16, 0x1001#16, 0x3005#16, 0x801F#16, 0x9000#16, 0xA00F#16] := by decide
theorem test_table_word : decodeTableWord 16 0x6005 = some (.rdscf 5) := by decide

/-! ### The assembler (R82) and the host's sequences (R172, R173) -/

theorem test_assemble : (assemble "put 0x1f ; last".toList).toOption = some (some (.put 31)) := by decide
theorem test_assemble_refuses : (assemble "calc 2".toList).toOption = none := by decide
theorem test_allocpass : allocpass 2 = [.rdalloc 0, .rdalloc 1] := by decide
theorem test_synth : synth true = [.calcPcm 0, .calcPcm 1] ∧ synth false = [.calcPcm 0] := by decide

/-! ### States to start from -/

/-- The state of an outcome (the reset state where there is none). -/
def after (o : Host.Outcome State Fault Refusal) : State :=
  match o with
  | .next t => t
  | .fault _ => State.reset
  | .refused _ => State.reset

/-- A configured block in a phase, at an index, with a count, and this stream in front of it. -/
def at_ (p : Phase) (i : BitVec 5) (n : BitVec 6) (bits : List Bool) : State :=
  { State.reset with
    conf := true, phase := p, idx := i, n := n, gateok := true, wrlast := true, mode := 3
    env := { Env.empty with bits := bits } }

/-- Slot `k` of a state, replaced. -/
def withSlot (s : State) (k : BitVec 5) (tag : Tag) (alloc scf : Vector Nat 2) (buf : Vector Val 2) (cnt : BitVec 4) :
    State :=
  s.setSlot k { tag := tag, alloc := alloc, scf := scf, buf := buf, cnt := cnt }

/-- The bits of a string. -/
def bits (x : String) : List Bool := x.toList.map (· == '1')

/-- The last response. -/
def resp (s : State) : BitVec 4 × Word32 := lastResponse s

/-! ### Commands -/

/-- V-F10 -/
theorem test_nop : (after (exec .nop (at_ .read 7 8 []))).phase = .read ∧
    resp (after (exec .nop (at_ .read 7 8 []))) = (0, 0) := by decide
/-- V-F4: the fault record as read back -/
theorem test_rdcsr_fault : resp (after (exec (.rdcsr 3) (illegalWord 0xB000#16 (at_ .idle 0 0 [])))) =
    (0, 0xB0000011) := by decide
/-- V-FC6: STATUS 0x801 after GATE of an empty frame -/
theorem test_rdcsr_status : csr 2 { at_ .idle 0 0 [] with wrlast := false } = 0x00000801 := by decide
/-- V-FC1 -/
theorem test_setup : csr 1 (after (exec (.setup 1) State.reset)) = 0x5 ∧
    (after (exec (.setup 1) State.reset)).phase = .idle := by decide
/-- V-F3: a second SETUP, FAULT 0x10010012 -/
theorem test_setup_twice : csr 3 (after (exec (.setup 1) (at_ .idle 0 0 []))) = 0x10010012 := by decide

/-- An idle block with a header at the port. -/
def withHeader (n : BitVec 6) (mode : BitVec 2) (bound : BitVec 6) : State :=
  { at_ .idle 0 0 [] with env := { Env.empty with header := ⟨n, mode, bound, false⟩ } }

/-- V-FC5: MODE 2, BOUND ignored, FRAMEINFO 0x84 -/
theorem test_frame : csr 4 (after (exec .frame (withHeader 4 2 7))) = 0x00000084 ∧
    ((after (exec .frame (withHeader 4 2 7))).slot 3).tag = .stereo ∧
    ((after (exec .frame (withHeader 4 2 7))).slot 4).tag = .none := by decide
/-- V-FC8: FAULT 0x20000013 -/
theorem test_frame_cfg : csr 3 (after (exec .frame (withHeader 4 1 5))) = 0x20000013 := by decide
/-- V-FC10 -/
theorem test_sfsel : (after (exec .sfsel (at_ .sfsel 0 2 (bits "1")))).phase = .gate ∧
    (after (exec .sfsel (at_ .sfsel 0 2 (bits "1")))).env.bits = [true] := by decide
/-- V-FC13: a closed gate -/
theorem test_gate_closed : (after (exec .gate { at_ .gate 0 2 [] with crcen := true })).phase = .idle ∧
    resp (after (exec .gate { at_ .gate 0 2 [] with crcen := true })) = (0, 0) := by decide
/-- V-FC11: no accumulator, gate open whatever CKVALID -/
theorem test_gate_open : (after (exec .gate (at_ .gate 0 2 []))).phase = .scf ∧
    resp (after (exec .gate (at_ .gate 0 2 []))) = (0, 1) := by decide

/-- V-R2: [1, 2] read from 0001 0010 -/
theorem test_rdalloc : ((after (execRdallocWith toy 0 (withSlot (at_ .alloc 0 1 (bits "00010010")) 0 .stereo
    #v[0, 0] #v[0, 0] #v[⟨0⟩, ⟨0⟩] 0))).slot 0).alloc = #v[1, 2] := by decide
/-- V-R3: FAULT 0x30000025 (FMT), with the illegal code stored and logged -/
theorem test_rdalloc_fmt :
    let t := after (execRdallocWith toy 0 { withSlot (at_ .alloc 0 2 (bits "11110000")) 0 .mono
      #v[0, 0] #v[0, 0] #v[⟨0⟩, ⟨0⟩] 0 with crcen := true })
    csr 3 t = 0x30000025 ∧ (t.slot 0).alloc = #v[15, 0] ∧ t.env.crclog = [(15, 4)] ∧ t.env.bits.length = 4 := by decide
/-- V-R6: alloc = [3, 0], scf = [3, 0], 6 bits -/
theorem test_rdscf :
    let t := after (execRdscfWith toy 2 (withSlot (at_ .scf 2 3 (bits "000011")) 2 .stereo
      #v[3, 0] #v[0, 0] #v[⟨0⟩, ⟨0⟩] 0))
    (t.slot 2).scf = #v[3, 0] ∧ t.phase = .read ∧ t.idx = 0 ∧ t.env.bits = [] := by decide
/-- V-R8: INTENSITY reads exactly one index -/
theorem test_rdscf_intensity :
    let t := after (execRdscfWith toy 1 (withSlot (at_ .scf 1 3 (bits "0001101")) 1 .intensity
      #v[3, 0] #v[0, 0] #v[⟨0⟩, ⟨0⟩] 0))
    (t.slot 1).scf = #v[6, 0] ∧ t.phase = .scf ∧ t.idx = 2 ∧ t.env.bits = [true] := by decide
/-- V-R12: buf = [0, 180], 5 bits -/
theorem test_rdsmp :
    let t := after (execRdsmpWith toy 0 (withSlot (at_ .read 0 1 (bits "01110")) 0 .stereo
      #v[1, 2] #v[0, 4] #v[⟨7⟩, ⟨7⟩] 0))
    (t.slot 0).buf = #v[⟨0⟩, ⟨180⟩] ∧ (t.slot 0).cnt = 1 ∧ resp t = (0, 0) ∧ t.env.bits = [] := by decide
/-- V-R11: the last position; buf = -122, cnt back to 0, answer 1 -/
theorem test_rdsmp_last :
    let t := after (execRdsmpWith toy 0 (withSlot (at_ .read 0 1 (bits "001")) 0 .mono
      #v[2, 0] #v[3, 0] #v[⟨0⟩, ⟨0⟩] 1))
    (t.slot 0).buf = #v[⟨-122⟩, ⟨0⟩] ∧ (t.slot 0).cnt = 0 ∧ t.rdlast = true ∧ resp t = (0, 1) := by decide
/-- V-P7: STEREO, CHSEL = RIGHT: S[0][3] = -61 -/
theorem test_put_right :
    let t := after (execPutWith toy 3 { withSlot (at_ .write 3 8 []) 3 .stereo
      #v[2, 2] #v[0, 0] #v[⟨122⟩, ⟨-61⟩] 0 with chsel := .right })
    t.inputAt 0 3 = ⟨-61⟩ ∧ t.inputAt 1 3 = ⟨0⟩ ∧ resp t = (0, 1) := by decide
/-- V-P10: INTENSITY, CHSEL = BOTH: -58 and -174 -/
theorem test_put_intensity :
    let t := after (execPutWith toy 1 (withSlot (at_ .write 1 8 []) 1 .intensity
      #v[3, 0] #v[0, 0] #v[⟨-58⟩, ⟨0⟩] 0))
    t.inputAt 0 1 = ⟨-58⟩ ∧ t.inputAt 1 1 = ⟨-174⟩ := by decide
/-- V-S2: entry 3 of the block is 488, the history holds 122 and 244, the input is cleared -/
theorem test_calc :
    let t := after (execCalcWith toy 0 ((at_ .calc0 0 8 []).inject 0 3 ⟨122⟩))
    t.inputAt 0 3 = ⟨0⟩ ∧ entry (t.filter 0).hist 3 = ⟨122⟩ ∧ entry (t.filter 0).hist 35 = ⟨244⟩ ∧
      (t.env.sink.map fun x => (x.1, x.2[3])) = [(0, 488)] := by decide +kernel
/-- V-F7: CALC 1 when the second filter is not needed, FAULT 0x90010062 -/
theorem test_calc_unneeded : csr 3 (after (exec (.calcPcm 1) (at_ .read 0 1 []))) = 0x90010062 := by decide

/-- V-FC6: an empty frame driven by `decodeframe`: three commands, no bits read, gate open -/
theorem test_decodeframe_empty :
    (match decodeframe 1 { withHeader 0 0 0 with wrlast := false } with
      | .ok t => (t.phase, t.idx, t.env.responses, t.env.bitsConsumed)
      | .error _ => (.faulted, 0, [], 0)) = (.idle, 0, [(0, 0), (0, 0), (0, 1)], 0) := by decide

/-- R43, R41: reset leaves the block waiting for SETUP. -/
theorem test_reset : State.reset.phase = .unconf ∧ (State.reset.slot 31).tag = .none := by decide
/-- A word of the table runs as the next step. -/
theorem test_step_fetch_word : (after (step (State.reset.withFetchWord 16 0x1002))).chsel = .right := by decide
/-- V-F8: the sticky answer -/
theorem test_sticky : resp (after (exec (.put 0) (takeFault .eod 0x3000#16 (at_ .alloc 0 1 [])))) = (4, 0) := by decide

/-! ### Witnesses: for each obligation with hypotheses, a concrete state and operands that meet them

Each theorem is named after its obligation; one with several clauses has a witness for each. -/

/-- A mono frame of one band in a phase: every invariant can be read off it. -/
def frameOf (p : Phase) (bits : List Bool) : State :=
  { at_ p 0 1 bits with sb := initSlots 1 3 0 }

theorem seqInv_frameOf (p : Phase) (bits : List Bool) (h : p = .alloc ∨ p = .scf ∨ p = .read ∨ p = .write ∨ p = .calc0 ∨ p = .faulted) :
    SeqInv (frameOf p bits) := by
  rcases h with rfl | rfl | rfl | rfl | rfl | rfl <;> constructor <;> simp [frameOf, at_, State.reset, Phase.takesIndex, Phase.afterGate]

theorem faultInv_frameOf (p : Phase) (bits : List Bool) (h : p ≠ .faulted) : FaultInv (frameOf p bits) := by
  constructor <;> simp [frameOf, at_, State.reset, h]

theorem slot_frameOf (p : Phase) (bits : List Bool) (k : BitVec 5) :
    (frameOf p bits).slot k = initSlot (variant k.toNat 1 3 0) := by
  simp [frameOf, State.slot, initSlots]

theorem slotInv_frameOf (bits : List Bool) : SlotInv Config.cfg (frameOf .alloc bits) := by
  have hspf := Config.cfg.spf_range
  have hz : ∀ c : Channel, (Vector.replicate 2 0 : Vector Nat 2)[c.val] = 0 := by decide
  have hv : ∀ c : Channel, (Vector.replicate 2 Val.zero)[c.val] = Val.zero := by decide
  intro k
  constructor
  · rw [slot_frameOf]; rfl
  · intro c; rw [slot_frameOf]; simp [initSlot]
  · intro c; rw [slot_frameOf]; simp [initSlot]
  · rw [slot_frameOf]; simp [initSlot]; omega
  · intro c _; rw [slot_frameOf]; exact hz c
  · intro c _; rw [slot_frameOf]; exact ⟨hz c, hv c⟩
  · rintro (h | h)
    · simp [frameOf, at_, Phase.allocated, Phase.afterGate] at h
    · simp [frameOf, at_] at h
  · intro _ _ c; rw [slot_frameOf]; exact hz c

theorem inputAt_frameOf (p : Phase) (bits : List Bool) (f : FilterNo) (k : BitVec 5) :
    (frameOf p bits).inputAt f k = Val.zero := by
  simp [frameOf, at_, State.inputAt, State.filter, State.reset, SynFilter.fresh]

theorem filterInv_frameOf (p : Phase) (bits : List Bool) : FilterInv (frameOf p bits) := by
  constructor <;> intros <;> exact inputAt_frameOf ..

theorem lockInv_frameOf (bits : List Bool) : LockInv Config.cfg (frameOf .alloc bits) := by
  constructor
  · intro _ k; rw [slot_frameOf]; rfl
  · simp [frameOf, at_]
  · simp [frameOf, at_]

/-- A read of zeros gives 0. -/
theorem bitsVal_zeros (n : Nat) : bitsVal (List.replicate n false) = 0 := by
  induction n with
  | zero => rfl
  | succ n ih => rw [List.replicate_succ, bitsVal_cons, ih]; simp

/-- A one-slot state whose slot has this tag, allocation and counter. -/
def oneSlot (p : Phase) (tag : Tag) (alloc : Vector Nat 2) (bits : List Bool) : State :=
  withSlot (at_ p 0 1 bits) 0 tag alloc #v[0, 0] #v[Val.zero, Val.zero] 0

theorem witness_DecodeOfEncodeIsTheCommand : (Instr.setup 2).wellFormed = true := rfl

theorem witness_DecodedWordIsTheEncoding : decode 0x1002#16 = .ok (.setup 2) := rfl

theorem witness_StepRunsTheDecodedCommand :
    (∃ (s : State) (w : Word) (rest : List HostMove) (i : Instr), s.pending = .command w :: rest ∧ decode w = .ok i) ∧
    ∃ s : State, s.pending = [] :=
  ⟨⟨State.reset.withFetchWord 16 0x1001, 0x1001#16, [], .setup 1, rfl, rfl⟩, State.reset, rfl⟩

theorem witness_IllegalWordRaisesIll : ∃ (s : State) (w : Word) (rest : List HostMove) (e : DecodeError),
    s.pending = .command w :: rest ∧ decode w = .error e ∧ s.phase ≠ .faulted :=
  ⟨State.reset.withFetchWord 16 0x1003, 0x1003#16, [], .reservedChsel, rfl, rfl, by decide⟩

theorem witness_HostMovesKeepTheDuties :
    (∃ s : State, ∃ bits, s.pending = .setStream bits :: [] ∧ s.phase = .idle) ∧
    (∃ s : State, ∃ h, s.pending = .setHeader h :: [] ∧ s.phase = .alloc) ∧
    (∃ s : State, ∃ v, s.pending = .setCkvalid v :: [] ∧ s.phase = .gate) ∧
    (∃ s : State, ∃ p, s.pending = .setCrc p :: [] ∧ s.phase = .read) ∧
    (∃ s : State, s.pending = .touchCrc :: [] ∧ s.phase = .idle) ∧
    (∃ s : State, s.pending = .consumeSink :: [] ∧ s.phase = .calc1) :=
  ⟨⟨{ frameOf .idle [] with pending := [.setStream [true]] }, _, rfl, rfl⟩,
   ⟨{ frameOf .alloc [] with pending := [.setHeader Env.empty.header] }, _, rfl, rfl⟩,
   ⟨{ frameOf .gate [] with pending := [.setCkvalid true] }, _, rfl, rfl⟩,
   ⟨{ frameOf .read [] with pending := [.setCrc true] }, _, rfl, rfl⟩,
   ⟨{ frameOf .idle [] with pending := [.touchCrc] }, rfl, rfl⟩,
   ⟨{ frameOf .calc1 [] with pending := [.consumeSink] }, rfl, rfl⟩⟩

theorem witness_ResetLeavesTheEnvironment : ∃ (s : State) (rest : List HostMove),
    s.pending = .reset :: rest ∧ s.phase = .faulted ∧ s.env.bits ≠ [] :=
  ⟨{ frameOf .faulted [true] with pending := [.reset] }, [], rfl, rfl, by decide⟩

theorem witness_ResetInputGivesTheTable : ∃ (s : State) (rest : List HostMove),
    s.pending = .reset :: rest ∧ ¬ HasResetValues s :=
  ⟨{ frameOf .faulted [true] with pending := [.reset] }, [], rfl, fun h => absurd h.1 (by decide)⟩

theorem witness_OnlyResetUndoes :
    (∃ s t : State, step s = .next t ∧ s.phase = .faulted ∧ t.phase ≠ .faulted) ∧
    (∃ s t : State, step s = .next t ∧ s.phase ≠ .unconf ∧ t.phase = .unconf) ∧
    (∃ s t : State, step s = .next t ∧ ∃ f, (t.filter f).hist ≠ (s.filter f).hist) := by
  refine ⟨⟨{ frameOf .faulted [] with pending := [.reset] }, _, rfl, rfl, by decide⟩,
    ⟨{ frameOf .idle [] with pending := [.reset] }, _, rfl, by decide, rfl⟩,
    { State.reset.setFilter 0 ⟨Vector.replicate nBand Val.zero, Vector.replicate histLen ⟨1⟩⟩ with pending := [.reset] },
    _, rfl, 0, fun h => ?_⟩
  have h0 := congrArg (fun v => entry v 0) h
  revert h0
  decide

theorem witness_FaultedIsTerminal :
    (∃ (s : State) (w : Word) (rest : List HostMove), s.pending = .command w :: rest ∧ s.phase = .faulted) ∧
    (∃ s t : State, step s = .next t ∧ s.phase = .faulted ∧ ∀ rest, s.pending ≠ .reset :: rest) ∧
    (∃ (s : State) (rest : List HostMove), s.pending = .reset :: rest) :=
  ⟨⟨{ frameOf .faulted [] with pending := [.command 0x8000#16] }, _, _, rfl, rfl⟩,
   ⟨{ frameOf .faulted [] with pending := [.command 0x8000#16] }, _, rfl, rfl, fun rest h => by simp at h⟩,
   ⟨{ frameOf .faulted [] with pending := [.reset] }, [], rfl⟩⟩

theorem witness_WrongPhaseOrIndexRaisesSeq :
    (∃ (i : Instr) (s : State), i.wellFormed = true ∧ s.phase ≠ .faulted ∧ ¬ Accepts s i) ∧
    (∃ (s : State) (k : BitVec 5), SeqInv s ∧ s.phase.takesIndex ∧ s.n.toNat ≤ k.toNat) :=
  ⟨⟨.rdalloc 1, frameOf .alloc [], rfl, by decide, by simp [Accepts, frameOf, at_]⟩,
   ⟨frameOf .alloc [], 1, seqInv_frameOf _ _ (.inl rfl), .inl rfl, by decide⟩⟩

/-- The five clauses: a NOP, a FAULTED block, an illegal word, a command in the wrong phase, an accepted command. -/
theorem witness_ChecksGoInOrder :
    (∃ (s t : State) (w : Word) (rest : List HostMove), s.pending = .command w :: rest ∧ step s = .next t ∧
      decode w = .ok .nop) ∧
    (∃ (s t : State) (w : Word) (rest : List HostMove), s.pending = .command w :: rest ∧ step s = .next t ∧
      s.phase = .faulted) ∧
    (∃ (s t : State) (w : Word) (rest : List HostMove) (e : DecodeError), s.pending = .command w :: rest ∧
      step s = .next t ∧ s.phase ≠ .faulted ∧ decode w = .error e) ∧
    (∃ (s t : State) (w : Word) (rest : List HostMove) (i : Instr), s.pending = .command w :: rest ∧
      step s = .next t ∧ s.phase ≠ .faulted ∧ decode w = .ok i ∧ ¬ Accepts s i) ∧
    (∃ (s t : State) (w : Word) (rest : List HostMove) (i : Instr), s.pending = .command w :: rest ∧
      step s = .next t ∧ s.phase ≠ .faulted ∧ decode w = .ok i ∧ Accepts s i) :=
  ⟨⟨State.reset.withFetchWord 16 0x0000, _, 0x0000#16, [], rfl, rfl, rfl⟩,
   ⟨(frameOf .faulted []).withFetchWord 16 0x0000, _, 0x0000#16, [], rfl, rfl, rfl⟩,
   ⟨State.reset.withFetchWord 16 0xB000, _, 0xB000#16, [], .reservedOpcode 0xB, rfl, rfl, by decide, rfl⟩,
   ⟨State.reset.withFetchWord 16 0x2000, _, 0x2000#16, [], .frame, rfl, rfl, by decide, rfl,
     by simp [Accepts, State.withFetchWord, State.reset]⟩,
   ⟨State.reset.withFetchWord 16 0x1000, _, 0x1000#16, [], .setup 0, rfl, rfl, by decide, rfl,
     by simp [Accepts, State.withFetchWord, State.reset]⟩⟩

theorem witness_FaultRecordIsWrittenOnce : ∃ (i : Instr) (s t : State), exec i s = .next t ∧ t.fcode ≠ s.fcode :=
  ⟨.frame, State.reset, _, rfl, by decide⟩

theorem witness_NopOnlyAnswers : (0x0001#16).extractLsb' 12 4 = 0 ∧ (0x0001#16 : Word) ≠ 0 := by decide

theorem witness_RdcsrReadsTheRegister : 5 ≤ (5 : BitVec 4).toNat ∧ 5 ≤ (15 : BitVec 4).toNat := by decide

theorem witness_SetupLatchesTheSelection :
    (∃ (c : BitVec 2) (sel : ChSel) (s : State), s.phase = .unconf ∧ sel.code = c) ∧
    (∃ (c : BitVec 2) (s : State), c ≠ 3 ∧ s.phase ≠ .unconf ∧ s.phase ≠ .faulted) :=
  ⟨⟨2, .right, State.reset, rfl, rfl⟩, ⟨2, frameOf .idle [], by decide, by decide, by decide⟩⟩

theorem witness_FrameInstantiatesTheSlots : ∃ s : State, s.phase = .idle ∧ s.env.header.n.toNat ≤ 32 ∧
    (s.env.header.mode = 1 ∧ s.env.header.bound.toNat ≤ s.env.header.n.toNat) :=
  ⟨withHeader 32 1 32, rfl, by decide, rfl, by decide⟩

/-- The seven clauses at their boundaries. -/
theorem witness_VariantFollowsTheMode : 4 ≤ 4 ∧ (3 < 4 ∧ (3 : BitVec 2) = 3) ∧ (3 < 4 ∧ (1 : BitVec 2) = 1 ∧ 3 < 4) ∧
    (3 < 4 ∧ (1 : BitVec 2) = 1 ∧ 3 ≤ 3) ∧ (3 < 4 ∧ (2 : BitVec 2) = 2) ∧ (2 : BitVec 2) ≠ 1 := by decide

theorem witness_FrameRaisesCfg :
    (∃ s : State, s.phase = .idle ∧ 32 < s.env.header.n.toNat) ∧
    (∃ s : State, s.phase = .idle ∧ s.env.header.mode = 1 ∧ s.env.header.n.toNat < s.env.header.bound.toNat) :=
  ⟨⟨withHeader 33 3 0, rfl, by decide⟩, ⟨withHeader 4 1 5, rfl, rfl, by decide⟩⟩

theorem witness_SfselOnlyAdvances : (∃ s : State, s.phase = .sfsel) ∧
    ∃ s : State, s.phase ≠ .sfsel ∧ s.phase ≠ .faulted :=
  ⟨⟨frameOf .sfsel [], rfl⟩, ⟨frameOf .gate [], by decide, by decide⟩⟩

theorem witness_GateDecidesTheFrame :
    (∃ (s : State) (ok : Bool), s.phase = .gate ∧ ok = (if s.crcen = false then true else s.env.header.ckvalid)) ∧
    (∃ s : State, s.phase ≠ .gate ∧ s.phase ≠ .faulted) :=
  ⟨⟨frameOf .gate [], true, rfl, rfl⟩, ⟨frameOf .sfsel [], by decide, by decide⟩⟩

theorem allocZero_take (n : Nat) :
    bitsVal ((List.replicate 32 false).take n) = 0 := by
  rw [List.take_replicate, bitsVal_zeros]

theorem witness_RdallocReadsOneCode : ∃ (k : BitVec 5) (s : State) (a : Nat), s.phase = .alloc ∧ k = s.idx ∧
    ((s.slot k).tag = .mono ∨ (s.slot k).tag = .intensity) ∧ Config.cfg.allocBits ≤ s.env.bits.length ∧
    a = bitsVal (s.env.bits.take Config.cfg.allocBits) ∧ Config.cfg.allocLegal a = true := by
  have hb := Config.cfg.allocBits_range
  refine ⟨0, oneSlot .alloc .mono #v[0, 0] (List.replicate 32 false), 0, rfl, rfl, .inl rfl, ?_, ?_,
    Config.cfg.allocLegal_zero⟩
  · show _ ≤ 32; omega
  · exact (allocZero_take _).symm

theorem witness_RdallocReadsTwoCodes : ∃ (k : BitVec 5) (s : State) (a b : Nat), s.phase = .alloc ∧ k = s.idx ∧
    (s.slot k).tag = .stereo ∧ 2 * Config.cfg.allocBits ≤ s.env.bits.length ∧
    a = bitsVal (s.env.bits.take Config.cfg.allocBits) ∧
    b = bitsVal ((s.env.bits.drop Config.cfg.allocBits).take Config.cfg.allocBits) ∧
    Config.cfg.allocLegal a = true ∧ Config.cfg.allocLegal b = true := by
  have hb := Config.cfg.allocBits_range
  refine ⟨0, oneSlot .alloc .stereo #v[0, 0] (List.replicate 32 false), 0, 0, rfl, rfl, rfl, ?_, ?_, ?_,
    Config.cfg.allocLegal_zero, Config.cfg.allocLegal_zero⟩
  · show _ ≤ 32; omega
  · exact (allocZero_take _).symm
  · show 0 = bitsVal (((List.replicate 32 false).drop _).take _)
    rw [List.drop_replicate, List.take_replicate, bitsVal_zeros]

/-- Both clauses under the toy configuration (code 15 is illegal): on channel 0, and on channel 1. -/
theorem witness_RdallocRaisesFmt :
    (∃ (k : BitVec 5) (s : State) (a : Nat), s.phase = .alloc ∧ k = s.idx ∧
      a = bitsVal (s.env.bits.take toy.allocBits) ∧ (s.slot k).tag ≠ .none ∧ toy.allocBits ≤ s.env.bits.length ∧
      toy.allocLegal a = false) ∧
    (∃ (k : BitVec 5) (s : State) (a b : Nat), s.phase = .alloc ∧ k = s.idx ∧
      a = bitsVal (s.env.bits.take toy.allocBits) ∧
      b = bitsVal ((s.env.bits.drop toy.allocBits).take toy.allocBits) ∧ (s.slot k).tag = .stereo ∧
      2 * toy.allocBits ≤ s.env.bits.length ∧ toy.allocLegal a = true ∧ toy.allocLegal b = false) :=
  ⟨⟨0, oneSlot .alloc .mono #v[0, 0] (bits "1111"), 15, rfl, rfl, by decide, by decide, by decide, by decide⟩,
   ⟨0, oneSlot .alloc .stereo #v[0, 0] (bits "00011111"), 1, 15, rfl, rfl, by decide, by decide, rfl, by decide,
     by decide, by decide⟩⟩

theorem witness_RdallocRaisesEod :
    (∃ (k : BitVec 5) (s : State) (a : Nat), s.phase = .alloc ∧ k = s.idx ∧
      a = bitsVal (s.env.bits.take Config.cfg.allocBits) ∧ (s.slot k).tag ≠ .none ∧
      s.env.bits.length < Config.cfg.allocBits) ∧
    (∃ (k : BitVec 5) (s : State) (a : Nat), s.phase = .alloc ∧ k = s.idx ∧
      a = bitsVal (s.env.bits.take Config.cfg.allocBits) ∧ (s.slot k).tag = .stereo ∧
      Config.cfg.allocBits ≤ s.env.bits.length ∧ s.env.bits.length < 2 * Config.cfg.allocBits ∧
      Config.cfg.allocLegal a = true) := by
  have hb := Config.cfg.allocBits_range
  refine ⟨⟨0, oneSlot .alloc .mono #v[0, 0] [], _, rfl, rfl, rfl, by decide, ?_⟩,
    0, oneSlot .alloc .stereo #v[0, 0] (List.replicate Config.cfg.allocBits false), 0, rfl, rfl, ?_, rfl, ?_, ?_,
    Config.cfg.allocLegal_zero⟩
  · show 0 < _; omega
  · show 0 = bitsVal ((List.replicate _ false).take _)
    rw [List.take_replicate, bitsVal_zeros]
  · show _ ≤ (List.replicate _ false).length; simp
  · show (List.replicate _ false).length < _; simp; omega

theorem width_le (s : State) (k : BitVec 5) (c : Channel) (n : Nat) : width s k c n ≤ n := by
  unfold width; split <;> omega

theorem witness_RdscfReadsWhereThereIsData : ∃ (k : BitVec 5) (s : State) (w0 w1 u v : Nat) (scf0 : Vector Nat 2),
    s.phase = .scf ∧ k = s.idx ∧ w0 = width s k 0 Config.cfg.scfBits ∧ w1 = width s k 1 Config.cfg.scfBits ∧
    w0 + w1 ≤ s.env.bits.length ∧ u = bitsVal (s.env.bits.take w0) ∧
    v = bitsVal ((s.env.bits.drop w0).take w1) ∧ HasData s k 0 ∧
    scf0 = (if HasData s k 0 then (s.slot k).scf.set 0 u else (s.slot k).scf) := by
  have hb := Config.cfg.scfBits_range
  refine ⟨0, oneSlot .scf .stereo #v[1, 0] (List.replicate 32 false), _, _, _, _, _, rfl, rfl, rfl, rfl, ?_, rfl, rfl,
    by decide, rfl⟩
  refine Nat.le_trans (Nat.add_le_add (width_le ..) (width_le ..)) ?_
  show _ ≤ 32; omega

theorem witness_RdscfRaisesEod :
    (∃ (k : BitVec 5) (s : State), s.phase = .scf ∧ k = s.idx ∧ HasData s k 0 ∧
      s.env.bits.length < Config.cfg.scfBits) ∧
    (∃ (k : BitVec 5) (s : State) (w0 : Nat), s.phase = .scf ∧ k = s.idx ∧ w0 = width s k 0 Config.cfg.scfBits ∧
      HasData s k 1 ∧ w0 ≤ s.env.bits.length ∧ s.env.bits.length < w0 + Config.cfg.scfBits) := by
  have hb := Config.cfg.scfBits_range
  refine ⟨⟨0, oneSlot .scf .mono #v[1, 0] [], rfl, rfl, by decide, ?_⟩,
    0, oneSlot .scf .stereo #v[1, 1] (List.replicate Config.cfg.scfBits false), Config.cfg.scfBits, rfl, rfl, ?_, ?_, ?_, ?_⟩
  · show 0 < _; omega
  · have h : HasData (oneSlot .scf .stereo #v[1, 1] (List.replicate Config.cfg.scfBits false)) 0 0 :=
      ⟨(by decide : 0 < 2), (by decide : (1 : Nat) ≠ 0)⟩
    exact (if_pos h).symm
  · exact ⟨(by decide : 1 < 2), (by decide : (1 : Nat) ≠ 0)⟩
  · show _ ≤ (List.replicate _ false).length; simp
  · show (List.replicate _ false).length < _; simp; omega

theorem witness_RdsmpDequantisesAndCounts : ∃ (k : BitVec 5) (s : State) (l0 l1 w0 w1 p q : Nat) (buf0 : Vector Val 2)
    (last : Bool), s.phase = .read ∧ k = s.idx ∧
    l0 = Config.cfg.sampleLen k (s.slot k).alloc[0] ∧ l1 = Config.cfg.sampleLen k (s.slot k).alloc[1] ∧
    w0 = width s k 0 l0 ∧ w1 = width s k 1 l1 ∧ w0 + w1 ≤ s.env.bits.length ∧
    p = bitsVal (s.env.bits.take w0) ∧ q = bitsVal ((s.env.bits.drop w0).take w1) ∧ HasData s k 0 ∧
    buf0 = (if HasData s k 0 then (s.slot k).buf.set 0 (Config.cfg.num.mul
      (Config.cfg.num.dequant k (s.slot k).alloc[0] p) (Config.cfg.num.scf (s.slot k).scf[0])) else (s.slot k).buf) ∧
    last = decide ((s.slot k).cnt.toNat + 1 = Config.cfg.spf) := by
  refine ⟨0, oneSlot .read .stereo #v[1, 2] (List.replicate (Config.cfg.sampleLen 0 1 + Config.cfg.sampleLen 0 2) false),
    Config.cfg.sampleLen 0 1, Config.cfg.sampleLen 0 2, _, _, _, _, _, _, rfl, rfl, rfl, rfl, rfl, rfl, ?_, rfl, rfl,
    ⟨(by decide : 0 < 2), (by decide : (1 : Nat) ≠ 0)⟩, rfl, rfl⟩
  refine Nat.le_trans (Nat.add_le_add (width_le ..) (width_le ..)) ?_
  show _ ≤ (List.replicate _ false).length
  simp

/-- Both clauses under the toy configuration. -/
theorem witness_RdsmpRaisesEod :
    (∃ (k : BitVec 5) (s : State), s.phase = .read ∧ k = s.idx ∧ HasData s k 0 ∧
      s.env.bits.length < toy.sampleLen k (s.slot k).alloc[0]) ∧
    (∃ (k : BitVec 5) (s : State) (l0 w0 : Nat), s.phase = .read ∧ k = s.idx ∧
      l0 = toy.sampleLen k (s.slot k).alloc[0] ∧ w0 = width s k 0 l0 ∧ HasData s k 1 ∧
      w0 ≤ s.env.bits.length ∧ s.env.bits.length < w0 + toy.sampleLen k (s.slot k).alloc[1]) :=
  ⟨⟨0, oneSlot .read .mono #v[2, 0] (bits "10"), rfl, rfl, by decide, by decide⟩,
   ⟨0, oneSlot .read .stereo #v[1, 2] (bits "0111"), 2, 2, rfl, rfl, by decide, by decide, by decide, by decide,
     by decide⟩⟩

theorem witness_BitReadIsMostSignificantFirst :
    (∃ s : State, s.env.bits.length < 3) ∧ ∃ s : State, 3 ≤ s.env.bits.length :=
  ⟨⟨frameOf .read (bits "10"), by decide⟩, ⟨frameOf .read (bits "101"), by decide⟩⟩

/-- Every row of the routing table. -/
theorem witness_PutRoutesByTheTable : ∀ (tag : Tag) (sel : ChSel), ∃ (k : BitVec 5) (s : State), s.phase = .write ∧
    k = s.idx ∧ (s.slot k).tag = tag ∧ s.chsel = sel := fun tag sel =>
  ⟨0, { oneSlot .write tag #v[1, 1] [] with chsel := sel }, rfl, rfl, rfl, rfl⟩

theorem witness_CalcComputesOneBlock :
    (∃ s : State, s.phase = (if (0 : BitVec 1) = 0 then Phase.calc0 else .calc1)) ∧
    (∃ s : State, s.phase = (if (1 : BitVec 1) = 0 then Phase.calc0 else .calc1)) :=
  ⟨⟨frameOf .calc0 [], rfl⟩, ⟨frameOf .calc1 [], rfl⟩⟩

/-- The ranges of the clauses at their ends. -/
theorem witness_SynthFollowsTheDirectForm : (64 ≤ 64 ∧ 1023 < 1024) ∧ 63 < 64 ∧ (7 < 8 ∧ 31 < 32) := by decide

theorem witness_SilenceGivesSilence :
    AllZero (Vector.replicate histLen Val.zero) ∧ AllZero (Vector.replicate nBand Val.zero) :=
  ⟨fun i _ => entry_replicate_zero _ i, fun i _ => entry_replicate_zero _ i⟩

theorem witness_FirstBlockOfOneValue : ∃ (h : Vector Val histLen) (x : Vector Val nBand) (k : Nat) (v : Val),
    AllZero h ∧ k < 32 ∧ entry x k = v ∧ v ≠ Val.zero ∧ (∀ i, i < 32 → i ≠ k → entry x i = Val.zero) :=
  ⟨Vector.replicate _ Val.zero, (Vector.replicate _ Val.zero).set 31 ⟨7⟩, 31, ⟨7⟩,
    fun i _ => entry_replicate_zero _ i, by decide, by decide, by decide, fun i hi hne => by
      rw [entry_of_lt _ hi, Vector.getElem_set_ne _ _ (fun e => hne e.symm)]; simp⟩

theorem witness_InputReachesSixteenBlocks :
    (∃ (h : Vector Val histLen) (x : Vector Val nBand) (k m j : Nat) (v : Val), AllZero h ∧ k < 32 ∧ entry x k = v ∧
      v ≠ Val.zero ∧ (∀ i, i < 32 → i ≠ k → entry x i = Val.zero) ∧ m = 7 ∧ m < 8 ∧ j = 31 ∧ j < 32) ∧
    (∃ (xs : List (Vector Val nBand)) (h g : Vector Val histLen), h ≠ g ∧ xs.length = 16) := by
  obtain ⟨h, x, k, v, hh, hk, hx, hv, ho⟩ := witness_FirstBlockOfOneValue
  refine ⟨⟨h, x, k, 7, 31, v, hh, hk, hx, hv, ho, rfl, by decide, rfl, by decide⟩,
    List.replicate 16 (Vector.replicate nBand Val.zero), Vector.replicate histLen Val.zero,
    Vector.replicate histLen ⟨1⟩, fun e => ?_, rfl⟩
  have h0 := congrArg (fun v => entry v 0) e
  revert h0
  decide

theorem witness_SynthIsAdditive : ∃ j, j < 32 := ⟨31, by decide⟩

theorem witness_FiltersDoNotInteract : ∃ (f : BitVec 1) (s s' t t' : State), s ≠ s' ∧ s.phase = calcPhase f ∧
    s'.phase = calcPhase f ∧ s.filter (filterOf f) = s'.filter (filterOf f) ∧ exec (.calcPcm f) s = .next t ∧
    exec (.calcPcm f) s' = .next t' :=
  ⟨0, frameOf .calc0 [], frameOf .calc0 [true], _, _, fun h => absurd (congrArg (fun s => s.env.bits) h) (by decide),
    rfl, rfl, rfl, rfl, rfl⟩

theorem witness_NoSecondWritePass : ∃ (f : BitVec 1) (s t : State), SeqInv s ∧ s.phase = calcPhase f ∧
    exec (.calcPcm f) s = .next t :=
  ⟨0, frameOf .calc0 [], _, seqInv_frameOf _ _ (by simp), rfl, rfl⟩

theorem witness_SecondFilterOnlyWhenNeeded : ∃ s t : State, SeqInv s ∧ s.need2 = false ∧
    exec (.calcPcm 1) s = .next t :=
  ⟨frameOf .calc0 [], _, seqInv_frameOf _ _ (by simp), by decide, rfl⟩

/-- An accepted command, one that is not, and one in FAULTED. -/
theorem witness_SequencerFollowsItsTable :
    (∃ (i : Instr) (s t : State), SeqInv s ∧ i.wellFormed = true ∧ exec i s = .next t ∧ s.phase ≠ .faulted ∧
      Accepts s i) ∧
    (∃ (i : Instr) (s t : State), SeqInv s ∧ i.wellFormed = true ∧ exec i s = .next t ∧ s.phase ≠ .faulted ∧
      ¬ Accepts s i) ∧
    (∃ (i : Instr) (s t : State), SeqInv s ∧ i.wellFormed = true ∧ exec i s = .next t ∧ s.phase = .faulted) :=
  ⟨⟨.put 0, frameOf .write [], _, seqInv_frameOf _ _ (by simp), rfl, rfl, by decide, by simp [Accepts, frameOf, at_]⟩,
   ⟨.put 1, frameOf .write [], _, seqInv_frameOf _ _ (by simp), rfl, rfl, by decide, by simp [Accepts, frameOf, at_]⟩,
   ⟨.frame, frameOf .faulted [], _, seqInv_frameOf _ _ (by simp), rfl, rfl, rfl⟩⟩

theorem witness_HistoryOnlyGrows : ∃ s t : State, s.pending ≠ [] ∧ step s = .next t :=
  ⟨State.reset.withFetchWord 16 0x1001, _, by decide, rfl⟩

/-- SFSEL meets the hypotheses of every clause of the four statements about writers and users. -/
theorem witness_LatchesAndFlagsHaveTheirWriters : ∃ (i : Instr) (s t : State), exec i s = .next t ∧
    (∀ c, i ≠ .setup c) ∧ i ≠ .frame ∧ (∀ k, i ≠ .rdsmp k) ∧ (∀ k, i ≠ .put k) ∧ i ≠ .gate :=
  ⟨.sfsel, frameOf .sfsel [], _, rfl, by simp, by simp, by simp, by simp, by simp⟩

theorem witness_SlotFieldsHaveTheirWriters : ∃ (i : Instr) (s t : State) (j : BitVec 5), exec i s = .next t ∧
    i ≠ .frame ∧ i ≠ .rdalloc j ∧ i ≠ .rdscf j ∧ i ≠ .rdsmp j :=
  ⟨.put 0, frameOf .write [], _, 0, rfl, by simp, by simp, by simp, by simp⟩

theorem witness_FiltersHaveTheirWriters : ∃ (i : Instr) (s t : State) (f : FilterNo) (j : BitVec 5),
    exec i s = .next t ∧ (∀ g, i = .calcPcm g → filterOf g ≠ f) ∧ i ≠ .put j :=
  ⟨.put 0, frameOf .write [], _, 0, 1, rfl, by simp, by decide⟩

theorem witness_PortsHaveTheirUsers : ∃ (i : Instr) (s t : State), exec i s = .next t ∧
    (∀ k, i ≠ .rdalloc k ∧ i ≠ .rdscf k ∧ i ≠ .rdsmp k) ∧ (∀ f, i ≠ .calcPcm f) :=
  ⟨.put 0, frameOf .write [], _, rfl, by simp, by simp⟩

theorem witness_ConsumedBitsAreRecorded : ∃ (i : Instr) (s t : State), exec i s = .next t ∧ s.env.bits ≠ [] :=
  ⟨.put 0, frameOf .write [true], _, rfl, by decide⟩

theorem witness_AddressesFollowTheIndexFormulas : 1023 < 1024 ∧ 32 ≤ 32 ∧ 64 ≤ 64 ∧ 2048 ≤ 2048 := by decide

theorem witness_StepKeepsSequencerInvariant : ∃ s t : State, SeqInv s ∧ FaultInv s ∧ step s = .next t :=
  ⟨{ frameOf .write [] with pending := [.command 0x8000#16] }, _,
    { seqInv_frameOf .write [] (by simp) with }, { faultInv_frameOf .write [] (by decide) with }, rfl⟩

theorem witness_StepKeepsSlotInvariant : ∃ s t : State, SeqInv s ∧ SlotInv Config.cfg s ∧ s.pending = [] ∧
    step s = .next t :=
  ⟨frameOf .alloc [], _, seqInv_frameOf _ _ (by simp), slotInv_frameOf _, rfl, rfl⟩

theorem witness_StepKeepsFilterInvariant : ∃ s t : State, SeqInv s ∧ SlotInv Config.cfg s ∧ FilterInv s ∧
    step s = .next t :=
  ⟨frameOf .alloc [], _, seqInv_frameOf _ _ (by simp), slotInv_frameOf _, filterInv_frameOf _ _, rfl⟩

theorem witness_StepKeepsLockStep : ∃ s t : State, SeqInv s ∧ SlotInv Config.cfg s ∧ LockInv Config.cfg s ∧
    step s = .next t :=
  ⟨frameOf .alloc [], _, seqInv_frameOf _ _ (by simp), slotInv_frameOf _, lockInv_frameOf _, rfl⟩

theorem witness_ExpectedIndexHasASlot : ∃ s : State, SeqInv s ∧ SlotInv Config.cfg s ∧ s.phase.takesIndex :=
  ⟨frameOf .alloc [], seqInv_frameOf _ _ (by simp), slotInv_frameOf _, .inl rfl⟩

theorem witness_ReadWidthsAreInRange : ∃ (i : Instr) (s t : State), SeqInv s ∧ SlotInv Config.cfg s ∧
    exec i s = .next t :=
  ⟨.rdalloc 0, frameOf .alloc [], _, seqInv_frameOf _ _ (by simp), slotInv_frameOf _, rfl⟩

/-- Two bands, the first of which this pass has already read. -/
theorem witness_SlotsAnswerAlike : ∃ (s : State) (k : BitVec 5), SeqInv s ∧ LockInv Config.cfg s ∧ s.phase = .read ∧
    k.toNat < s.idx.toNat := by
  have hspf := Config.cfg.spf_range
  have hm : (1 % Config.cfg.spf) % 16 = 1 % Config.cfg.spf :=
    Nat.mod_eq_of_lt (Nat.lt_of_lt_of_le (Nat.mod_lt _ (by omega)) hspf.2)
  refine ⟨withSlot (at_ .read 1 2 []) 0 .mono #v[0, 0] #v[0, 0] #v[Val.zero, Val.zero]
    (BitVec.ofNat 4 (1 % Config.cfg.spf)), 0, ?_, ?_, rfl, by decide⟩
  · constructor <;> simp [withSlot, at_, State.reset, Phase.takesIndex, Phase.afterGate]
  · constructor
    · simp [withSlot, at_]
    · intro _
      refine ⟨0, by omega, fun k hk => ?_⟩
      have hk2 : k = 0 ∨ k = 1 := by
        have h2 : k.toNat < 2 := hk
        have h3 : k.toNat = 0 ∨ k.toNat = 1 := by omega
        exact h3.imp (fun h => BitVec.eq_of_toNat_eq h) fun h => BitVec.eq_of_toNat_eq h
      rcases hk2 with rfl | rfl
      · simp [withSlot, at_, hm]
      · simp [withSlot, at_, State.slot, State.reset, Slot.afterReset]
    · simp [withSlot, at_]

end Sys2Proof.Tests
end

section
/-! Proofs of the family 00_scope: the step (R6, R70), the record of what the outside saw (R14, R58), the bits taken off the stream (R53), the internal address spaces (R50). -/

namespace Sys2Proof.Machine

/-! ### What a step can do -/

/-- A step takes the queue's first move, or finds no move and waits. -/
theorem step_cases {s t : State} (h : step s = .next t) :
    (s.pending = [] ∧ t = s) ∨
    ∃ m rest, s.pending = m :: rest ∧ runMove m { s with pending := rest } = .next t := by
  unfold step at h
  split at h
  · exact .inl ⟨‹_›, by cases h; rfl⟩
  · exact .inr ⟨_, _, ‹_›, h⟩

theorem step_of_pending_nil {s : State} (h : s.pending = []) : step s = .next s := by
  simp only [step, h]

theorem step_of_pending_cons {s : State} {m : HostMove} {rest : List HostMove} (h : s.pending = m :: rest) :
    step s = runMove m { s with pending := rest } := by
  simp only [step, h]

theorem runMove_command_of_decode {w : Word} {i : Instr} (h : decode w = .ok i) (s : State) :
    runMove (.command w) s = exec i s := by
  simp only [runMove, runWord, h]

/-- A move of the host runs a command, answers an illegal word, or is none of the block's business
and leaves the record as it was (R198, R221, R228). -/
theorem runMove_cases {m : HostMove} {s t : State} (h : runMove m s = .next t) :
    (∃ i, exec i s = .next t) ∨ (∃ w, t = illegalWord w s) ∨ t.env.history = s.env.history := by
  cases m with
  | command w =>
    simp only [runMove, runWord] at h
    split at h
    · exact .inl ⟨_, h⟩
    · cases h; exact .inr (.inl ⟨w, rfl⟩)
  | reset => cases h; exact .inr (.inr rfl)
  | setStream _ => simp only [runMove, hostSetStream] at h; split at h <;> cases h; exact .inr (.inr rfl)
  | setHeader _ => simp only [runMove, hostSetHeader] at h; split at h <;> cases h; exact .inr (.inr rfl)
  | setCkvalid _ => simp only [runMove, hostSetCkvalid] at h; split at h <;> cases h; exact .inr (.inr rfl)
  | setCrc _ => simp only [runMove, hostSetCrc] at h; split at h <;> cases h; exact .inr (.inr rfl)
  | touchCrc => simp only [runMove, hostTouchCrc] at h; split at h <;> cases h; exact .inr (.inr rfl)
  | consumeSink => cases h; exact .inr (.inr rfl)

/-- Settles O5: both halves are the two equations of `step`. -/
theorem stepRunsTheDecodedCommand : Obligations.StepRunsTheDecodedCommand :=
  ⟨fun _ _ _ _ hp hd => (step_of_pending_cons hp).trans (runMove_command_of_decode hd _),
    fun _ hp => step_of_pending_nil hp⟩

/-! ### What a command does to the environment

A command touches the far ends of the ports in two ways only: it records an event that is no read, or
it takes bits off the stream and records that read. -/

/-- `P` is kept by both ways in which a command touches the environment (R11, R53). -/
structure KeptAtPorts (P : Env → Prop) : Prop where
  record : ∀ (e : Env) (ev : Event), (∀ n v, ev ≠ .bitsRead n v) → P e →
    P { e with history := e.history ++ [ev] }
  read : ∀ (e : Env) (n v : Nat), n ≤ e.bits.length → v < 2 ^ n → P e →
    P { e with bits := e.bits.drop n, history := e.history ++ [.bitsRead n v] }

section
variable {P : Env → Prop} (hP : KeptAtPorts P)
include hP

theorem KeptAtPorts.response {m : State} (h : P m.env) (err : BitVec 4) (val : Word32) :
    P (m.emit (.response err val)).env :=
  hP.record _ _ (fun _ _ => Event.noConfusion) h

theorem KeptAtPorts.takeFault {m : State} (h : P m.env) (f : FaultCode) (cmd : Word) :
    P (takeFault f cmd m).env :=
  hP.record _ _ (fun _ _ => Event.noConfusion) h

theorem KeptAtPorts.rdallocChannel {cfg : Cfg} {k : BitVec 5} {c : Channel} {s : State} (h : P s.env) :
    (rdallocChannel cfg k c s).Sat (fun m => P m.env) (fun m => P m.env) := by
  refine sat_rdallocChannel (fun _ => hP.takeFault h _ _) fun hlen a m ha hm => ?_
  have hread := hP.read _ _ _ hlen ha h
  have hm' : P m.env := by
    subst hm
    cases s.crcen with
    | false => exact hread
    | true => simpa using hP.record _ (.crcAdd a cfg.allocBits) (fun _ _ => Event.noConfusion) hread
  exact ⟨fun _ => hm', fun _ => hP.takeFault (m := m.setAlloc k c a) hm' _ _⟩

theorem KeptAtPorts.rdscfChannel {cfg : Cfg} {k : BitVec 5} {c : Channel} {s : State} (h : P s.env) :
    (rdscfChannel cfg k c s).Sat (fun m => P m.env) (fun m => P m.env) :=
  sat_rdscfChannel (fun _ => h) (fun _ => hP.takeFault h _ _) fun _ hlen _ hv => hP.read _ _ _ hlen hv h

theorem KeptAtPorts.rdsmpChannel {cfg : Cfg} {k : BitVec 5} {c : Channel} {s : State} (h : P s.env) :
    (rdsmpChannel cfg k c s).Sat (fun m => P m.env) (fun m => P m.env) :=
  sat_rdsmpChannel (fun _ => h) (hP.takeFault h _ _) fun _ _ _ _ _ hlen hq => hP.read _ _ _ hlen hq h

end

/-- The sequencer's move at the end of a pass leaves the environment alone (R13). -/
@[simp] theorem advance_env (next : Phase) (s : State) : (advance next s).env = s.env := by
  rw [advance_eq, State.setSeq_env]

/-- Injecting leaves the environment alone (R141). -/
@[simp] theorem injectAll_env (k : BitVec 5) (l : List (FilterNo × Val)) (s : State) :
    (injectAll k l s).env = s.env := by
  rw [injectAll_eq]

/-- What both ways of touching the environment keep, every command keeps. -/
theorem exec_keeps_env {P : Env → Prop} (hP : KeptAtPorts P) {i : Instr} {s t : State}
    (h : exec i s = .next t) (hs : P s.env) : P t.env := by
  have hresp {m : State} (hm : P m.env) := fun err val => hP.response hm err val
  obtain ⟨t', ht', hPt⟩ : ∃ t', exec i s = .next t' ∧ P t'.env := by
    apply exec_sat (D := fun t => P t.env) i s
    case hnop => exact fun _ => hresp hs _ _
    case hcsr => exact fun _ _ => hresp hs _ _
    case hsticky => exact fun _ => hresp hs _ _
    case hill => exact fun _ _ => hP.takeFault hs _ _
    case hseq => exact fun _ _ => hP.takeFault hs _ _
    case hsetup => exact fun _ _ _ _ _ => hresp (m := setSeq ..) hs _ _
    case hframe => exact fun _ _ => sat_frameBody (hP.takeFault hs _ _) fun _ _ => hresp (m := { s with }) hs _ _
    case hsfsel => exact fun _ _ => hresp (m := setSeq ..) hs _ _
    case hgate => exact fun _ _ => hresp (m := setSeq ..) hs _ _
    case hrdalloc =>
      exact fun _ _ _ _ => (sat_forChannels hs fun _ _ _ => hP.rdallocChannel).mono
        (fun m hm => hresp (m := advance .sfsel m) (by simpa using hm) _ _) fun _ hm => hm
    case hrdscf =>
      exact fun _ _ _ _ => (sat_forChannels hs fun _ _ _ => hP.rdscfChannel).mono
        (fun m hm => hresp (m := advance .read m) (by simpa using hm) _ _) fun _ hm => hm
    case hrdsmp =>
      exact fun _ _ _ _ => (sat_forChannels hs fun _ _ _ => hP.rdsmpChannel).mono
        (fun m hm => hresp (m := advance .write _) (by simpa [State.setCnt_eq] using hm) _ _) fun _ hm => hm
    case hput => exact fun _ _ _ _ => hresp (m := advance .calc0 _) (by simpa using hs) _ _
    case hcalc =>
      intro f m _ _ hm
      have hPm : P m.env := by
        rw [calcBody_eq] at hm
        cases hm
        exact hP.record _ _ (fun _ _ => Event.noConfusion) hs
      exact hresp hPm _ _
  rw [ht'] at h
  cases h
  exact hPt

/-! ### The record only grows -/

theorem keptAtPorts_extends (l : List Event) : KeptAtPorts fun e => l <+: e.history where
  record _ _ _ h := h.trans ⟨_, rfl⟩
  read _ _ _ _ _ h := h.trans ⟨_, rfl⟩

theorem exec_history_extends {i : Instr} {s t : State} (h : exec i s = .next t) :
    s.env.history <+: t.env.history :=
  exec_keeps_env (keptAtPorts_extends _) h ⟨[], List.append_nil _⟩

theorem illegalWord_history_extends (w : Word) (s : State) :
    s.env.history <+: (illegalWord w s).env.history := by
  unfold illegalWord
  split
  · exact ⟨_, rfl⟩
  · exact ⟨_, rfl⟩

/-- Settles O45: a command and an illegal word append to the record, and every other move leaves it. -/
theorem historyOnlyGrows : Obligations.HistoryOnlyGrows := by
  intro s t h
  suffices hp : s.env.history <+: t.env.history from hp.imp fun _ => Eq.symm
  obtain ⟨-, rfl⟩ | ⟨m, rest, -, hm⟩ := step_cases h
  · exact ⟨[], List.append_nil _⟩
  · obtain ⟨i, hi⟩ | ⟨w, rfl⟩ | heq := runMove_cases hm
    · exact exec_history_extends (s := { s with pending := rest }) hi
    · exact illegalWord_history_extends w { s with pending := rest }
    · rw [heq]

/-! ### Bits taken and bits recorded -/

/-- An event that is no read counts no bits. -/
theorem bitsConsumed_record {ev : Event} (h : ∀ n v, ev ≠ .bitsRead n v) (e : Env) :
    ({ e with history := e.history ++ [ev] } : Env).bitsConsumed = e.bitsConsumed := by
  cases ev with
  | bitsRead n v => exact absurd rfl (h n v)
  | crcAdd v n => simp [Env.bitsConsumed]
  | sinkAppend f blk => simp [Env.bitsConsumed]
  | response err val => simp [Env.bitsConsumed]

/-- A read of `n` bits counts `n`. -/
theorem bitsConsumed_read (e : Env) (bits : List Bool) (n v : Nat) :
    ({ e with bits := bits, history := e.history ++ [.bitsRead n v] } : Env).bitsConsumed =
      e.bitsConsumed + n := by
  simp [Env.bitsConsumed]

theorem keptAtPorts_bits (total : Nat) :
    KeptAtPorts fun e => e.bitsConsumed + e.bits.length = total where
  record e _ hev h := by rw [bitsConsumed_record hev]; exact h
  read e n v hlen _ h := by
    rw [bitsConsumed_read, List.length_drop]
    omega

/-- Settles O50: a read moves its bits from the stream to the record, and nothing else moves any. -/
theorem consumedBitsAreRecorded : Obligations.ConsumedBitsAreRecorded :=
  fun _ _ _ h => exec_keeps_env (keptAtPorts_bits _) h rfl

/-! ### The address spaces (R50) -/

/-- The array number in an address `len * f + k` (R50). -/
theorem address_div {len k : Nat} (f : Nat) (hk : k < len) : (len * f + k) / len = f := by
  rw [Nat.mul_add_div (Nat.zero_lt_of_lt hk), Nat.div_eq_of_lt hk, Nat.add_zero]

namespace State

variable (s : State)

theorem memRead_one (sp : Space) (i : Nat) : s.memRead sp i 1 = (s.memAt sp i).map fun x => [x] := by
  cases h : s.memAt sp i <;> simp [memRead, h]

theorem memWrite_singleton (sp : Space) (i : Nat) (x : Element) : s.memWrite sp i [x] = s.memPut sp i x := by
  simp [memWrite]

@[simp] theorem filters_getElem? (f : FilterNo) : s.filters[f.val]? = some (s.filter f) := by
  simp [filter]

theorem filters_getElem?_beyond {j : Nat} (hj : 2 ≤ j) : s.filters[j]? = none :=
  Vector.getElem?_eq_none hj

theorem memAt_slot (k : BitVec 5) : s.memAt .slot k.toNat = some (.slot (s.slot k)) := by
  simp [memAt, slot]

theorem memAt_s (f : FilterNo) (k : BitVec 5) :
    s.memAt .s (32 * f.val + k.toNat) = some (.val (s.inputAt f k)) := by
  simp [memAt, address_div f.val k.isLt, Nat.mod_eq_of_lt k.isLt, inputAt]

theorem memAt_vh (f : FilterNo) {i : Nat} (hi : i < 1024) :
    s.memAt .vh (1024 * f.val + i) = some (.val (entry (s.filter f).hist i)) := by
  simp [memAt, address_div f.val hi, Nat.mod_eq_of_lt hi, entry_of_lt _ hi]

/-- Writing an address of the input vectors is `Inject` (R141). -/
theorem memPut_s (f : FilterNo) (k : BitVec 5) (v : Val) :
    s.memPut .s (32 * f.val + k.toNat) (.val v) = some (s.inject f k v) := by
  simp [memPut, address_div f.val k.isLt, Nat.mod_eq_of_lt k.isLt, inject, f.isLt]

theorem memAt_slot_beyond {i : Nat} (hi : 32 ≤ i) : s.memAt .slot i = none := by
  simp [memAt, hi]

theorem memAt_s_beyond {i : Nat} (hi : 64 ≤ i) : s.memAt .s i = none := by
  have hdiv : 2 ≤ i / nBand := Nat.div_le_div_right (c := 32) hi
  rw [memAt, filters_getElem?_beyond s hdiv, Option.bind_none]

theorem memAt_vh_beyond {i : Nat} (hi : 2048 ≤ i) : s.memAt .vh i = none := by
  have hdiv : 2 ≤ i / histLen := Nat.div_le_div_right (c := 1024) hi
  rw [memAt, filters_getElem?_beyond s hdiv, Option.bind_none]

end State

/-- Settles O51: quotient and remainder of an address by the length of its array give back the filter
and the index it was made from. -/
theorem addressesFollowTheIndexFormulas : Obligations.AddressesFollowTheIndexFormulas := by
  intro s f
  refine ⟨fun k => ?_, fun k => ?_, fun i hi => ?_, fun k v => ?_, fun i => ⟨fun hi => ?_, fun hi => ?_, fun hi => ?_⟩⟩
  · rw [State.memRead_one, State.memAt_slot]; rfl
  · rw [State.memRead_one, State.memAt_s]; rfl
  · rw [State.memRead_one, State.memAt_vh s f hi]; rfl
  · rw [State.memWrite_singleton, State.memPut_s]
  · rw [State.memRead_one, State.memAt_slot_beyond s hi]; rfl
  · rw [State.memRead_one, State.memAt_s_beyond s hi]; rfl
  · rw [State.memRead_one, State.memAt_vh_beyond s hi]; rfl

end Sys2Proof.Machine
end

section
/-! The family 10_state, what a command can do to the block: `Effect` lists the states a command can leave, environment
apart, and `ends_of_exec` and `step_keeps` bring every command and every step down to it. -/

namespace Sys2Proof.Machine

open Sys2Proof.Claims

/-- The channel loop, channel by channel: `G c` is what holds before channel `c` (R110). -/
theorem sat_forChannels_upto {n : Nat} {body : Channel → State → CmdFlow} {s : State} {G : Nat → State → Prop}
    {D : State → Prop} (hn : n ≤ 2) (h0 : G 0 s)
    (hbody : ∀ (c : Channel) (t : State), c.val < n → G c.val t → (body c t).Sat (G (c.val + 1)) D) :
    (forChannels n body s).Sat (G n) D := by
  obtain rfl | rfl | rfl : n = 0 ∨ n = 1 ∨ n = 2 := by omega
  · exact h0
  · rw [forChannels_one]
    exact hbody 0 s (by decide) h0
  · rw [forChannels_two]
    exact (hbody 0 s (by decide) h0).andThen fun t ht => hbody 1 t (by decide) ht

theorem Tag.nch_le_two (t : Tag) : t.nch ≤ 2 := by cases t <;> decide

/-- `Advance` in terms of the words the statements use for a pass (R13). -/
theorem advance_eq_pass (next : Phase) (s : State) :
    advance next s = setSeq (passPhase s s.phase next) (passIdx s) s := advance_eq next s

/-- The phase after `calc f`: CALC1 if the second filter is wanted and still to come, else as `AfterPass` says (R143,
R146). -/
def calcNext (f : BitVec 1) (s : State) : Phase :=
  if f = 0#1 ∧ s.need2 = true then .calc1
  else if s.wrlast = false then .write else if s.rdlast = false then .read else .idle

/-- Filter `f` after its CALC: the new history, and the input vector cleared (R144, R145). -/
def State.clearInput (s : State) (f : FilterNo) (hist : Vector Val histLen) : State :=
  s.setFilter f { input := Vector.replicate nBand Val.zero, hist := hist }

theorem calcBody_eq_clearInput (cfg : Cfg) (f : BitVec 1) (s : State) :
    ∃ e, calcBody cfg f s = .go { setSeq (calcNext f s) 0 (s.clearInput (filterOf f)
      (synthHist cfg.num (s.filter (filterOf f)).hist (s.filter (filterOf f)).input)) with env := e } :=
  ⟨_, calcBody_eq cfg f s⟩

/-- What FRAME writes with a valid header (R93). -/
theorem startFrame_eq (s : State) : startFrame s = { s with
    n := s.env.header.n, mode := s.env.header.mode,
    bound := if s.env.header.mode = 1#2 then s.env.header.bound else 0#6,
    crcen := s.env.crcPresent, rdlast := false, wrlast := false, gateok := false,
    sb := initSlots s.env.header.n.toNat s.env.header.mode s.env.header.bound.toNat,
    phase := if s.env.header.n = 0#6 then .sfsel else .alloc, idx := 0#5 } := rfl

/-- Each channel of `v` holds what it held in `x`, or was written with a value that `Q` allows there. -/
def WrittenWhere {α : Type} (x v : Vector α 2) (Q : Channel → α → Prop) : Prop :=
  ∀ c : Channel, v[c.val] = x[c.val] ∨ Q c v[c.val]

theorem WrittenWhere.refl {α : Type} (x : Vector α 2) (Q : Channel → α → Prop) : WrittenWhere x x Q :=
  fun _ => .inl rfl

theorem WrittenWhere.set {α : Type} {x v : Vector α 2} {Q : Channel → α → Prop} (h : WrittenWhere x v Q) {c : Channel}
    {a : α} (ha : Q c a) : WrittenWhere x (v.set c.val a) Q := by
  intro d
  by_cases hd : c = d
  · subst hd
    exact .inr (by rwa [Vector.getElem_set_self])
  · rw [Vector.getElem_set_ne _ _ fun e => hd (Fin.ext e)]
    exact h d

/-- What slot IDX can hold while a reading command runs, after none, some or all of its channels: RDALLOC writes codes
of channels the slot has, RDSCF and RDSMP write where there is data (R111, R114, R117). -/
inductive SlotRead (s : State) : Instr → Slot → Prop
  | alloc {a : Vector Nat 2} (hphase : s.phase = .alloc)
      (hread : WrittenWhere (s.slot s.idx).alloc a fun c v =>
        c.val < (s.slot s.idx).tag.nch ∧ v < 2 ^ Config.cfg.allocBits) :
      SlotRead s (.rdalloc s.idx) { s.slot s.idx with alloc := a }
  | scf {a : Vector Nat 2} (hphase : s.phase = .scf)
      (hread : WrittenWhere (s.slot s.idx).scf a fun c v =>
        (s.slot s.idx).alloc[c.val] ≠ 0 ∧ v < 2 ^ Config.cfg.scfBits) :
      SlotRead s (.rdscf s.idx) { s.slot s.idx with scf := a }
  | buf {a : Vector Val 2} (hphase : s.phase = .read)
      (hread : WrittenWhere (s.slot s.idx).buf a fun c _ => (s.slot s.idx).alloc[c.val] ≠ 0) :
      SlotRead s (.rdsmp s.idx) { s.slot s.idx with buf := a }

/-- The states a command can leave the block in, as closely as the invariants need: of a fault only that it is none in
FAULTED, and nothing of the environment. -/
inductive Effect (s : State) : Instr → State → Prop
  /-- NOP, RDCSR, and the sticky answer (R161, R162, R197) -/
  | none {i : Instr} (hi : i = .nop ∨ (∃ a, i = .rdcsr a) ∨ s.phase = .faulted) : Effect s i s
  /-- a fault before anything is written (R191, R192, R193) -/
  | fault (i : Instr) {f : FaultCode} {cmd : Word} (hphase : s.phase ≠ .faulted) (hf : f ≠ .none) :
      Effect s i (takeFault f cmd s)
  /-- EOD or FMT, with what the command has written of slot IDX (R112, R194, R195) -/
  | readFault {i : Instr} {f : FaultCode} {cmd : Word} {y : Slot} (hread : SlotRead s i y) (hf : f ≠ .none) :
      Effect s i (takeFault f cmd (s.setSlot s.idx y))
  | setup (c : BitVec 2) (sel : ChSel) (hphase : s.phase = .unconf) :
      Effect s (.setup c) (setSeq .idle 0 { s with chsel := sel, conf := true })
  | frame (hphase : s.phase = .idle) (hn : s.env.header.n.toNat ≤ 32)
      (hbound : s.env.header.mode = 1#2 → s.env.header.bound.toNat ≤ s.env.header.n.toNat) :
      Effect s .frame (startFrame s)
  | sfsel (hphase : s.phase = .sfsel) : Effect s .sfsel (setSeq .gate 0 s)
  | gate (hphase : s.phase = .gate) :
      Effect s .gate (setSeq (if gateOpen s = false ∨ s.n = 0#6 then .idle else .scf) 0
        { s with gateok := gateOpen s })
  | rdalloc {y : Slot} (hphase : s.phase = .alloc) (hread : SlotRead s (.rdalloc s.idx) y)
      (hlegal : ∀ c : Channel, c.val < y.tag.nch → Config.cfg.allocLegal y.alloc[c.val] = true) :
      Effect s (.rdalloc s.idx) (setSeq (passPhase s .alloc .sfsel) (passIdx s) (s.setSlot s.idx y))
  | rdscf {y : Slot} (hphase : s.phase = .scf) (hread : SlotRead s (.rdscf s.idx) y) :
      Effect s (.rdscf s.idx) (setSeq (passPhase s .scf .read) (passIdx s) (s.setSlot s.idx y))
  | rdsmp {y : Slot} (hphase : s.phase = .read) (hread : SlotRead s (.rdsmp s.idx) y) :
      Effect s (.rdsmp s.idx) (setSeq (passPhase s .read .write) (passIdx s)
        { s.setSlot s.idx { y with cnt := nextCnt Config.cfg y } with rdlast := burstDone Config.cfg y })
  | put (hphase : s.phase = .write) :
      Effect s (.put s.idx) (setSeq (passPhase s .write .calc0) (passIdx s)
        { s with
          filters := (injectAll s.idx (route Config.cfg.num (s.slot s.idx) s.chsel s.idx) s).filters, wrlast := true })
  | calcPcm (f : BitVec 1) (hphase : s.phase = calcPhase f) :
      Effect s (.calcPcm f) (setSeq (calcNext f s) 0 (s.clearInput (filterOf f)
        (synthHist Config.cfg.num (s.filter (filterOf f)).hist (s.filter (filterOf f)).input)))

/-- A state is an effect of the command, but for the environment. -/
def Ends (i : Instr) (s t : State) : Prop := ∃ u, Effect s i u ∧ t = { u with env := t.env }

/-- A reading command under way: slot IDX is as `SlotRead` says, and nothing else but the environment has changed. -/
structure Reading (i : Instr) (s m : State) (y : Slot) : Prop where
  read : SlotRead s i y
  rest : ∃ e, m = { s.setSlot s.idx y with env := e }

theorem Reading.refl {i : Instr} {s : State} (h : SlotRead s i (s.slot s.idx)) : Reading i s s (s.slot s.idx) :=
  ⟨h, s.env, by rw [State.setSlot_slot_self]⟩

theorem Reading.ends_fault {i : Instr} {s m : State} {y : Slot} (h : Reading i s m y) {f : FaultCode} (hf : f ≠ .none)
    (cmd : Word) : Ends i s (takeFault f cmd m) := by
  obtain ⟨hread, e, rfl⟩ := h
  exact ⟨_, .readFault hread hf, rfl⟩

theorem Reading.slot_eq {i : Instr} {s m : State} {y : Slot} (h : Reading i s m y) : m.slot s.idx = y := by
  obtain ⟨-, e, rfl⟩ := h
  exact s.slot_setSlot_self s.idx y

theorem Reading.moveEnv {i : Instr} {s m : State} {y : Slot} (h : Reading i s m y) (e : Env) :
    Reading i s { m with env := e } y := by
  obtain ⟨hread, e', rfl⟩ := h
  exact ⟨hread, e, rfl⟩

theorem Reading.setSlot {i : Instr} {s m : State} {y z : Slot} (h : Reading i s m y) (hz : SlotRead s i z) :
    Reading i s (m.setSlot s.idx z) z := by
  obtain ⟨-, e, rfl⟩ := h
  exact ⟨hz, e, by simp [State.setSlot]⟩

theorem Reading.setAlloc {s m : State} {y : Slot} (h : Reading (.rdalloc s.idx) s m y) {c : Channel} {v : Nat}
    (hc : c.val < (s.slot s.idx).tag.nch) (hv : v < 2 ^ Config.cfg.allocBits) :
    Reading (.rdalloc s.idx) s (m.setAlloc s.idx c v) { y with alloc := y.alloc.set c.val v } := by
  rw [State.setAlloc_eq, h.slot_eq]
  refine h.setSlot ?_
  cases h.read with
  | alloc hphase hread => exact .alloc hphase (hread.set ⟨hc, hv⟩)

theorem Reading.setScf {s m : State} {y : Slot} (h : Reading (.rdscf s.idx) s m y) {c : Channel} {v : Nat}
    (ha : y.alloc[c.val] ≠ 0) (hv : v < 2 ^ Config.cfg.scfBits) :
    Reading (.rdscf s.idx) s (m.setScf s.idx c v) { y with scf := y.scf.set c.val v } := by
  rw [State.setScf_eq, h.slot_eq]
  refine h.setSlot ?_
  cases h.read with
  | scf hphase hread => exact .scf hphase (hread.set ⟨ha, hv⟩)

theorem Reading.setBuf {s m : State} {y : Slot} (h : Reading (.rdsmp s.idx) s m y) {c : Channel} (v : Val)
    (ha : y.alloc[c.val] ≠ 0) :
    Reading (.rdsmp s.idx) s (m.setBuf s.idx c v) { y with buf := y.buf.set c.val v } := by
  rw [State.setBuf_eq, h.slot_eq]
  refine h.setSlot ?_
  cases h.read with
  | buf hphase hread => exact .buf hphase (hread.set ha)

theorem SlotRead.tag_eq {s : State} {i : Instr} {y : Slot} (h : SlotRead s i y) : y.tag = (s.slot s.idx).tag := by
  cases h <;> rfl

theorem SlotRead.cnt_eq {s : State} {i : Instr} {y : Slot} (h : SlotRead s i y) : y.cnt = (s.slot s.idx).cnt := by
  cases h <;> rfl

theorem SlotRead.alloc_eq {s : State} {i : Instr} {y : Slot} (h : SlotRead s i y) (hi : i ≠ .rdalloc s.idx) :
    y.alloc = (s.slot s.idx).alloc := by
  cases h with
  | alloc => exact absurd rfl hi
  | scf => rfl
  | buf => rfl

theorem SlotRead.phase_ne_faulted {s : State} {i : Instr} {y : Slot} (h : SlotRead s i y) : s.phase ≠ .faulted := by
  cases h with
  | alloc hphase => simp [hphase]
  | scf hphase => simp [hphase]
  | buf hphase => simp [hphase]

/-- RDALLOC's loop: the codes of the channels before `n` are legal where it goes on (R111, R112). -/
theorem sat_rdallocLoop {s : State} (hphase : s.phase = .alloc) :
    (forChannels (s.slot s.idx).tag.nch (rdallocChannel Config.cfg s.idx) s).Sat
      (fun m => ∃ y, Reading (.rdalloc s.idx) s m y ∧
        ∀ c : Channel, c.val < y.tag.nch → Config.cfg.allocLegal y.alloc[c.val] = true)
      (Ends (.rdalloc s.idx) s) := by
  refine (sat_forChannels_upto (G := fun n m => ∃ y, Reading (.rdalloc s.idx) s m y ∧
    ∀ c : Channel, c.val < n → Config.cfg.allocLegal y.alloc[c.val] = true) (Tag.nch_le_two _)
    ⟨_, .refl (.alloc hphase (.refl _ _)), fun c hc => absurd hc (Nat.not_lt_zero _)⟩
    fun c m hc ⟨y, hm, hlegal⟩ => ?_).mono (fun m ⟨y, hm, hlegal⟩ => ⟨y, hm, hm.read.tag_eq ▸ hlegal⟩) fun _ h => h
  refine sat_rdallocChannel (fun _ => hm.ends_fault (by decide) _) fun _ a m' ha hm' => ?_
  have hset : Reading (.rdalloc s.idx) s (m'.setAlloc s.idx c a) { y with alloc := y.alloc.set c.val a } := by
    rw [hm']
    exact (hm.moveEnv _).setAlloc hc ha
  refine ⟨fun hl => ⟨_, hset, fun d hd => ?_⟩, fun _ => hset.ends_fault (by decide) _⟩
  by_cases hdc : c.val = d.val
  · simpa [hdc] using hl
  · simpa [hdc] using hlegal d (by omega)

theorem sat_rdscfLoop {s : State} (hphase : s.phase = .scf) :
    (forChannels (s.slot s.idx).tag.nch (rdscfChannel Config.cfg s.idx) s).Sat
      (fun m => ∃ y, Reading (.rdscf s.idx) s m y) (Ends (.rdscf s.idx) s) := by
  refine sat_forChannels ⟨_, .refl (.scf hphase (.refl _ _))⟩ fun c m hc ⟨y, hm⟩ => ?_
  refine sat_rdscfChannel (fun _ => ⟨y, hm⟩) (fun _ => hm.ends_fault (by decide) _) fun ha _ v hv =>
    ⟨_, (hm.moveEnv _).setScf (by rwa [hm.slot_eq] at ha) hv⟩

theorem sat_rdsmpLoop {s : State} (hphase : s.phase = .read) :
    (forChannels (s.slot s.idx).tag.nch (rdsmpChannel Config.cfg s.idx) s).Sat
      (fun m => ∃ y, Reading (.rdsmp s.idx) s m y) (Ends (.rdsmp s.idx) s) := by
  refine sat_forChannels ⟨_, .refl (.buf hphase (.refl _ _))⟩ fun c m hc ⟨y, hm⟩ => ?_
  refine sat_rdsmpChannel (fun _ => ⟨y, hm⟩) (hm.ends_fault (by decide) _) fun ha _ _ v _ _ _ =>
    ⟨_, (hm.moveEnv _).setBuf v (by rwa [hm.slot_eq] at ha)⟩

/-- Every command answers, and leaves one of its effects (R170, R196). -/
theorem exec_ends (i : Instr) (s : State) : ∃ t, exec i s = .next t ∧ Ends i s t := by
  apply exec_sat i s
  case hnop => exact fun hi => ⟨s, .none (.inl hi), rfl⟩
  case hcsr => exact fun a hi => ⟨s, .none (.inr (.inl ⟨a, hi⟩)), rfl⟩
  case hsticky => exact fun hphase => ⟨s, .none (.inr (.inr hphase)), rfl⟩
  case hill => exact fun _ hphase => ⟨_, .fault i hphase (by decide), rfl⟩
  case hseq => exact fun hphase _ => ⟨_, .fault i hphase (by decide), rfl⟩
  case hsetup => rintro c sel rfl - hphase; exact ⟨_, .setup c sel hphase, rfl⟩
  case hframe =>
    rintro rfl hphase
    exact sat_frameBody ⟨_, .fault .frame (by simp [hphase]) (by decide), rfl⟩
      fun hn hbound => ⟨_, .frame hphase hn hbound, rfl⟩
  case hsfsel => rintro rfl hphase; exact ⟨_, .sfsel hphase, rfl⟩
  case hgate => rintro rfl hphase; exact ⟨_, .gate hphase, rfl⟩
  case hrdalloc =>
    rintro k rfl hphase rfl
    refine (sat_rdallocLoop hphase).mono (fun m ⟨y, ⟨hread, e, hm⟩, hlegal⟩ => ?_) fun _ h => h
    refine ⟨_, .rdalloc hphase hread hlegal, ?_⟩
    rw [advance_eq_pass, hm, ← hphase]; rfl
  case hrdscf =>
    rintro k rfl hphase rfl
    refine (sat_rdscfLoop hphase).mono (fun m ⟨y, hread, e, hm⟩ => ?_) fun _ h => h
    refine ⟨_, .rdscf hphase hread, ?_⟩
    rw [advance_eq_pass, hm, ← hphase]; rfl
  case hrdsmp =>
    rintro k rfl hphase rfl
    refine (sat_rdsmpLoop hphase).mono (fun m ⟨y, hm⟩ => ?_) fun _ h => h
    have hcnt : m.setCnt s.idx (nextCnt Config.cfg y) =
        { s.setSlot s.idx { y with cnt := nextCnt Config.cfg y } with env := m.env } := by
      rw [State.setCnt_eq, hm.slot_eq]
      obtain ⟨-, e, rfl⟩ := hm
      simp [State.setSlot]
    refine ⟨_, .rdsmp hphase hm.read, ?_⟩
    rw [hm.slot_eq, hcnt, advance_eq_pass, ← hphase]; rfl
  case hput =>
    rintro k rfl hphase rfl
    refine ⟨_, .put hphase, ?_⟩
    rw [advance_eq_pass, injectAll_eq, ← hphase]; rfl
  case hcalc =>
    rintro f m rfl hphase hm
    obtain ⟨e, he⟩ := calcBody_eq_clearInput Config.cfg f s
    rw [he] at hm
    cases hm
    exact ⟨_, .calcPcm f hphase, rfl⟩

/-- What a command's next state is, taken from a run of it. -/
theorem ends_of_exec {i : Instr} {s t : State} (h : exec i s = .next t) : Ends i s t := by
  obtain ⟨t', ht', hend⟩ := exec_ends i s
  rw [ht'] at h
  cases h
  exact hend

/-- A property that does not look at the environment or the queue holds after a step, if it holds in the reset state
and every effect of a command keeps it. An illegal word is taken as the command `setup 3`, which faults like it. -/
theorem step_keeps {P : State → Prop} (hports : ∀ s e q, P s → P { s with env := e, pending := q })
    (hreset : P State.reset) (heffect : ∀ s i u, P s → Effect s i u → P u) {s t : State} (hs : P s)
    (h : step s = .next t) : P t := by
  refine step_sat hs h (fun s q => hports s s.env q) (fun s e => hports s e s.pending)
    (fun s _ => hports _ s.env s.pending hreset)
    (fun s _ hs hphase => heffect s (.setup 3#2) _ hs (.fault _ hphase (by decide))) fun i s hs => ?_
  obtain ⟨t, ht, u, hu, heq⟩ := exec_ends i s
  exact ⟨t, ht, heq ▸ hports u t.env u.pending (heffect _ _ _ hs hu)⟩

end Sys2Proof.Machine
end

section
/-! The family 10_state, who writes what: the fault record (R37), the latches and flags (R32, R33), the slot file (R21
to R26), the filters (R28, R29). -/

namespace Sys2Proof.Machine

open Sys2Proof.Claims

/-- CALC clears its input vector and leaves the other one (R145). -/
theorem inputAt_clearInput (s : State) (f g : FilterNo) (hist : Vector Val histLen) (k : BitVec 5) :
    (s.clearInput f hist).inputAt g k = if g = f then Val.zero else s.inputAt g k := by
  unfold State.inputAt State.clearInput
  rw [State.filter_setFilter]
  split <;> simp

/-- Settles O15: a command that changes the record takes a fault, and none is taken in FAULTED. -/
theorem faultRecordIsWrittenOnce : Obligations.FaultRecordIsWrittenOnce := by
  intro i s t h hne
  obtain ⟨u, hu, ht⟩ := ends_of_exec h
  rw [ht] at hne ⊢
  cases hu with
  | fault _ hphase => exact ⟨hphase, rfl⟩
  | readFault hread => exact ⟨hread.phase_ne_faulted, rfl⟩
  | frame => simp [startFrame_eq] at hne
  | calcPcm => simp [State.clearInput] at hne
  | _ => simp at hne

/-- Settles O46: each effect that writes a latch or a flag is that of its writer. -/
theorem latchesAndFlagsHaveTheirWriters : Obligations.LatchesAndFlagsHaveTheirWriters := by
  intro i s t h
  obtain ⟨u, hu, ht⟩ := ends_of_exec h
  rw [ht]
  cases hu with
  | frame => simp [startFrame_eq]
  | calcPcm => simp [State.clearInput]
  | _ => simp

/-- Slot `j` after command `i`, FRAME apart: each field is kept unless `i` is its writer (R21 to R26). -/
def SlotKept (i : Instr) (j : BitVec 5) (x x' : Slot) : Prop :=
  x'.tag = x.tag ∧ (i ≠ .rdalloc j → x'.alloc = x.alloc) ∧ (i ≠ .rdscf j → x'.scf = x.scf) ∧
    (i ≠ .rdsmp j → x'.buf = x.buf ∧ x'.cnt = x.cnt)

theorem SlotKept.refl (i : Instr) (j : BitVec 5) (x : Slot) : SlotKept i j x x :=
  ⟨rfl, fun _ => rfl, fun _ => rfl, fun _ => ⟨rfl, rfl⟩⟩

theorem SlotRead.kept {s : State} {i : Instr} {y : Slot} (h : SlotRead s i y) :
    SlotKept i s.idx (s.slot s.idx) y := by
  cases h <;> simp [SlotKept]

theorem SlotKept.setSlot {i : Instr} {s : State} {y : Slot} (h : SlotKept i s.idx (s.slot s.idx) y) (j : BitVec 5) :
    SlotKept i j (s.slot j) ((s.setSlot s.idx y).slot j) := by
  rw [State.slot_setSlot]
  split
  · subst j; exact h
  · exact .refl i j _

/-- Settles O47: the reading commands write slot IDX as `SlotRead` says, and no other command but FRAME writes a
slot. -/
theorem slotFieldsHaveTheirWriters : Obligations.SlotFieldsHaveTheirWriters := by
  intro i s t h hframe j
  obtain ⟨u, hu, ht⟩ := ends_of_exec h
  rw [ht]
  change SlotKept i j (s.slot j) (u.slot j)
  cases hu with
  | frame => exact absurd rfl hframe
  | readFault hread => exact hread.kept.setSlot j
  | rdalloc _ hread => exact hread.kept.setSlot j
  | rdscf _ hread => exact hread.kept.setSlot j
  | @rdsmp y _ hread =>
    obtain ⟨htag, halloc, hscf, -⟩ := hread.kept
    exact SlotKept.setSlot (y := { y with cnt := nextCnt Config.cfg y })
      ⟨htag, halloc, hscf, fun hne => absurd rfl hne⟩ j
  | _ => exact .refl _ j _

/-- Settles O48: PUT injects at IDX, and CALC writes its own filter. -/
theorem filtersHaveTheirWriters : Obligations.FiltersHaveTheirWriters := by
  intro i s t h f hcalc
  obtain ⟨u, hu, ht⟩ := ends_of_exec h
  rw [ht]
  cases hu with
  | put => exact ⟨injectAll_hist _ _ _ f, fun j hj => injectAll_inputAt_ne (by rintro rfl; exact hj rfl) _ s f⟩
  | calcPcm g =>
    have hne : f ≠ filterOf g := (hcalc g rfl).symm
    exact ⟨congrArg SynFilter.hist (s.filter_setFilter_ne _ hne),
      fun j _ => (inputAt_clearInput s _ f _ j).trans (if_neg hne)⟩
  | _ => exact ⟨rfl, fun _ _ => rfl⟩

end Sys2Proof.Machine
end

section
/-! The family 10_state, the sequencer (R30, R31, R93, R142) and the fault record (R37, R197). -/

namespace Sys2Proof.Machine

open Sys2Proof.Claims

theorem passPhase_ne {s : State} {here next p : Phase} (hhere : here ≠ p) (hnext : next ≠ p) :
    passPhase s here next ≠ p := by
  unfold passPhase
  split
  · exact hnext
  · exact hhere

theorem calcNext_ne (f : BitVec 1) (s : State) {p : Phase} (hp : p ∉ [Phase.calc1, .write, .read, .idle]) :
    calcNext f s ≠ p := by
  rintro rfl
  revert hp
  unfold calcNext
  repeat' split
  all_goals decide

@[simp] theorem Phase.takesIndex_iff (p : Phase) :
    p.takesIndex ↔ p = .alloc ∨ p = .scf ∨ p = .read ∨ p = .write := Iff.rfl

@[simp] theorem Phase.afterGate_iff (p : Phase) :
    p.afterGate ↔ p = .scf ∨ p = .read ∨ p = .write ∨ p = .calc0 ∨ p = .calc1 := Iff.rfl

theorem calcPhase_cases (f : BitVec 1) : (f = 0#1 ∧ calcPhase f = .calc0) ∨ (f = 1#1 ∧ calcPhase f = .calc1) := by
  revert f; decide

theorem calcPhase_calc {f : BitVec 1} {p : Phase} (h : p = calcPhase f) : p = .calc0 ∨ p = .calc1 :=
  h ▸ (calcPhase_cases f).imp And.right And.right

theorem SeqInv.idx_lt_n {s : State} (h : SeqInv s) (hphase : s.phase.takesIndex) : s.idx.toNat < s.n.toNat := by
  have hn : 0 < s.n.toNat := h.n_pos (by rw [Phase.takesIndex_iff] at hphase; rw [Phase.afterGate_iff]; tauto)
  have hlt := h.idx_lt
  omega

/-- The two rows of a pass: its last index, or an index with another one after it (R13, R170). -/
theorem SeqInv.pass_cases {s : State} (h : SeqInv s) (hphase : s.phase.takesIndex) (here next : Phase) :
    (s.idx.toNat + 1 = s.n.toNat ∧ passPhase s here next = next ∧ passIdx s = 0#5) ∨
    (s.idx.toNat + 1 < s.n.toNat ∧ passPhase s here next = here ∧ (passIdx s).toNat = s.idx.toNat + 1) := by
  have hlt := h.idx_lt_n hphase
  unfold passPhase passIdx
  by_cases hlast : s.idx.toNat + 1 = s.n.toNat
  · simp [hlast]
  · rw [if_neg hlast, if_neg hlast]
    exact .inr ⟨by omega, rfl, toNat_nextIdx h (by omega) hlast⟩

/-- CALC leads to CALC1 if filter 1 is wanted and still to come, else to the next read pass or to the end of the frame:
PUT has set WRLAST, so no write pass follows (R133, R143, R146). -/
theorem SeqInv.calcNext_cases {s : State} (h : SeqInv s) {f : BitVec 1} (hphase : s.phase = calcPhase f) :
    (f = 0#1 ∧ s.need2 = true ∧ calcNext f s = .calc1) ∨
    (¬ (f = 0#1 ∧ s.need2 = true) ∧ s.rdlast = false ∧ calcNext f s = .read) ∨
    (¬ (f = 0#1 ∧ s.need2 = true) ∧ s.rdlast = true ∧ calcNext f s = .idle) := by
  have hw : s.wrlast = true := h.put_done (calcPhase_calc hphase)
  unfold calcNext
  by_cases hmore : f = 0#1 ∧ s.need2 = true
  · simp [hmore]
  · cases hr : s.rdlast <;> simp [hmore, hw]

/-! ### The sequencer's invariant -/

theorem seqInv_reset : SeqInv State.reset := by
  constructor <;> simp [State.reset]

/-- A fault moves to a phase that asks nothing of the latches and flags (R196). -/
theorem SeqInv.fault {s : State} (h : SeqInv s) (f : FaultCode) (cmd : Word) : SeqInv (takeFault f cmd s) :=
  { h with
    idx_zero := fun _ hne => absurd rfl hne
    n_pos := by simp
    calc1_need2 := by simp
    gate_open := by simp
    put_done := by simp
    configured := fun _ hne => absurd rfl hne
    unconfigured := by simp }

/-- What a phase asks of the latches and flags where the sequencer enters it. -/
theorem SeqInv.enter {s : State} (h : SeqInv s) {p : Phase} {i : BitVec 5} (hi : i.toNat < max s.n.toNat 1)
    (hzero : ¬ p.takesIndex → i = 0#5) (hconf : s.conf = true) (hp : p ≠ .unconf)
    (hn : p = .alloc ∨ p.afterGate → 0 < s.n.toNat) (hneed : p = .calc1 → s.need2 = true)
    (hgate : p.afterGate → s.gateok = true) (hput : p = .calc0 ∨ p = .calc1 → s.wrlast = true) :
    SeqInv (setSeq p i s) :=
  { h with
    idx_lt := hi
    idx_zero := fun hp _ => hzero hp
    n_pos := hn
    calc1_need2 := hneed
    gate_open := hgate
    put_done := hput
    configured := fun _ _ => hconf
    unconfigured := fun hu => absurd hu hp }

theorem SeqInv.setup {s : State} (h : SeqInv s) (sel : ChSel) :
    SeqInv (setSeq .idle 0 { s with chsel := sel, conf := true }) :=
  { h with
    idx_lt := by simp
    idx_zero := fun _ _ => rfl
    n_pos := by simp
    calc1_need2 := by simp
    gate_open := by simp
    put_done := by simp
    configured := fun _ _ => rfl
    unconfigured := by simp }

theorem SeqInv.frame {s : State} (hconf : s.conf = true) (hn : s.env.header.n.toNat ≤ 32)
    (hbound : s.env.header.mode = 1#2 → s.env.header.bound.toNat ≤ s.env.header.n.toNat) : SeqInv (startFrame s) := by
  have hpos : s.env.header.n ≠ 0#6 → 0 < s.env.header.n.toNat := by bv_omega
  rw [startFrame_eq]
  constructor
  case n_le => exact hn
  case bound_joint => exact fun hj => if_neg hj
  case bound_le =>
    dsimp only
    split
    · exact hbound ‹_›
    · exact Nat.zero_le _
  case configured => exact fun _ _ => hconf
  all_goals by_cases h0 : s.env.header.n = 0#6 <;> simp [h0, hpos]

theorem SeqInv.gate {s : State} (h : SeqInv s) (hphase : s.phase = .gate) :
    SeqInv (setSeq (if gateOpen s = false ∨ s.n = 0#6 then .idle else .scf) 0 { s with gateok := gateOpen s }) := by
  have hs : SeqInv { s with gateok := gateOpen s } := { h with gate_open := by simp [hphase] }
  have hconf : s.conf = true := h.configured (by simp [hphase]) (by simp [hphase])
  by_cases hend : gateOpen s = false ∨ s.n = 0#6
  · rw [if_pos hend]
    exact hs.enter (by simp) (fun _ => rfl) hconf (by simp) (by simp) (by simp) (by simp) (by simp)
  · rw [if_neg hend]
    obtain ⟨hopen, hn⟩ := not_or.mp hend
    have hpos : 0 < s.n.toNat := by bv_omega
    exact hs.enter (by simp) (fun _ => rfl) hconf (by simp) (fun _ => hpos) (by simp)
      (fun _ => Bool.of_not_eq_false hopen) (by simp)

theorem SeqInv.pass {s : State} (h : SeqInv s) {here next : Phase} (hphase : s.phase = here) (hhere : here.takesIndex)
    (hnext : next = .sfsel ∨ next.afterGate ∧ s.gateok = true) (hcalc1 : next ≠ .calc1)
    (hput : next = .calc0 → s.wrlast = true) : SeqInv (setSeq (passPhase s here next) (passIdx s) s) := by
  subst hphase
  have hunconf : s.phase ≠ .unconf := by rintro e; simp [e] at hhere
  have hfaulted : s.phase ≠ .faulted := by rintro e; simp [e] at hhere
  have hlt := h.idx_lt_n hhere
  have hconf := h.configured hunconf hfaulted
  obtain ⟨-, hp, hi⟩ | ⟨hmore, hp, hi⟩ := h.pass_cases hhere s.phase next
  · rw [hp, hi]
    refine h.enter (by simp) (fun _ => rfl) hconf ?_ (fun _ => by omega) (fun e => absurd e hcalc1) (fun ha => ?_) ?_
    · rintro rfl; simp at hnext
    · obtain rfl | hopen := hnext
      · simp at ha
      · exact hopen.2
    · exact fun e => hput (e.resolve_right hcalc1)
  · rw [hp]
    exact h.enter (by omega) (fun hno => absurd hhere hno) hconf hunconf (fun _ => by omega) h.calc1_need2 h.gate_open
      h.put_done

theorem SeqInv.calc {s : State} (h : SeqInv s) {f : BitVec 1} (hphase : s.phase = calcPhase f) :
    SeqInv (setSeq (calcNext f s) 0 s) := by
  have hcalc := calcPhase_calc hphase
  have hgate : s.phase.afterGate := by rw [Phase.afterGate_iff]; tauto
  have hconf : s.conf = true := h.configured (by rintro e; simp [e] at hgate) (by rintro e; simp [e] at hgate)
  refine h.enter (by simp) (fun _ => rfl) hconf (calcNext_ne f s (by decide)) (fun _ => h.n_pos (.inr hgate)) ?_
    (fun _ => h.gate_open hgate) fun _ => h.put_done hcalc
  obtain ⟨-, hneed, -⟩ | ⟨-, -, e⟩ | ⟨-, -, e⟩ := h.calcNext_cases hphase
  · exact fun _ => hneed
  · simp [e]
  · simp [e]

/-- Every command keeps the sequencer's invariant. -/
theorem SeqInv.effect {i : Instr} {s u : State} (h : SeqInv s) (hu : Effect s i u) : SeqInv u := by
  cases hu with
  | none => exact h
  | fault => exact h.fault _ _
  | readFault => exact SeqInv.fault (s := s.setSlot s.idx _) { h with } _ _
  | setup c sel => exact h.setup sel
  | frame hphase hn hbound => exact .frame (h.configured (by simp [hphase]) (by simp [hphase])) hn hbound
  | sfsel hphase =>
    exact h.enter (by simp) (fun _ => rfl) (h.configured (by simp [hphase]) (by simp [hphase])) (by simp) (by simp)
      (by simp) (by simp) (by simp)
  | gate hphase => exact h.gate hphase
  | rdalloc hphase =>
    exact SeqInv.pass (s := s.setSlot s.idx _) { h with } hphase (by simp) (.inl rfl) (by simp) (by simp)
  | rdscf hphase =>
    exact SeqInv.pass (s := s.setSlot s.idx _) { h with } hphase (by simp)
      (.inr ⟨by simp, h.gate_open (by simp [hphase])⟩) (by simp) (by simp)
  | rdsmp hphase =>
    exact SeqInv.pass (s := { s.setSlot s.idx _ with rdlast := _ }) { h with } hphase (by simp)
      (.inr ⟨by simp, h.gate_open (by simp [hphase])⟩) (by simp) (by simp)
  | put hphase =>
    exact SeqInv.pass (s := { s with filters := _, wrlast := true }) { h with put_done := fun _ => rfl } hphase
      (by simp) (.inr ⟨by simp, h.gate_open (by simp [hphase])⟩) (by simp) (by simp)
  | calcPcm f hphase => exact SeqInv.calc (s := s.clearInput _ _) { h with } hphase

/-! ### The fault record -/

theorem faultInv_reset : FaultInv State.reset := by
  constructor <;> simp [State.reset]

theorem faultInv_takeFault {s : State} (hphase : s.phase ≠ .faulted) {f : FaultCode} (hf : f ≠ .none) (cmd : Word) :
    FaultInv (takeFault f cmd s) where
  faulted_iff := by simp [hf]
  unwritten h := absurd h hf
  fphase_ne := hphase
  fidx_eq _ := rfl

/-- Outside FAULTED the record is unwritten, and moving on leaves it so. -/
theorem FaultInv.enter {s : State} (h : FaultInv s) (hphase : s.phase ≠ .faulted) {p : Phase} (hp : p ≠ .faulted)
    (i : BitVec 5) : FaultInv (setSeq p i s) := by
  have hnone : s.fcode = .none := not_not.mp (mt h.faulted_iff.mpr hphase)
  exact ⟨by simp [hp, hnone], h.unwritten, h.fphase_ne, fun hne => absurd hnone hne⟩

theorem FaultInv.pass {s : State} (h : FaultInv s) {here next : Phase} (hphase : s.phase = here)
    (hhere : here ≠ .faulted) (hnext : next ≠ .faulted) :
    FaultInv (setSeq (passPhase s here next) (passIdx s) s) :=
  h.enter (hphase ▸ hhere) (passPhase_ne hhere hnext) _

theorem FaultInv.effect {i : Instr} {s u : State} (h : FaultInv s) (hu : Effect s i u) : FaultInv u := by
  cases hu with
  | none => exact h
  | fault _ hphase hf => exact faultInv_takeFault hphase hf _
  | readFault hread hf => exact faultInv_takeFault (s := s.setSlot s.idx _) hread.phase_ne_faulted hf _
  | setup c sel hphase =>
    exact FaultInv.enter (s := { s with chsel := sel, conf := true }) { h with } (by simp [hphase]) (by simp) _
  | frame hphase =>
    have henter := h.enter (p := if s.env.header.n = 0#6 then .sfsel else .alloc) (by simp [hphase])
      (by split <;> simp) 0#5
    rw [startFrame_eq]
    exact { henter with }
  | sfsel hphase => exact h.enter (by simp [hphase]) (by simp) _
  | gate hphase =>
    exact FaultInv.enter (s := { s with gateok := gateOpen s }) { h with } (by simp [hphase]) (by split <;> simp) _
  | rdalloc hphase => exact FaultInv.pass (s := s.setSlot s.idx _) { h with } hphase (by simp) (by simp)
  | rdscf hphase => exact FaultInv.pass (s := s.setSlot s.idx _) { h with } hphase (by simp) (by simp)
  | rdsmp hphase =>
    exact FaultInv.pass (s := { s.setSlot s.idx _ with rdlast := _ }) { h with } hphase (by simp) (by simp)
  | put hphase =>
    exact FaultInv.pass (s := { s with filters := _, wrlast := true }) { h with } hphase (by simp) (by simp)
  | calcPcm f hphase =>
    exact FaultInv.enter (s := s.clearInput _ _) { h with } (hphase ▸ calcPhase_ne_faulted f)
      (calcNext_ne f s (by decide)) _

/-- Settles O53: each of the two invariants is kept by itself. -/
theorem stepKeepsSequencerInvariant : Obligations.StepKeepsSequencerInvariant := fun _ _ hseq hfault h =>
  step_keeps (P := fun s => SeqInv s ∧ FaultInv s) (fun _ _ _ ⟨hq, hf⟩ => ⟨{ hq with }, { hf with }⟩)
    ⟨seqInv_reset, faultInv_reset⟩ (fun _ _ _ ⟨hq, hf⟩ hu => ⟨hq.effect hu, hf.effect hu⟩) ⟨hseq, hfault⟩ h

end Sys2Proof.Machine
end

section
/-! The family 10_state, the slot file (R21 to R26, R95, R112, R115, R120). -/

namespace Sys2Proof.Machine

open Sys2Proof.Claims

@[simp] theorem Phase.allocated_iff (p : Phase) :
    p.allocated ↔ p = .sfsel ∨ p = .gate ∨ p = .scf ∨ p = .read ∨ p = .write ∨ p = .calc0 ∨ p = .calc1 := Iff.rfl

/-- What `SlotOk` asks of a slot by itself, whatever the frame and the phase. -/
structure Slot.Fits (cfg : Cfg) (x : Slot) : Prop where
  alloc_lt : ∀ c : Channel, x.alloc[c.val] < 2 ^ cfg.allocBits
  scf_lt : ∀ c : Channel, x.scf[c.val] < 2 ^ cfg.scfBits
  cnt_lt : x.cnt.toNat < cfg.spf
  absent : ∀ c : Channel, x.tag.nch ≤ c.val → x.alloc[c.val] = 0
  silent : ∀ c : Channel, x.alloc[c.val] = 0 → x.scf[c.val] = 0 ∧ x.buf[c.val] = Val.zero

theorem SlotOk.fits {cfg : Cfg} {s : State} {k : BitVec 5} (h : SlotOk cfg s k) : (s.slot k).Fits cfg where
  alloc_lt := h.alloc_lt
  scf_lt := h.scf_lt
  cnt_lt := h.cnt_lt
  absent := h.absent
  silent := h.silent

/-- A slot is well formed after a step if it fits, has kept its tag, and is as far allocated as the phase says. -/
theorem SlotOk.of_fits {cfg : Cfg} {s t : State} {k : BitVec 5} {x : Slot} (h : SlotOk cfg s k) (hslot : t.slot k = x)
    (hfits : x.Fits cfg) (htag : x.tag = (s.slot k).tag) (hframe : t.n = s.n ∧ t.mode = s.mode ∧ t.bound = s.bound)
    (hlegal : t.phase.allocated ∨ t.phase = .alloc ∧ k.toNat < t.idx.toNat →
      ∀ c : Channel, c.val < x.tag.nch → cfg.allocLegal x.alloc[c.val] = true)
    (hunread : t.phase = .alloc → t.idx.toNat ≤ k.toNat → ∀ c : Channel, x.alloc[c.val] = 0) : SlotOk cfg t k := by
  subst hslot
  obtain ⟨hn, hm, hb⟩ := hframe
  exact { hfits with tag_eq := by rw [htag, hn, hm, hb, h.tag_eq], legal := hlegal, unread := hunread }

theorem variant_eq_none_iff {k n b : Nat} {m : BitVec 2} : variant k n m b = .none ↔ n ≤ k := by
  unfold variant
  by_cases h : n ≤ k
  · simp [h]
  · simp only [h, if_false, iff_false]
    repeat' split
    all_goals simp

/-- A slot at or above N has no channel (R95). -/
theorem SlotOk.nch_eq_zero {cfg : Cfg} {s : State} {k : BitVec 5} (h : SlotOk cfg s k) (hk : s.n.toNat ≤ k.toNat) :
    (s.slot k).tag.nch = 0 := by
  rw [h.tag_eq, variant_eq_none_iff.mpr hk]
  rfl

theorem Slot.fits_initSlot (cfg : Cfg) (t : Tag) : (initSlot t).Fits cfg where
  alloc_lt := by simp [initSlot]
  scf_lt := by simp [initSlot]
  cnt_lt := cfg.spf_range.1
  absent := by simp [initSlot]
  silent := by simp [initSlot]

theorem slot_reset (k : BitVec 5) : State.reset.slot k = initSlot .none := by
  simp [State.slot, State.reset, Slot.afterReset, initSlot]

theorem slot_startFrame (s : State) (k : BitVec 5) : (startFrame s).slot k =
    initSlot (variant k.toNat s.env.header.n.toNat s.env.header.mode s.env.header.bound.toNat) := by
  simp [State.slot, startFrame_eq, initSlots]

theorem slotInv_reset (cfg : Cfg) : SlotInv cfg State.reset := by
  intro k
  have hfits := slot_reset k ▸ Slot.fits_initSlot cfg .none
  exact {
    hfits with
    tag_eq := by rw [slot_reset, variant_eq_none_iff.mpr (by simp [State.reset])]; rfl
    legal := by simp [State.reset]
    unread := by simp [State.reset] }

/-- Without joint stereo the variant does not look at the boundary (R95). -/
theorem variant_bound {k n b b' : Nat} {m : BitVec 2} (h : m = 1#2 → b = b') : variant k n m b = variant k n m b' := by
  unfold variant
  by_cases hm : m = 1#2
  · rw [h hm]
  · simp [hm]

theorem slotInv_startFrame (cfg : Cfg) (s : State) : SlotInv cfg (startFrame s) := by
  intro k
  have hfits := slot_startFrame s k ▸ Slot.fits_initSlot cfg
    (variant k.toNat s.env.header.n.toNat s.env.header.mode s.env.header.bound.toNat)
  refine { hfits with tag_eq := ?_, legal := ?_, unread := ?_ }
  · rw [slot_startFrame]
    exact variant_bound fun hm => by simp [startFrame_eq, hm]
  · rw [slot_startFrame, startFrame_eq]
    intro hlegal c hc
    have hn : s.env.header.n = 0#6 := by by_contra hn; simp [hn] at hlegal
    rw [initSlot, variant_eq_none_iff.mpr (by simp [hn])] at hc
    exact absurd hc (Nat.not_lt_zero _)
  · intro _ _ c
    rw [slot_startFrame]
    simp [initSlot]

/-- A fault asks of slot IDX, as far as it has been written, only that it fits. -/
theorem SlotInv.fault {cfg : Cfg} {s : State} (h : SlotInv cfg s) {y : Slot} (hfits : y.Fits cfg)
    (htag : y.tag = (s.slot s.idx).tag) (f : FaultCode) (cmd : Word) :
    SlotInv cfg (takeFault f cmd (s.setSlot s.idx y)) := by
  intro k
  by_cases hk : k = s.idx
  · subst hk
    exact (h s.idx).of_fits (s.slot_setSlot_self s.idx y) hfits htag ⟨rfl, rfl, rfl⟩ (by simp) (by simp)
  · exact (h k).of_fits (s.slot_setSlot_ne y hk) (h k).fits rfl ⟨rfl, rfl, rfl⟩ (by simp) (by simp)

/-- Once every slot is allocated, any later phase of the frame and IDLE ask no more of the slots. -/
theorem SlotInv.enter {cfg : Cfg} {s : State} (h : SlotInv cfg s) (hs : s.phase.allocated) {p : Phase} (hp : p ≠ .alloc)
    (i : BitVec 5) : SlotInv cfg (setSeq p i s) :=
  fun k => (h k).of_fits rfl (h k).fits rfl ⟨rfl, rfl, rfl⟩ (fun _ => (h k).legal (.inl hs)) fun e => absurd e hp

/-- Writing what is no code of slot IDX keeps the slots well formed. -/
theorem SlotInv.setSlot {cfg : Cfg} {s : State} (h : SlotInv cfg s) {y : Slot} (hfits : y.Fits cfg)
    (htag : y.tag = (s.slot s.idx).tag) (halloc : y.alloc = (s.slot s.idx).alloc) :
    SlotInv cfg (s.setSlot s.idx y) := by
  intro k
  by_cases hk : k = s.idx
  · subst hk
    refine (h s.idx).of_fits (s.slot_setSlot_self s.idx y) hfits htag ⟨rfl, rfl, rfl⟩ ?_ ?_
    · rw [htag, halloc]; exact (h s.idx).legal
    · rw [halloc]; exact (h s.idx).unread
  · exact (h k).of_fits (s.slot_setSlot_ne y hk) (h k).fits rfl ⟨rfl, rfl, rfl⟩ (h k).legal (h k).unread

/-- The slot counts its samples modulo SPF (R26, R117). -/
theorem toNat_nextCnt {cfg : Cfg} {x : Slot} (h : x.cnt.toNat < cfg.spf) :
    (nextCnt cfg x).toNat = (x.cnt.toNat + 1) % cfg.spf := by
  have hspf := cfg.spf_range.2
  unfold nextCnt burstDone
  by_cases hlast : x.cnt.toNat + 1 = cfg.spf
  · simp [hlast]
  · rw [if_neg (by simpa using hlast), BitVec.toNat_ofNat, Nat.mod_eq_of_lt, Nat.mod_eq_of_lt] <;> omega

/-- Whatever a reading command has read so far, its slot fits (R112, R115, R120). -/
theorem SlotRead.fits {s : State} {i : Instr} {y : Slot} (hread : SlotRead s i y) (h : SlotOk Config.cfg s s.idx) :
    y.Fits Config.cfg := by
  cases hread with
  | alloc hphase hread =>
    have hunread := h.unread hphase (Nat.le_refl _)
    refine { h.fits with
      alloc_lt := fun c => ?_
      absent := fun c hc => ?_
      silent := fun c _ => h.silent c (hunread c) }
    · obtain e | hnew := hread c
      · exact e ▸ h.alloc_lt c
      · exact hnew.2
    · obtain e | hnew := hread c
      · exact e ▸ h.absent c hc
      · exact absurd hnew.1 (Nat.not_lt.mpr hc)
  | scf hphase hread =>
    refine { h.fits with scf_lt := fun c => ?_, silent := fun c hc => ?_ }
    · obtain e | hnew := hread c
      · exact e ▸ h.scf_lt c
      · exact hnew.2
    · obtain e | hnew := hread c
      · exact e ▸ h.silent c hc
      · exact absurd hc hnew.1
  | buf hphase hread =>
    refine { h.fits with silent := fun c hc => ?_ }
    obtain e | hnew := hread c
    · exact e ▸ h.silent c hc
    · exact absurd hc hnew

/-- RDALLOC's slot joins those below IDX, whose codes are legal; after the last one nothing else is left: a slot at or
above N has no channel (R95, R112). -/
theorem SlotInv.rdalloc {s : State} (h : SlotInv Config.cfg s) (hseq : SeqInv s) (hphase : s.phase = .alloc) {y : Slot}
    (hread : SlotRead s (.rdalloc s.idx) y)
    (hlegal : ∀ c : Channel, c.val < y.tag.nch → Config.cfg.allocLegal y.alloc[c.val] = true) :
    SlotInv Config.cfg (setSeq (passPhase s .alloc .sfsel) (passIdx s) (s.setSlot s.idx y)) := by
  have hcases := hseq.pass_cases (by simp [hphase]) .alloc .sfsel
  have hread_upto (k : BitVec 5) (hdone : (passPhase s .alloc .sfsel).allocated ∨
      passPhase s .alloc .sfsel = .alloc ∧ k.toNat < (passIdx s).toNat) :
      k.toNat ≤ s.idx.toNat ∨ s.n.toNat ≤ k.toNat := by
    obtain ⟨hlast, hp, hi⟩ | ⟨hmore, hp, hi⟩ := hcases
    · omega
    · have hlt : k.toNat < (passIdx s).toNat := by simpa [hp] using hdone
      omega
  have hread_from (k : BitVec 5) (hp : passPhase s .alloc .sfsel = .alloc) (hk : (passIdx s).toNat ≤ k.toNat) :
      s.idx.toNat < k.toNat := by
    obtain ⟨-, hp', -⟩ | ⟨-, -, hi⟩ := hcases
    · simp [hp'] at hp
    · omega
  intro k
  by_cases hk : k = s.idx
  · subst hk
    exact (h s.idx).of_fits (s.slot_setSlot_self s.idx y) (hread.fits (h s.idx)) hread.tag_eq ⟨rfl, rfl, rfl⟩
      (fun _ => hlegal) fun hp hi => absurd (hread_from _ hp hi) (Nat.lt_irrefl _)
  · refine (h k).of_fits (s.slot_setSlot_ne y hk) (h k).fits rfl ⟨rfl, rfl, rfl⟩ (fun hdone c hc => ?_) fun hp hi =>
      (h k).unread hphase (hread_from k hp hi).le
    obtain hle | hge := hread_upto k hdone
    · have hlt : k.toNat < s.idx.toNat := lt_of_le_of_ne hle fun e => hk (BitVec.eq_of_toNat_eq e)
      exact (h k).legal (.inr ⟨hphase, hlt⟩) c hc
    · rw [(h k).nch_eq_zero hge] at hc
      exact absurd hc (Nat.not_lt_zero _)

theorem SlotInv.effect {i : Instr} {s u : State} (h : SlotInv Config.cfg s) (hseq : SeqInv s) (hu : Effect s i u) :
    SlotInv Config.cfg u := by
  cases hu with
  | none => exact h
  | fault =>
    have hfault := h.fault (h s.idx).fits rfl
    rw [State.setSlot_slot_self] at hfault
    exact hfault _ _
  | readFault hread => exact h.fault (hread.fits (h s.idx)) hread.tag_eq _ _
  | setup => exact fun k => (h k).of_fits rfl (h k).fits rfl ⟨rfl, rfl, rfl⟩ (by simp) (by simp)
  | frame => exact slotInv_startFrame _ s
  | sfsel hphase => exact h.enter (by simp [hphase]) (by simp) _
  | gate hphase =>
    have henter := h.enter (p := if gateOpen s = false ∨ s.n = 0#6 then .idle else .scf) (by simp [hphase])
      (by split <;> simp) 0
    exact fun k => { henter k with }
  | rdalloc hphase hread hlegal => exact h.rdalloc hseq hphase hread hlegal
  | rdscf hphase hread =>
    have hset := h.setSlot (hread.fits (h s.idx)) hread.tag_eq (hread.alloc_eq (by simp))
    exact hset.enter (by simp [hphase]) (passPhase_ne (by simp) (by simp)) _
  | @rdsmp y hphase hread =>
    have hcnt : (nextCnt Config.cfg y).toNat < Config.cfg.spf := by
      rw [toNat_nextCnt (hread.fits (h s.idx)).cnt_lt]
      exact Nat.mod_lt _ Config.cfg.spf_range.1
    have hset := h.setSlot (y := { y with cnt := nextCnt Config.cfg y }) { hread.fits (h s.idx) with cnt_lt := hcnt }
      hread.tag_eq (hread.alloc_eq (by simp))
    have henter := hset.enter (by simp [hphase]) (passPhase_ne (s := s) (here := .read) (next := .write) (by simp)
      (by simp)) (passIdx s)
    exact fun k => { henter k with }
  | put hphase =>
    have henter := h.enter (by simp [hphase]) (passPhase_ne (s := s) (here := .write) (next := .calc0) (by simp)
      (by simp)) (passIdx s)
    exact fun k => { henter k with }
  | calcPcm f hphase =>
    have hs : s.phase.allocated := by
      obtain e | e := calcPhase_calc hphase <;> simp [e]
    have henter := h.enter hs (calcNext_ne f s (by decide)) 0
    exact fun k => { henter k with }

/-- Settles O54: the sequencer's invariant goes along, because RDALLOC's pass needs IDX below N. -/
theorem stepKeepsSlotInvariant : Obligations.StepKeepsSlotInvariant := fun _ _ hseq hslots h =>
  (step_keeps (P := fun s => SeqInv s ∧ SlotInv Config.cfg s)
    (fun _ _ _ ⟨hq, hs⟩ => ⟨{ hq with }, fun k => { hs k with }⟩) ⟨seqInv_reset, slotInv_reset _⟩
    (fun _ _ _ ⟨hq, hs⟩ hu => ⟨hq.effect hu, hs.effect hq hu⟩) ⟨hseq, hslots⟩ h).2

/-- Settles O57: below N the variant of a slot is not NONE. -/
theorem expectedIndexHasASlot : Obligations.ExpectedIndexHasASlot := by
  intro s hseq hslots hphase
  have hidx := hseq.idx_lt_n hphase
  refine ⟨hidx, fun hnone => ?_⟩
  rw [(hslots s.idx).tag_eq, variant_eq_none_iff] at hnone
  exact absurd hidx (Nat.not_lt.mpr hnone)

end Sys2Proof.Machine
end

section
/-! The family 10_state, the input vectors (R28, R135, R141, R145). -/

namespace Sys2Proof.Machine

open Sys2Proof.Claims

theorem inputAt_reset (f : FilterNo) (k : BitVec 5) : State.reset.inputAt f k = Val.zero := by
  simp [State.inputAt, State.filter, State.reset, SynFilter.fresh]

@[simp] theorem Phase.inWritePass_iff (p : Phase) :
    p.inWritePass ↔ p = .write ∨ p = .calc0 ∨ p = .calc1 ∨ p = .faulted := Iff.rfl

theorem FilterInv.of_zero {s : State} (h : ∀ f k, s.inputAt f k = Val.zero) : FilterInv s :=
  ⟨fun _ => h, fun _ f k _ => h f k, fun f k _ => h f k, fun _ => h 1, fun _ => h 0⟩

theorem filterInv_reset : FilterInv State.reset := .of_zero inputAt_reset

/-- A command that does not write the filters may go anywhere from outside a write pass: they are all 0 (R28). -/
theorem FilterInv.of_outside {s u : State} (h : FilterInv s) (hphase : ¬ s.phase.inWritePass)
    (hfilters : u.filters = s.filters) : FilterInv u :=
  .of_zero fun f k => (State.inputAt_congr hfilters f k).trans (h.outside hphase f k)

theorem FilterInv.fault {s : State} (h : FilterInv s) (f : FaultCode) (cmd : Word) : FilterInv (takeFault f cmd s) where
  outside hout := absurd (by simp) hout
  toPut := by simp
  unused := h.unused
  filter1 := h.filter1
  computed := by simp

/-- Only a slot with two channels, or one shared by both, routes to filter 1, and only if both are wanted (R132). -/
theorem route_filter1 {num : Numerics} {x : Slot} {sel : ChSel} {k : BitVec 5} {p : FilterNo × Val}
    (hp : p ∈ route num x sel k) (h1 : p.1 = 1) : sel = .both ∧ (x.tag = .stereo ∨ x.tag = .intensity) := by
  have hrouted {b : Bool} {f : FilterNo} {v : Val} (h : p ∈ routed b f v) : p.1 = f := by
    unfold routed at h
    split at h
    · rw [List.mem_singleton.mp h]
    · cases h
  unfold route at hp
  cases htag : x.tag <;> cases sel <;> simp only [htag, List.not_mem_nil] at hp
  case stereo.both => simp
  case intensity.both => simp
  all_goals exact absurd (h1.symm.trans (hrouted hp)) (by decide)

theorem variant_singleChannel {k n b : Nat} {m : BitVec 2} (hm : m = 3#2) :
    variant k n m b ≠ .stereo ∧ variant k n m b ≠ .intensity := by
  subst hm
  unfold variant
  split <;> simp

/-- In a state that can occur PUT leaves filter 1 alone unless both channels are wanted: in single channel mode no slot
is STEREO or INTENSITY (R95, R132). -/
theorem SlotOk.route_filter_ne {cfg : Cfg} {s : State} {k : BitVec 5} (h : SlotOk cfg s k) (hneed : s.need2 = false)
    (num : Numerics) : ∀ p ∈ route num (s.slot k) s.chsel k, p.1 ≠ 1 := by
  intro p hp h1
  obtain ⟨hboth, htag⟩ := route_filter1 hp h1
  have hmode : s.mode = 3#2 := by
    by_contra hm
    rw [(need2_iff s).mpr ⟨hboth, hm⟩] at hneed
    exact Bool.noConfusion hneed
  rw [h.tag_eq] at htag
  exact htag.elim (variant_singleChannel hmode).1 (variant_singleChannel hmode).2

/-- PUT at IDX writes band IDX only, which the later bands to be put and the unused ones are not, and filter 1 only if
both channels are wanted (R28, R131, R135). -/
theorem FilterInv.put {s m : State} (h : FilterInv s) (hseq : SeqInv s) (hphase : s.phase = .write)
    (hband : ∀ f k, k ≠ s.idx → m.inputAt f k = s.inputAt f k)
    (hfilter1 : s.need2 = false → m.filter 1 = s.filter 1) :
    FilterInv (setSeq (passPhase s .write .calc0) (passIdx s) { s with filters := m.filters, wrlast := true }) := by
  have hidx := hseq.idx_lt_n (by simp [hphase])
  have hcases := hseq.pass_cases (by simp [hphase]) .write .calc0
  have hzero {f : FilterNo} {k : BitVec 5} (hk : s.idx.toNat < k.toNat) (h0 : s.inputAt f k = Val.zero) :
      m.inputAt f k = Val.zero :=
    (hband f k (by rintro rfl; exact Nat.lt_irrefl _ hk)).trans h0
  refine ⟨fun hout => absurd ?_ hout, fun hwrite f k hk => ?_, fun f k hk => ?_, fun hneed k => ?_, fun hcalc1 => ?_⟩
  · obtain ⟨-, e, -⟩ | ⟨-, e, -⟩ := hcases <;> simp [e]
  · obtain ⟨-, e, -⟩ | ⟨-, -, e⟩ := hcases
    · cases e.symm.trans hwrite
    · have hk' : s.idx.toNat < k.toNat := by simp only [State.setSeq_idx] at hk; omega
      exact hzero hk' (h.toPut hphase f k hk'.le)
  · exact hzero (hidx.trans_le hk) (h.unused f k hk)
  · have h1 := h.filter1 hneed k
    rw [State.inputAt, ← hfilter1 hneed] at h1
    exact h1
  · exact absurd hcalc1 (passPhase_ne (by simp) (by simp))

/-- CALC clears the one input vector, and where it ends the write pass the other is 0 already: filter 0 in CALC1, or
filter 1 where only one channel is wanted (R142, R145). -/
theorem FilterInv.calc {s : State} (h : FilterInv s) (hseq : SeqInv s) {f : BitVec 1}
    (hphase : s.phase = calcPhase f) (hist : Vector Val histLen) :
    FilterInv (setSeq (calcNext f s) 0 (s.clearInput (filterOf f) hist)) := by
  have hinput (g : FilterNo) (k : BitVec 5) := inputAt_clearInput s (filterOf f) g hist k
  have hkeep {g : FilterNo} {k : BitVec 5} (h0 : s.inputAt g k = Val.zero) :
      (s.clearInput (filterOf f) hist).inputAt g k = Val.zero := by
    rw [hinput, h0, ite_self]
  have hend (hmore : ¬ (f = 0#1 ∧ s.need2 = true)) (g : FilterNo) (k : BitVec 5) :
      (s.clearInput (filterOf f) hist).inputAt g k = Val.zero := by
    by_cases hg : g = filterOf f
    · rw [hinput, if_pos hg]
    · refine hkeep ?_
      obtain ⟨rfl, -⟩ | ⟨rfl, hcalc1⟩ := calcPhase_cases f
      · rw [Fin.eq_one_of_ne_zero g hg]
        exact h.filter1 (by simpa using hmore) k
      · have hg0 : g = 0 := by
          by_contra hne
          exact hg (Fin.eq_one_of_ne_zero g hne)
        rw [hg0]
        exact h.computed (hphase.trans hcalc1) k
  obtain ⟨rfl, hneed, e⟩ | ⟨hmore, -, e⟩ | ⟨hmore, -, e⟩ := hseq.calcNext_cases hphase
  · rw [e]
    refine ⟨fun hout => absurd (by simp) hout, by simp, fun g k hk => hkeep (h.unused g k hk),
      fun hn k => hkeep (h.filter1 hn k), fun _ k => (hinput 0 k).trans (if_pos rfl)⟩
  · exact .of_zero (hend hmore)
  · exact .of_zero (hend hmore)

theorem FilterInv.effect {i : Instr} {s u : State} (h : FilterInv s) (hseq : SeqInv s) (hslots : SlotInv Config.cfg s)
    (hu : Effect s i u) : FilterInv u := by
  cases hu with
  | none => exact h
  | fault => exact h.fault _ _
  | readFault => exact FilterInv.fault (s := s.setSlot s.idx _) { h with } _ _
  | setup c sel hphase => exact h.of_outside (by simp [hphase]) rfl
  | frame hphase => exact h.of_outside (by simp [hphase]) rfl
  | sfsel hphase => exact h.of_outside (by simp [hphase]) rfl
  | gate hphase => exact h.of_outside (by simp [hphase]) rfl
  | rdalloc hphase => exact h.of_outside (by simp [hphase]) rfl
  | rdscf hphase => exact h.of_outside (by simp [hphase]) rfl
  | rdsmp hphase => exact h.of_outside (by simp [hphase]) rfl
  | put hphase =>
    exact h.put hseq hphase (fun f k hk => injectAll_inputAt_ne hk _ s f) fun hneed =>
      injectAll_filter_ne _ _ s 1 ((hslots s.idx).route_filter_ne hneed _)
  | calcPcm f hphase => exact h.calc hseq hphase _

/-- Settles O55: CALC and PUT write what the invariant lets them, and every other command finds the vectors 0 or leaves
them. -/
theorem stepKeepsFilterInvariant : Obligations.StepKeepsFilterInvariant := fun _ _ hseq hslots hfilters h =>
  (step_keeps (P := fun s => SeqInv s ∧ SlotInv Config.cfg s ∧ FilterInv s)
    (fun _ _ _ ⟨hq, hs, hf⟩ => ⟨{ hq with }, fun k => { hs k with }, { hf with }⟩)
    ⟨seqInv_reset, slotInv_reset _, filterInv_reset⟩
    (fun _ _ _ ⟨hq, hs, hf⟩ hu => ⟨hq.effect hu, hs.effect hq hu, hf.effect hq hs hu⟩) ⟨hseq, hslots, hfilters⟩ h).2.2

end Sys2Proof.Machine
end

section
/-! The family 10_state, lock-step (R26, R118, R120). -/

namespace Sys2Proof.Machine

open Sys2Proof.Claims

theorem lockInv_reset (cfg : Cfg) : LockInv cfg State.reset := by
  constructor <;> simp [State.reset]

/-- Where no pass is under way and none is to come the counters are free. -/
theorem lockInv_of_idle {cfg : Cfg} {s : State} (h : s.phase = .idle ∨ s.phase = .faulted) : LockInv cfg s := by
  constructor <;> obtain e | e := h <;> simp [e]

/-- Writing slot IDX, but not its counter, leaves every counter alone. -/
theorem cnt_setSlot {s : State} {y : Slot} (h : y.cnt = (s.slot s.idx).cnt) (k : BitVec 5) :
    ((s.setSlot s.idx y).slot k).cnt = (s.slot k).cnt := by
  rw [State.slot_setSlot]
  split
  · subst k; exact h
  · rfl

/-- Before the read passes every counter is 0, and so the first one starts in step. -/
theorem lockInv_of_start {cfg : Cfg} {s : State} (h : ∀ k, (s.slot k).cnt = 0#4)
    (hphase : s.phase ∈ [.idle, .alloc, .sfsel, .gate, .scf, .read]) (hidx : s.phase = .read → s.idx = 0#5) :
    LockInv cfg s where
  start _ := h
  reading hp := ⟨0, cfg.spf_range.1, fun k _ => by simp [h k, hidx hp]⟩
  drained hp := by obtain e | e | e := hp <;> simp [e] at hphase

/-- RDALLOC's pass and RDSCF's leave the counters at 0. -/
theorem LockInv.startPass {cfg : Cfg} {s : State} (h : LockInv cfg s) (hseq : SeqInv s) {here next : Phase}
    (hphase : s.phase = here) (hpass : here = .alloc ∧ next = .sfsel ∨ here = .scf ∧ next = .read) {y : Slot}
    (hy : y.cnt = (s.slot s.idx).cnt) :
    LockInv cfg (setSeq (passPhase s here next) (passIdx s) (s.setSlot s.idx y)) := by
  subst hphase
  have hcnt (k : BitVec 5) := (cnt_setSlot hy k).trans (h.start (by tauto) k)
  obtain ⟨-, hp, hi⟩ | ⟨-, hp, -⟩ := hseq.pass_cases (by rw [Phase.takesIndex_iff]; tauto) s.phase next
  · rw [hp, hi]
    refine lockInv_of_start hcnt ?_ fun _ => rfl
    obtain ⟨-, e⟩ | ⟨-, e⟩ := hpass <;> simp [e]
  · rw [hp]
    refine lockInv_of_start hcnt ?_ fun e => ?_
    · obtain ⟨e, -⟩ | ⟨e, -⟩ := hpass <;> simp [e]
    · rw [State.setSeq_phase] at e
      simp [e] at hpass

/-- A slot answers 1 exactly when its counter wraps (R118). -/
theorem burstDone_iff {cfg : Cfg} {x : Slot} (h : x.cnt.toNat < cfg.spf) :
    burstDone cfg x = true ↔ (x.cnt.toNat + 1) % cfg.spf = 0 := by
  unfold burstDone
  rw [decide_eq_true_iff]
  by_cases hlast : x.cnt.toNat + 1 = cfg.spf
  · simp [hlast]
  · rw [Nat.mod_eq_of_lt (by omega)]
    omega

/-- A pass of reads: slot IDX moves one position on, as the slots below it have, and after the last slot RDLAST says
whether that was position SPF - 1 (R118). -/
theorem LockInv.rdsmp {s : State} (h : LockInv Config.cfg s) (hseq : SeqInv s) (hphase : s.phase = .read) {y : Slot}
    (hy : y.cnt = (s.slot s.idx).cnt) :
    LockInv Config.cfg (setSeq (passPhase s .read .write) (passIdx s)
        { s.setSlot s.idx { y with cnt := nextCnt Config.cfg y } with rdlast := burstDone Config.cfg y }) := by
  obtain ⟨c, hc, hcnt⟩ := h.reading hphase
  have hidx := hseq.idx_lt_n (by simp [hphase])
  have hyc : y.cnt.toNat = c := by rw [hy, hcnt _ hidx, if_neg (Nat.lt_irrefl _)]
  have hnext : (nextCnt Config.cfg y).toNat = (c + 1) % Config.cfg.spf := by
    rw [toNat_nextCnt (by omega), hyc]
  have hmod := Nat.mod_lt (c + 1) Config.cfg.spf_range.1
  have hslot (k : BitVec 5) (hk : k.toNat < s.n.toNat) :
      ((s.setSlot s.idx { y with cnt := nextCnt Config.cfg y }).slot k).cnt.toNat =
        if k.toNat ≤ s.idx.toNat then (c + 1) % Config.cfg.spf else c := by
    rw [State.slot_setSlot]
    by_cases hki : k = s.idx
    · subst k
      rw [if_pos rfl, if_pos (Nat.le_refl _), hnext]
    · have hne : k.toNat ≠ s.idx.toNat := fun e => hki (BitVec.eq_of_toNat_eq e)
      rw [if_neg hki, hcnt k hk]
      simp only [Nat.lt_iff_le_and_ne, hne, ne_eq, not_false_eq_true, and_true]
  obtain ⟨hlast, hp, -⟩ | ⟨hmore, hp, hi⟩ := hseq.pass_cases (by simp [hphase]) .read .write
  · refine ⟨by simp [hp], by simp [hp], fun _ => ⟨(c + 1) % Config.cfg.spf, hmod, ?_, fun k hk => ?_⟩⟩
    · rw [← hyc]
      exact burstDone_iff (by omega)
    · exact (hslot k hk).trans (if_pos (by simp only [State.setSeq_n, State.setSlot_n] at hk; omega))
  · refine ⟨by simp [hp], fun _ => ⟨c, hc, fun k hk => (hslot k hk).trans ?_⟩, by simp [hp]⟩
    simp only [State.setSeq_idx, hi, Nat.lt_succ_iff]

/-- In a write pass, CALCs included, no counter moves. -/
theorem LockInv.drain {cfg : Cfg} {s u : State} (h : LockInv cfg s)
    (hs : s.phase = .write ∨ s.phase = .calc0 ∨ s.phase = .calc1)
    (hu : u.phase = .write ∨ u.phase = .calc0 ∨ u.phase = .calc1)
    (hkeep : u.sb = s.sb ∧ u.n = s.n ∧ u.rdlast = s.rdlast) : LockInv cfg u := by
  obtain ⟨hsb, hn, hr⟩ := hkeep
  obtain ⟨c, hc, hlast, hcnt⟩ := h.drained hs
  refine ⟨?_, ?_, fun _ => ⟨c, hc, by rwa [hr], fun k hk => ?_⟩⟩
  · obtain e | e | e := hu <;> simp [e]
  · obtain e | e | e := hu <;> simp [e]
  · rw [State.slot_congr hsb]
    exact hcnt k (hn ▸ hk)

/-- After CALC the write pass goes on in CALC1, or the next read pass begins where the slots agree, or the frame
ends. -/
theorem LockInv.calc {cfg : Cfg} {s : State} (h : LockInv cfg s) (hseq : SeqInv s) {f : BitVec 1}
    (hphase : s.phase = calcPhase f) (hist : Vector Val histLen) :
    LockInv cfg (setSeq (calcNext f s) 0 (s.clearInput (filterOf f) hist)) := by
  have hs : s.phase = .write ∨ s.phase = .calc0 ∨ s.phase = .calc1 := .inr (calcPhase_calc hphase)
  obtain ⟨-, -, e⟩ | ⟨-, -, e⟩ | ⟨-, -, e⟩ := hseq.calcNext_cases hphase
  · exact h.drain hs (by simp [e]) ⟨rfl, rfl, rfl⟩
  · obtain ⟨c, hc, -, hcnt⟩ := h.drained hs
    exact ⟨by simp [e], fun _ => ⟨c, hc, fun k hk => (hcnt k hk).trans (if_neg (Nat.not_lt_zero _)).symm⟩, by simp [e]⟩
  · exact lockInv_of_idle (.inl e)

theorem LockInv.effect {i : Instr} {s u : State} (h : LockInv Config.cfg s) (hseq : SeqInv s) (hu : Effect s i u) :
    LockInv Config.cfg u := by
  cases hu with
  | none => exact h
  | fault => exact lockInv_of_idle (.inr rfl)
  | readFault => exact lockInv_of_idle (.inr rfl)
  | setup => exact lockInv_of_idle (.inl rfl)
  | frame =>
    refine lockInv_of_start (fun k => ?_) ?_ fun _ => rfl
    · rw [slot_startFrame]; rfl
    · rw [startFrame_eq]
      dsimp only
      split <;> simp
  | sfsel hphase => exact lockInv_of_start (h.start (by simp [hphase])) (by simp) fun _ => rfl
  | gate hphase =>
    refine lockInv_of_start (h.start (by simp [hphase])) ?_ fun _ => rfl
    rw [State.setSeq_phase]
    split <;> simp
  | rdalloc hphase hread => exact h.startPass hseq hphase (by simp) hread.cnt_eq
  | rdscf hphase hread => exact h.startPass hseq hphase (by simp) hread.cnt_eq
  | rdsmp hphase hread => exact h.rdsmp hseq hphase hread.cnt_eq
  | put hphase =>
    refine h.drain (.inl hphase) ?_ ⟨rfl, rfl, rfl⟩
    obtain ⟨-, e, -⟩ | ⟨-, e, -⟩ := hseq.pass_cases (by simp [hphase]) .write .calc0 <;> simp [e]
  | calcPcm f hphase => exact h.calc hseq hphase _

/-- Settles O56: only RDSMP moves a counter, and FRAME sets them all to 0. -/
theorem stepKeepsLockStep : Obligations.StepKeepsLockStep := fun _ _ hseq _ hlock h =>
  (step_keeps (P := fun s => SeqInv s ∧ LockInv Config.cfg s)
    (fun _ _ _ ⟨hq, hl⟩ => ⟨{ hq with }, { hl with }⟩) ⟨seqInv_reset, lockInv_reset _⟩
    (fun _ _ _ ⟨hq, hl⟩ hu => ⟨hq.effect hu, hl.effect hq hu⟩) ⟨hseq, hlock⟩ h).2

end Sys2Proof.Machine
end

section
/-! The family 10_state, the reset state (R43). -/

namespace Sys2Proof.Machine

open Sys2Proof.Claims

theorem hist_reset (f : FilterNo) : (State.reset.filter f).hist = Vector.replicate histLen Val.zero := by
  simp [State.filter, State.reset, SynFilter.fresh]

/-- Settles O8: the fields are as the table says, and the three arrays hold the same element throughout. -/
theorem resetValues : Obligations.ResetValues := by
  refine ⟨rfl, rfl, rfl, rfl, rfl, rfl, rfl, rfl, rfl, rfl, rfl, rfl, rfl, rfl, rfl, fun k => ?_, inputAt_reset,
    fun f i _ => ?_⟩
  · rw [slot_reset]; rfl
  · rw [hist_reset, entry_replicate_zero]

/-- Settles O52: the five invariants at reset. -/
theorem resetMeetsTheInvariant : Obligations.ResetMeetsTheInvariant :=
  ⟨seqInv_reset, faultInv_reset, slotInv_reset _, filterInv_reset, lockInv_reset _⟩

end Sys2Proof.Machine
end

section
/-! The family 20_memory: a read's value, most significant bit first (R54); what each command does at the ports, as
`PortRun` lists it (R52, R56, R57, R160); how wide its reads are (R53). -/

namespace Sys2Proof.Machine

open Sys2Proof.Claims

/-! ### The value of a read (R53, R54) -/

/-- A run of bits stands for the sum of its bits, each weighted by how many come after it. -/
theorem bitsVal_eq_sum (bs : List Bool) :
    bitsVal bs = ∑ j ∈ Finset.range bs.length, (bs.getD j false).toNat * 2 ^ (bs.length - (j + 1)) := by
  induction bs with
  | nil => rfl
  | cons b bs ih =>
    rw [bitsVal_cons, ih, List.length_cons, Finset.sum_range_succ', add_comm]
    simp

theorem bitsVal_take_eq_sum {n : Nat} {bs : List Bool} (h : n ≤ bs.length) :
    bitsVal (bs.take n) = ∑ j ∈ Finset.range n, (bs.getD j false).toNat * 2 ^ (n - (j + 1)) := by
  rw [bitsVal_eq_sum, List.length_take_of_le h]
  refine Finset.sum_congr rfl fun j hj => ?_
  rw [List.getD_eq_getElem?_getD, List.getD_eq_getElem?_getD, List.getElem?_take_of_lt (Finset.mem_range.mp hj)]

/-- Settles O32: by induction on the bits, the first one weighted by all that follow it. -/
theorem bitReadIsMostSignificantFirst : Obligations.BitReadIsMostSignificantFirst :=
  fun n s => ⟨bitRead_short, fun h => ⟨bitsVal (s.env.bits.take n), bitsVal_take_eq_sum h, bitsVal_take_lt n _,
    bitRead_enough h⟩⟩

/-! ### What a command does at the ports -/

/-- The widths of the reads command `i` makes from state `s` (R111, R114, R117). -/
inductive ReadWidth (s : State) : Instr → Nat → Prop
  | rdalloc (k : BitVec 5) : ReadWidth s (.rdalloc k) Config.cfg.allocBits
  | rdscf (k : BitVec 5) : ReadWidth s (.rdscf k) Config.cfg.scfBits
  | rdsmp {k : BitVec 5} {c : Channel} (hphase : s.phase = .read) (hdata : HasData s k c) :
      ReadWidth s (.rdsmp k) (Config.cfg.sampleLen k (s.slot k).alloc[c.val])

/-- The events that are no read and that command `i` may record from state `s`: every command answers, RDALLOC feeds
the accumulator if CRCEN, CALC appends to the sink (R56, R57, R81). -/
inductive MayRecord (s : State) : Instr → Event → Prop
  | response (i : Instr) (err : BitVec 4) (val : Word32) : MayRecord s i (.response err val)
  | crcAdd (k : BitVec 5) (v n : Nat) (hcrc : s.crcen = true) : MayRecord s (.rdalloc k) (.crcAdd v n)
  | sinkAppend (g : BitVec 1) (f : FilterNo) (blk : PcmBlock) : MayRecord s (.calcPcm g) (.sinkAppend f blk)

/-- The environments command `i` can bring about from state `s`, one port event after the other (R11). -/
inductive PortRun (i : Instr) (s : State) : Env → Prop
  | start : PortRun i s s.env
  | record {e : Env} {ev : Event} (h : PortRun i s e) (hev : MayRecord s i ev) :
      PortRun i s { e with history := e.history ++ [ev] }
  | read {e : Env} {n v : Nat} (h : PortRun i s e) (hn : ReadWidth s i n) (hv : v < 2 ^ n) :
      PortRun i s { e with bits := e.bits.drop n, history := e.history ++ [.bitsRead n v] }

namespace PortRun

variable {i : Instr} {s m : State} {k : BitVec 5} {c : Channel}

theorem response (h : PortRun i s m.env) (err : BitVec 4) (val : Word32) :
    PortRun i s (m.emit (.response err val)).env :=
  h.record (.response i err val)

theorem takeFault (h : PortRun i s m.env) (f : FaultCode) (cmd : Word) : PortRun i s (takeFault f cmd m).env :=
  h.record (.response i _ _)

/-- RDALLOC does not write CRCEN, so its second channel feeds the accumulator where the first one does (R111). -/
theorem rdallocChannel (h : PortRun (.rdalloc k) s m.env) (hcrc : m.crcen = s.crcen) :
    (rdallocChannel Config.cfg k c m).Sat (fun m => PortRun (.rdalloc k) s m.env ∧ m.crcen = s.crcen)
      (fun m => PortRun (.rdalloc k) s m.env) := by
  refine sat_rdallocChannel (fun _ => h.takeFault _ _) fun _ a m' ha hm' => ?_
  have hread := h.read (.rdalloc k) ha
  have hfed : PortRun (.rdalloc k) s m'.env := by
    subst hm'
    cases hc : m.crcen with
    | false => exact hread
    | true => simpa using hread.record (.crcAdd k a Config.cfg.allocBits (hcrc.symm.trans hc))
  exact ⟨fun _ => ⟨hfed, hm' ▸ hcrc⟩, fun _ => takeFault (m := m'.setAlloc k c a) hfed _ _⟩

theorem rdscfChannel (h : PortRun (.rdscf k) s m.env) :
    (rdscfChannel Config.cfg k c m).Sat (fun m => PortRun (.rdscf k) s m.env)
      (fun m => PortRun (.rdscf k) s m.env) :=
  sat_rdscfChannel (fun _ => h) (fun _ => h.takeFault _ _) fun _ _ _ hv => h.read (.rdscf k) hv

/-- RDSMP does not write the allocations, so each channel reads as wide as the slot said before (R117). -/
theorem rdsmpChannel (hphase : s.phase = .read) (hc : c.val < (s.slot k).tag.nch)
    (h : PortRun (.rdsmp k) s m.env) (halloc : (m.slot k).alloc = (s.slot k).alloc) :
    (rdsmpChannel Config.cfg k c m).Sat
      (fun m => PortRun (.rdsmp k) s m.env ∧ (m.slot k).alloc = (s.slot k).alloc)
      (fun m => PortRun (.rdsmp k) s m.env) := by
  refine sat_rdsmpChannel (fun _ => ⟨h, halloc⟩) (h.takeFault _ _) fun hdata n q v hn _ hq => ⟨?_, ?_⟩
  · rw [halloc] at hdata hn
    exact h.read (hn ▸ .rdsmp hphase ⟨hc, hdata⟩) hq
  · rw [State.setBuf_eq, State.slot_setSlot_self]
    exact halloc

end PortRun

/-- Every command's environment is one of its `PortRun`s. -/
theorem exec_portRun {i : Instr} {s t : State} (h : exec i s = .next t) : PortRun i s t.env := by
  have hfault (f : FaultCode) (cmd : Word) := (PortRun.start (i := i) (s := s)).takeFault f cmd
  have hanswer {m : State} (hm : m.env = s.env) (err : BitVec 4) (val : Word32) :
      PortRun i s (m.emit (.response err val)).env := PortRun.response (hm ▸ .start) err val
  obtain ⟨t', ht', hrun⟩ : ∃ t', exec i s = .next t' ∧ PortRun i s t'.env := by
    apply exec_sat (D := fun t => PortRun i s t.env) i s
    case hnop => exact fun _ => hanswer rfl _ _
    case hcsr => exact fun _ _ => hanswer rfl _ _
    case hsticky => exact fun _ => hanswer rfl _ _
    case hill => exact fun _ _ => hfault _ _
    case hseq => exact fun _ _ => hfault _ _
    case hsetup => exact fun _ _ _ _ _ => hanswer rfl _ _
    case hframe => exact fun _ _ => sat_frameBody (hfault _ _) fun _ _ => hanswer rfl _ _
    case hsfsel => exact fun _ _ => hanswer rfl _ _
    case hgate => exact fun _ _ => hanswer rfl _ _
    case hput => exact fun _ _ _ _ => hanswer (by simp) _ _
    case hrdalloc =>
      rintro k rfl - -
      exact (sat_forChannels (G := fun m => PortRun (.rdalloc k) s m.env ∧ m.crcen = s.crcen) ⟨.start, rfl⟩
        fun _ _ _ ⟨hm, hcrc⟩ => hm.rdallocChannel hcrc).mono
        (fun m ⟨hm, _⟩ => PortRun.response (by simpa using hm) _ _) fun _ hm => hm
    case hrdscf =>
      rintro k rfl - -
      exact (sat_forChannels (G := fun m => PortRun (.rdscf k) s m.env) .start fun _ _ _ => PortRun.rdscfChannel).mono
        (fun m hm => PortRun.response (by simpa using hm) _ _) fun _ hm => hm
    case hrdsmp =>
      rintro k rfl hphase -
      exact (sat_forChannels (G := fun m => PortRun (.rdsmp k) s m.env ∧ (m.slot k).alloc = (s.slot k).alloc)
        ⟨.start, rfl⟩ fun _ _ hc ⟨hm, halloc⟩ => hm.rdsmpChannel hphase hc halloc).mono
        (fun m ⟨hm, _⟩ => PortRun.response (by simpa [State.setCnt_eq] using hm) _ _) fun _ hm => hm
    case hcalc =>
      rintro f m rfl - hm
      rw [calcBody_eq] at hm
      cases hm
      exact PortRun.response (.record .start (.sinkAppend f _ _)) _ _
  rw [ht'] at h
  cases h
  exact hrun

/-! ### Who uses the ports (R52, R56, R57, R160) -/

theorem MayRecord.ne_bitsRead {s : State} {i : Instr} {ev : Event} (h : MayRecord s i ev) (n v : Nat) :
    ev ≠ .bitsRead n v := by
  rintro rfl
  cases h

/-- Only the three reading commands have a read to make. -/
theorem ReadWidth.reads {s : State} {i : Instr} {n : Nat} (h : ReadWidth s i n) :
    ∃ k, i = .rdalloc k ∨ i = .rdscf k ∨ i = .rdsmp k := by
  cases h with
  | rdalloc k => exact ⟨k, .inl rfl⟩
  | rdscf k => exact ⟨k, .inr (.inl rfl)⟩
  | @rdsmp k => exact ⟨k, .inr (.inr rfl)⟩

namespace PortRun

variable {i : Instr} {s : State} {e : Env}

theorem bits_eq (h : PortRun i s e) (hi : ∀ k, i ≠ .rdalloc k ∧ i ≠ .rdscf k ∧ i ≠ .rdsmp k) :
    e.bits = s.env.bits ∧ e.bitsConsumed = s.env.bitsConsumed := by
  induction h with
  | start => exact ⟨rfl, rfl⟩
  | record _ hev ih => rwa [bitsConsumed_record hev.ne_bitsRead]
  | read _ hn =>
    obtain ⟨k, hk⟩ := hn.reads
    obtain ⟨halloc, hscf, hsmp⟩ := hi k
    exact absurd hk (by simp [halloc, hscf, hsmp])

theorem crclog_eq (h : PortRun i s e) (hi : (∀ k, i ≠ .rdalloc k) ∨ s.crcen = false) :
    e.crclog = s.env.crclog := by
  induction h with
  | start => rfl
  | read _ _ _ ih => simpa [Env.crclog] using ih
  | record _ hev ih =>
    cases hev with
    | response => simpa [Env.crclog] using ih
    | sinkAppend => simpa [Env.crclog] using ih
    | crcAdd k _ _ hcrc => simp [hcrc] at hi

theorem sink_eq (h : PortRun i s e) (hi : ∀ f, i ≠ .calcPcm f) : e.sink = s.env.sink := by
  induction h with
  | start => rfl
  | read _ _ _ ih => simpa [Env.sink] using ih
  | record _ hev ih =>
    cases hev with
    | response => simpa [Env.sink] using ih
    | crcAdd => simpa [Env.sink] using ih
    | sinkAppend g => exact absurd rfl (hi g)

end PortRun

theorem keptAtPorts_far_ends (hdr : Header) (present : Bool) :
    KeptAtPorts fun e => e.header = hdr ∧ e.crcPresent = present where
  record _ _ _ h := h
  read _ _ _ _ _ h := h

/-- No command changes the header or the accumulator's presence (R55, R56). -/
theorem exec_far_ends_eq {i : Instr} {s t : State} (h : exec i s = .next t) :
    t.env.header = s.env.header ∧ t.env.crcPresent = s.env.crcPresent :=
  exec_keeps_env (keptAtPorts_far_ends _ _) h ⟨rfl, rfl⟩

/-- No command changes the host's queue. -/
theorem Effect.pending_eq {i : Instr} {s u : State} (h : Effect s i u) : u.pending = s.pending := by
  cases h <;> rfl

theorem exec_pending_eq {i : Instr} {s t : State} (h : exec i s = .next t) : t.pending = s.pending := by
  obtain ⟨u, hu, ht⟩ := ends_of_exec h
  rw [ht]
  exact hu.pending_eq

/-- Settles O49: of the events a command may record, only its own reach the ports it uses. -/
theorem portsHaveTheirUsers : Obligations.PortsHaveTheirUsers := fun _ _ _ h =>
  have hrun := exec_portRun h
  have ⟨hheader, hpresent⟩ := exec_far_ends_eq h
  ⟨hheader, hpresent, exec_pending_eq h, hrun.bits_eq, hrun.crclog_eq, hrun.sink_eq⟩

/-! ### How wide the reads are (R53, R7) -/

/-- In a state that can occur a code that has data is legal in a read pass, and so SampleLen is in its range. -/
theorem ReadWidth.range {s : State} {i : Instr} {n : Nat} (h : ReadWidth s i n) (hslots : SlotInv Config.cfg s) :
    1 ≤ n ∧ n ≤ 16 := by
  cases h with
  | rdalloc => exact Config.cfg.allocBits_range
  | rdscf => exact Config.cfg.scfBits_range
  | @rdsmp k c hphase hdata =>
    obtain ⟨hc, ha⟩ := hdata
    have hlegal := (hslots k).legal (.inl (by simp [hphase])) c hc
    exact Config.cfg.sampleLen_range k _ ha ((hslots k).alloc_lt c) hlegal

/-- Every read a command records has one of its widths, and a value that fits. -/
theorem PortRun.reads_recorded {i : Instr} {s : State} {e : Env} (h : PortRun i s e) :
    ∃ new, e.history = s.env.history ++ new ∧ ∀ n v, Event.bitsRead n v ∈ new → ReadWidth s i n ∧ v < 2 ^ n := by
  induction h with
  | start => exact ⟨[], by simp, by simp⟩
  | @record e ev _ hev ih =>
    obtain ⟨new, hnew, hreads⟩ := ih
    refine ⟨new ++ [ev], by simp [hnew], fun n v hmem => hreads n v ?_⟩
    simpa [(hev.ne_bitsRead n v).symm] using hmem
  | @read e n v _ hn hv ih =>
    obtain ⟨new, hnew, hreads⟩ := ih
    refine ⟨new ++ [.bitsRead n v], by simp [hnew], fun n' v' hmem => ?_⟩
    obtain hold | hlast := List.mem_append.mp hmem
    · exact hreads n' v' hold
    · cases List.mem_singleton.mp hlast
      exact ⟨hn, hv⟩

/-- Settles O59: the widths of a command's reads are in range by the configuration and the slot invariant. -/
theorem readWidthsAreInRange : Obligations.ReadWidthsAreInRange := by
  intro i s t _ hslots h
  obtain ⟨new, hnew, hreads⟩ := (exec_portRun h).reads_recorded
  refine ⟨new, hnew, fun n v hmem => ?_⟩
  obtain ⟨hn, hv⟩ := hreads n v hmem
  obtain ⟨hpos, hle⟩ := hn.range hslots
  exact ⟨hpos, hle, hv⟩

end Sys2Proof.Machine
end

section
/-! The family 30_encoding, the opcode map: a word as its fields (R70 to R75), the decoder row by row (R77, R78), and
the illegal words (R79). -/

namespace Sys2Proof

/-! ### A word as its fields (R70 to R75) -/

section
variable {m r n : Nat}

theorem append_inj {a a' : BitVec m} {b b' : BitVec n} : a ++ b = a' ++ b' ↔ a = a' ∧ b = b' := by
  refine ⟨fun h => ⟨?_, ?_⟩, fun ⟨ha, hb⟩ => by rw [ha, hb]⟩
  · rw [← BitVec.extractLsb'_append_eq_left (a := a) (b := b), h, BitVec.extractLsb'_append_eq_left]
  · rw [← BitVec.extractLsb'_append_eq_right (a := a) (b := b), h, BitVec.extractLsb'_append_eq_right]

variable (w : BitVec (m + r + n)) {op : BitVec m}

/-- Every word is its opcode, its reserved bits and its operand, one after the other. -/
theorem fields_append : w.extractLsb' (n + r) m ++ w.extractLsb' n r ++ w.extractLsb' 0 n = w := by
  rw [BitVec.extractLsb'_append_extractLsb'_eq_extractLsb' rfl, BitVec.extractLsb'_append_extractLsb']

/-- The mask of a row looks at the fields above the operand (R77). -/
theorem fields_iff_and_mask : w.extractLsb' (n + r) m = op ∧ w.extractLsb' n r = 0#r ↔
    w &&& (BitVec.allOnes m ++ BitVec.allOnes r ++ 0#n) = op ++ 0#r ++ 0#n := by
  conv_rhs => rw [← fields_append w, BitVec.and_append, BitVec.and_append, append_inj, append_inj]
  simp

/-- A word that fits a row's mask is made of the row's opcode, reserved zeros and its own operand. -/
theorem append_operand_of_and_mask
    (h : w &&& (BitVec.allOnes m ++ BitVec.allOnes r ++ 0#n) = op ++ 0#r ++ 0#n) :
    op ++ 0#r ++ w.extractLsb' 0 n = w := by
  obtain ⟨hop, hreserved⟩ := (fields_iff_and_mask w).mpr h
  rw [← hop, ← hreserved, fields_append]

end

/-! ### The decoder, row by row (R77, R78) -/

/-- What the decoder accepts fits a row of the map, and is the command the row builds. -/
theorem row_of_decode_ok {w : Word} {i : Instr} (h : decode w = .ok i) :
    ∃ row ∈ opTable, w &&& row.mask = row.value ∧ row.build w = i ∧ i.wellFormed = true := by
  unfold decode at h
  split at h
  · cases h
  next row hrow =>
    split_ifs at h with hfits hwf
    cases h
    exact ⟨row, List.mem_of_getElem? hrow, not_not.mp hfits, rfl, hwf⟩

/-- The decoder refuses a word whose opcode has a row if the word does not fit it, or builds no command. -/
theorem decode_error_iff_of_row {w : Word} {row : OpRow} (hrow : opTable[(fieldOp w).toNat]? = some row) :
    (∃ e, decode w = .error e) ↔ w &&& row.mask ≠ row.value ∨ (row.build w).wellFormed = false := by
  simp only [decode, hrow]
  split_ifs with hfits hwf
  · simp [hfits]
  · simp [hfits, hwf]
  · simp [hfits, hwf]

/-- The encoder puts back what a row's mask and operand field took out of a word: R71 to R75 agree with R77. -/
theorem encode_build {w : Word} {row : OpRow} (hrow : row ∈ opTable) (hfits : w &&& row.mask = row.value) :
    encode (row.build w) = w := by
  simp only [opTable, List.mem_cons, List.not_mem_nil, or_false] at hrow
  obtain rfl | rfl | rfl | rfl | rfl | rfl | rfl | rfl | rfl | rfl | rfl := hrow -- in opcode order, 0x0 to 0xA
  · exact hfits.symm.trans BitVec.and_allOnes
  · exact append_operand_of_and_mask (m := 4) (r := 10) (n := 2) w hfits
  · exact hfits.symm.trans BitVec.and_allOnes
  · exact append_operand_of_and_mask (m := 4) (r := 7) (n := 5) w hfits
  · exact hfits.symm.trans BitVec.and_allOnes
  · exact hfits.symm.trans BitVec.and_allOnes
  · exact append_operand_of_and_mask (m := 4) (r := 7) (n := 5) w hfits
  · exact append_operand_of_and_mask (m := 4) (r := 7) (n := 5) w hfits
  · exact append_operand_of_and_mask (m := 4) (r := 7) (n := 5) w hfits
  · exact append_operand_of_and_mask (m := 4) (r := 11) (n := 1) w hfits
  · exact append_operand_of_and_mask (m := 4) (r := 8) (n := 4) w hfits

/-- Settles O2: each command decodes from its own word. -/
theorem decodeOfEncodeIsTheCommand : Obligations.DecodeOfEncodeIsTheCommand
  | .nop => Laws.DecodeEncode.nop
  | .setup chsel => Laws.DecodeEncode.setup chsel
  | .frame => Laws.DecodeEncode.frame
  | .rdalloc k => Laws.DecodeEncode.rdalloc k
  | .sfsel => Laws.DecodeEncode.sfsel
  | .gate => Laws.DecodeEncode.gate
  | .rdscf k => Laws.DecodeEncode.rdscf k
  | .rdsmp k => Laws.DecodeEncode.rdsmp k
  | .put k => Laws.DecodeEncode.put k
  | .calcPcm f => Laws.DecodeEncode.calcPcm f
  | .rdcsr a => Laws.DecodeEncode.rdcsr a

/-- Settles O3: the row a word fits builds the command the word encodes, and a command's word decodes to it. -/
theorem decodedWordIsTheEncoding : Obligations.DecodedWordIsTheEncoding := by
  refine fun w i => ⟨fun h => ?_, fun ⟨hwf, hw⟩ => hw ▸ decodeOfEncodeIsTheCommand i hwf⟩
  obtain ⟨row, hrow, hfits, rfl, hwf⟩ := row_of_decode_ok h
  exact ⟨hwf, encode_build hrow hfits⟩

/-- Settles O1: the legal words are the encodings of their commands, and each other word fails its own check. -/
theorem specWordsDecode : Obligations.SpecWordsDecode := by
  unfold Obligations.SpecWordsDecode
  and_intros <;> rfl

/-! ### The illegal words (R79) -/

theorem opcode_cases (op : BitVec 4) : 0xB#4 ≤ op ∨ op ∈ [0x0#4, 0x2#4, 0x4#4, 0x5#4] ∨
    op ∈ [0x3#4, 0x6#4, 0x7#4, 0x8#4] ∨ op = 0x1#4 ∨ op = 0x9#4 ∨ op = 0xA#4 := by
  revert op
  decide

section
variable {w : Word}

theorem decode_error_of_reserved_opcode (hop : 0xB#4 ≤ w.extractLsb' 12 4) : ∃ e, decode w = .error e := by
  have hnone : opTable[(fieldOp w).toNat]? = none := List.getElem?_eq_none hop
  exact ⟨.reservedOpcode (fieldOp w), by simp only [decode, hnone]⟩

/-- Where every operand makes a command, the decoder refuses by the reserved bits alone. -/
theorem decode_error_iff_reserved {op : BitVec 4} {row : OpRow} {Zeros : Prop} (hop : w.extractLsb' 12 4 = op)
    (hrow : opTable[op.toNat]? = some row)
    (hfits : w.extractLsb' 12 4 = op ∧ Zeros ↔ w &&& row.mask = row.value)
    (hwf : (row.build w).wellFormed = true) : (∃ e, decode w = .error e) ↔ ¬ Zeros := by
  subst hop
  rw [decode_error_iff_of_row hrow, Ne, ← hfits]
  simp [hwf]

/-- Format Z (R71). -/
theorem decode_error_iff_formatZ (hop : w.extractLsb' 12 4 ∈ [0x0#4, 0x2#4, 0x4#4, 0x5#4]) :
    (∃ e, decode w = .error e) ↔ w.extractLsb' 0 12 ≠ 0 := by
  simp only [List.mem_cons, List.not_mem_nil, or_false] at hop
  obtain hop | hop | hop | hop := hop
  all_goals exact decode_error_iff_reserved hop rfl (fields_iff_and_mask (m := 4) (r := 12) (n := 0) w) rfl

/-- Format K (R72). -/
theorem decode_error_iff_formatK (hop : w.extractLsb' 12 4 ∈ [0x3#4, 0x6#4, 0x7#4, 0x8#4]) :
    (∃ e, decode w = .error e) ↔ w.extractLsb' 5 7 ≠ 0 := by
  simp only [List.mem_cons, List.not_mem_nil, or_false] at hop
  obtain hop | hop | hop | hop := hop
  all_goals exact decode_error_iff_reserved hop rfl (fields_iff_and_mask (m := 4) (r := 7) (n := 5) w) rfl

/-- Format F (R73). -/
theorem decode_error_iff_formatF (hop : w.extractLsb' 12 4 = 0x9#4) :
    (∃ e, decode w = .error e) ↔ w.extractLsb' 1 11 ≠ 0 :=
  decode_error_iff_reserved hop rfl (fields_iff_and_mask (m := 4) (r := 11) (n := 1) w) rfl

/-- Format C (R75). -/
theorem decode_error_iff_formatC (hop : w.extractLsb' 12 4 = 0xA#4) :
    (∃ e, decode w = .error e) ↔ w.extractLsb' 4 8 ≠ 0 :=
  decode_error_iff_reserved hop rfl (fields_iff_and_mask (m := 4) (r := 8) (n := 4) w) rfl

/-- Format S (R74), with its one reserved operand. -/
theorem decode_error_iff_formatS (hop : w.extractLsb' 12 4 = 0x1#4) :
    (∃ e, decode w = .error e) ↔ w.extractLsb' 2 10 ≠ 0 ∨ w = 0x1003#16 := by
  have hrow : opTable[(fieldOp w).toNat]? =
      some ⟨"SETUP", 0x1000#16, 0xFFFC#16, fun w => .setup (fieldChsel w)⟩ := by rw [fieldOp, hop]; rfl
  have hfits : w.extractLsb' 12 4 = 0x1#4 ∧ w.extractLsb' 2 10 = 0 ↔ w &&& 0xFFFC#16 = 0x1000#16 :=
    fields_iff_and_mask (m := 4) (r := 10) (n := 2) w
  have hchsel (hzeros : w.extractLsb' 2 10 = 0) : fieldChsel w = 3#2 ↔ w = 0x1003#16 := by
    refine ⟨fun h => ?_, fun h => h ▸ rfl⟩
    have hw : 0x1#4 ++ 0#10 ++ fieldChsel w = w :=
      append_operand_of_and_mask (m := 4) (r := 10) (n := 2) w (hfits.mp ⟨hop, hzeros⟩)
    rw [← hw, h]
    rfl
  rw [decode_error_iff_of_row hrow, Ne, ← hfits, Ne, ← or_congr_right' fun h => hchsel (not_not.mp h)]
  simp [hop, Instr.wellFormed]

end

/-- Settles O4: opcode by opcode, the row's mask refuses what its format reserves, and SETUP one operand more. -/
theorem illegalWordsAreExactlyTheReserved : Obligations.IllegalWordsAreExactlyTheReserved := by
  refine fun w => ⟨fun herror => ?_, ?_⟩
  · obtain hop | hZ | hK | hS | hF | hC := opcode_cases (w.extractLsb' 12 4)
    · exact .inl hop
    · exact .inr (.inl ⟨hZ, (decode_error_iff_formatZ hZ).mp herror⟩)
    · exact .inr (.inr (.inl ⟨hK, (decode_error_iff_formatK hK).mp herror⟩))
    · obtain hreserved | hw := (decode_error_iff_formatS hS).mp herror
      · exact .inr (.inr (.inr (.inl ⟨hS, hreserved⟩)))
      · exact .inr (.inr (.inr (.inr (.inr (.inr hw)))))
    · exact .inr (.inr (.inr (.inr (.inl ⟨hF, (decode_error_iff_formatF hF).mp herror⟩))))
    · exact .inr (.inr (.inr (.inr (.inr (.inl ⟨hC, (decode_error_iff_formatC hC).mp herror⟩)))))
  · rintro (hop | ⟨hZ, h⟩ | ⟨hK, h⟩ | ⟨hS, h⟩ | ⟨hF, h⟩ | ⟨hC, h⟩ | rfl)
    · exact decode_error_of_reserved_opcode hop
    · exact (decode_error_iff_formatZ hZ).mpr h
    · exact (decode_error_iff_formatK hK).mpr h
    · exact (decode_error_iff_formatS hS).mpr (.inl h)
    · exact (decode_error_iff_formatF hF).mpr h
    · exact (decode_error_iff_formatC hC).mpr h
    · exact ⟨.reservedChsel, rfl⟩

end Sys2Proof
end

section
/-! The family 30_encoding, the response (R81): each command answers once, with a value of its range. -/

namespace Sys2Proof.Machine

/-- The values R81 lets command `i` answer with beside `err`. -/
def ValueAllowed (i : Instr) (err : BitVec 4) (val : Word32) : Prop :=
  (err ≠ 0 → val = 0) ∧
  ((∃ k, i = .rdsmp k ∨ i = .put k) ∨ i = .gate → val = 0 ∨ val = 1) ∧
  ((∀ k, i ≠ .rdsmp k) → (∀ k, i ≠ .put k) → i ≠ .gate → (∀ a, i ≠ .rdcsr a) → val = 0)

/-- `t` has one response more than `s`, and command `i` may give it. -/
def AnswersOnce (i : Instr) (s t : State) : Prop :=
  ∃ err val, t.env.responses = s.env.responses ++ [(err, val)] ∧ ValueAllowed i err val

theorem valueAllowed_zero (i : Instr) (err : BitVec 4) : ValueAllowed i err 0 :=
  ⟨fun _ => rfl, fun _ => .inl rfl, fun _ _ _ _ => rfl⟩

theorem valueAllowed_csr (a : BitVec 4) (val : Word32) : ValueAllowed (.rdcsr a) 0 val := by
  simp [ValueAllowed]

theorem valueAllowed_boolVal {i : Instr} (hi : (∃ k, i = .rdsmp k ∨ i = .put k) ∨ i = .gate) (b : Bool) :
    ValueAllowed i 0 (boolVal b) := by
  refine ⟨fun h => absurd rfl h, fun _ => ?_, fun hsmp hput hgate _ => ?_⟩
  · cases b
    · exact .inl rfl
    · exact .inr rfl
  · simp [hsmp, hput, hgate] at hi

/-! ### What adds no response, and what adds one -/

/-- Since `s` no response has been given. -/
def Unanswered (s m : State) : Prop := m.env.responses = s.env.responses

section
variable {i : Instr} {s m : State} {k : BitVec 5} {c : Channel}

theorem AnswersOnce.response (hm : Unanswered s m) {err : BitVec 4} {val : Word32}
    (hval : ValueAllowed i err val) : AnswersOnce i s (m.emit (.response err val)) :=
  ⟨err, val, by simpa [Unanswered, Env.responses] using hm, hval⟩

theorem AnswersOnce.takeFault (hm : Unanswered s m) (f : FaultCode) (cmd : Word) :
    AnswersOnce i s (takeFault f cmd m) :=
  ⟨f.code, 0, by simpa [Unanswered, Env.responses] using hm, valueAllowed_zero i f.code⟩

theorem AnswersOnce.rdallocChannel (hm : Unanswered s m) :
    (rdallocChannel Config.cfg k c m).Sat (Unanswered s) (AnswersOnce i s) := by
  refine sat_rdallocChannel (fun _ => .takeFault hm _ _) fun _ a m' _ hm' => ?_
  have hread : Unanswered s m' := by
    subst hm'
    cases m.crcen <;> simpa [Unanswered, Env.responses] using hm
  exact ⟨fun _ => hread, fun _ => .takeFault (m := m'.setAlloc k c a) hread _ _⟩

theorem AnswersOnce.rdscfChannel (hm : Unanswered s m) :
    (rdscfChannel Config.cfg k c m).Sat (Unanswered s) (AnswersOnce i s) :=
  sat_rdscfChannel (fun _ => hm) (fun _ => .takeFault hm _ _) fun _ _ _ _ => by
    simpa [State.setScf_eq, Unanswered, Env.responses] using hm

theorem AnswersOnce.rdsmpChannel (hm : Unanswered s m) :
    (rdsmpChannel Config.cfg k c m).Sat (Unanswered s) (AnswersOnce i s) :=
  sat_rdsmpChannel (fun _ => hm) (.takeFault hm _ _) fun _ _ _ _ _ _ _ => by
    simpa [State.setBuf_eq, Unanswered, Env.responses] using hm

/-- Every command completes and answers once. -/
theorem exec_answersOnce (i : Instr) (s : State) : ∃ t, exec i s = .next t ∧ AnswersOnce i s t := by
  have hzero {m : State} (hm : Unanswered s m) : AnswersOnce i s (m.emit (.response 0 0)) :=
    .response hm (valueAllowed_zero i 0)
  have hfault (f : FaultCode) : AnswersOnce i s (Machine.takeFault f (encode i) s) := .takeFault rfl _ _
  apply exec_sat i s
  case hnop => exact fun _ => hzero rfl
  case hcsr => rintro a rfl; exact .response rfl (valueAllowed_csr a _)
  case hsticky => exact fun _ => .response rfl (valueAllowed_zero i _)
  case hill => exact fun _ _ => hfault .ill
  case hseq => exact fun _ _ => hfault .seq
  case hsetup => exact fun _ _ _ _ _ => hzero rfl
  case hframe => rintro rfl -; exact sat_frameBody (hfault .cfg) fun _ _ => hzero rfl
  case hsfsel => exact fun _ _ => hzero rfl
  case hgate => exact fun hi _ => .response rfl (valueAllowed_boolVal (.inr hi) _)
  case hput =>
    exact fun k hi _ _ => .response (by simp [Unanswered]) (valueAllowed_boolVal (.inl ⟨k, .inr hi⟩) putDone)
  case hrdalloc =>
    exact fun _ _ _ _ => (sat_forChannels (G := Unanswered s) rfl fun _ _ _ => AnswersOnce.rdallocChannel).mono
      (fun m hm => hzero (by simpa [Unanswered] using hm)) fun _ hm => hm
  case hrdscf =>
    exact fun _ _ _ _ => (sat_forChannels (G := Unanswered s) rfl fun _ _ _ => AnswersOnce.rdscfChannel).mono
      (fun m hm => hzero (by simpa [Unanswered] using hm)) fun _ hm => hm
  case hrdsmp =>
    exact fun k hi _ _ => (sat_forChannels (G := Unanswered s) rfl fun _ _ _ => AnswersOnce.rdsmpChannel).mono
      (fun m hm => .response (by simpa [State.setCnt_eq, Unanswered] using hm)
        (valueAllowed_boolVal (.inl ⟨k, .inl hi⟩) _)) fun _ hm => hm
  case hcalc =>
    intro f m _ _ hm
    rw [calcBody_eq] at hm
    cases hm
    exact hzero (by simp [Unanswered, Env.responses])

end

/-- Settles O44: in each way a command can end, one response is added. -/
theorem everyCommandAnswersOnce : Obligations.EveryCommandAnswersOnce := fun i s =>
  have ⟨t, ht, err, val, hresponses, hval⟩ := exec_answersOnce i s
  ⟨t, err, val, ht, hresponses, hval⟩

end Sys2Proof.Machine
end

section
/-! The family 40_frame_control: a command its phase does not accept (R90), and what SETUP, FRAME, SFSEL and GATE do in
theirs (R91 to R100). -/

namespace Sys2Proof.Machine

open Sys2Proof.Claims

/-! ### A command that is not accepted (R90) -/

/-- Outside FAULTED, a command that is not accepted raises SEQ, because each other way it could end is an accepted
command's or an illegal word's. -/
theorem exec_of_not_accepts {i : Instr} {s : State} (hwf : i.wellFormed = true) (hphase : s.phase ≠ .faulted)
    (haccepts : ¬ Accepts s i) : exec i s = .next (takeFault .seq (encode i) s) := by
  obtain ⟨t, ht, rfl⟩ : ∃ t, exec i s = .next t ∧ t = takeFault .seq (encode i) s := by
    apply exec_sat i s
    case hseq => exact fun _ _ => rfl
    case hsticky => exact fun hfaulted => absurd hfaulted hphase
    case hill => exact fun hill => absurd (hwf.symm.trans hill) (by decide)
    case hnop => rintro rfl; exact absurd trivial haccepts
    case hcsr => rintro a rfl; exact absurd trivial haccepts
    case hsetup =>
      rintro c sel rfl - hp
      exact absurd ⟨hp, by simpa [Instr.wellFormed] using hwf⟩ haccepts
    case hframe => rintro rfl hp; exact absurd hp haccepts
    case hsfsel => rintro rfl hp; exact absurd hp haccepts
    case hgate => rintro rfl hp; exact absurd hp haccepts
    case hrdalloc => rintro k rfl hp hk; exact absurd ⟨hp, hk⟩ haccepts
    case hrdscf => rintro k rfl hp hk; exact absurd ⟨hp, hk⟩ haccepts
    case hrdsmp => rintro k rfl hp hk; exact absurd ⟨hp, hk⟩ haccepts
    case hput => rintro k rfl hp hk; exact absurd ⟨hp, hk⟩ haccepts
    case hcalc => rintro f m rfl hp -; exact absurd hp haccepts
  exact ht

/-! ### SETUP (R91) -/

theorem exec_setup_of_unconf {c : BitVec 2} {sel : ChSel} {s : State} (hphase : s.phase = .unconf)
    (hsel : selectionOf c = some sel) :
    exec (.setup c) s = .next ((setSeq .idle 0 { s with chsel := sel, conf := true }).emit (.response 0 0)) := by
  simp only [exec, execSetup, hsel]
  rw [accept_right hphase (by decide)]
  rfl

theorem setup_wellFormed {c : BitVec 2} (hc : c ≠ 3) : (Instr.setup c).wellFormed = true :=
  bne_iff_ne.mpr hc

/-- Settles O18: SETUP in its phase, in another phase, its words, and the word of no selection. -/
theorem setupLatchesTheSelection : Obligations.SetupLatchesTheSelection := by
  refine ⟨?_, fun c s hc hphase hfaulted => ?_, fun c hc => ?_, .reservedChsel, rfl⟩
  · rintro _ sel s hphase rfl
    exact exec_setup_of_unconf hphase (selectionOf_code sel)
  · rw [← encode_setup]
    exact exec_of_not_accepts (setup_wellFormed hc) hfaulted fun h => hphase h.1
  · rw [← encode_setup]
    exact Laws.DecodeEncode.setup c (setup_wellFormed hc)

/-! ### FRAME (R93, R94) -/

/-- The two CFG checks let a valid header pass (R93). -/
theorem frameBody_of_valid {s : State} (hn : s.env.header.n.toNat ≤ 32)
    (hbound : s.env.header.mode = 1 → s.env.header.bound.toNat ≤ s.env.header.n.toNat) :
    frameBody s = .go (startFrame s) := by
  have hcount : ¬ 32 < (hdrN s).toNat := Nat.not_lt.mpr hn
  have hjoint : ¬ (hdrMode s = 1#2 ∧ (hdrN s).toNat < (hdrBound s).toNat) :=
    fun ⟨hm, hlt⟩ => Nat.not_lt.mpr (hbound hm) hlt
  rw [frameBody, if_neg hcount, if_neg hjoint]

theorem exec_frame_of_idle {s : State} (hphase : s.phase = .idle) :
    exec .frame s = .next (frameBody s).finish := by
  rw [exec, execFrame, accept_right hphase (by decide), CmdFlow.andThen_go]

/-- Settles O19: with a valid header FRAME completes, and its record update leaves the slot file to be read. -/
theorem frameInstantiatesTheSlots : Obligations.FrameInstantiatesTheSlots := by
  intro s hphase hn hbound
  refine ⟨(startFrame s).emit (.response 0 0), ?_, rfl, fun k => ?_⟩
  · rw [exec_frame_of_idle hphase, frameBody_of_valid hn hbound, CmdFlow.finish_go]
  · rw [State.slot_emit, slot_startFrame]
    rfl

/-! ### The variant of a slot (R95, R96) -/

/-- Below the count the document's four cases are three: joint stereo differs from the other stereo modes only at and
above the boundary (R95). -/
theorem variant_of_lt {k n b : Nat} {m : BitVec 2} (h : k < n) : variant k n m b =
    if m = 3 then .mono else if m = 1 ∧ b ≤ k then .intensity else .stereo := by
  rw [variant, if_neg (Nat.not_le.mpr h)]
  by_cases hb : b ≤ k
  · simp [hb, Nat.not_lt.mpr hb]
  · simp [hb]

/-- Settles O20: at and above the count, case by case below it, and without joint stereo the boundary is not looked
at. -/
theorem variantFollowsTheMode : Obligations.VariantFollowsTheMode := by
  intro k n b m
  refine ⟨variant_eq_none_iff.mpr, fun hk hm => ?_, fun hk hm hb => ?_, fun hk hm hb => ?_, fun hk hm => ?_,
    fun hk => ⟨?_, ?_⟩, fun hm b' => variant_bound fun h => absurd h hm⟩
  · simp [variant_of_lt hk, hm]
  · simp [variant_of_lt hk, hm, hb]
  · simp [variant_of_lt hk, hm, hb]
  · obtain rfl | rfl := hm <;> simp [variant_of_lt hk]
  · simp [variant_of_lt hk]
  · simp [variant_of_lt hk, hk]

/-! ### SFSEL (R97) -/

theorem exec_sfsel_of_sfsel {s : State} (hphase : s.phase = .sfsel) :
    exec .sfsel s = .next ((setSeq .gate 0 s).emit (.response 0 0)) := by
  rw [exec, execSfsel, accept_right hphase (by decide), CmdFlow.andThen_go, CmdFlow.finish_go]

/-- Settles O22: SFSEL in its phase, and three commands that are not accepted. -/
theorem sfselOnlyAdvances : Obligations.SfselOnlyAdvances := by
  refine ⟨rfl, fun s => exec_sfsel_of_sfsel, fun s hphase hfaulted => exec_of_not_accepts rfl hfaulted hphase,
    fun s hphase => ⟨?_, fun k => ?_⟩⟩
  · exact exec_of_not_accepts rfl (by simp [hphase]) (by simp [Accepts, hphase])
  · have hword : wordK 0x6000 k = encode (.rdscf k) := (encode_rdscf k).symm
    rw [hword]
    exact exec_of_not_accepts rfl (by simp [hphase]) (by simp [Accepts, hphase])

/-! ### GATE (R99, R100) -/

theorem gateOpen_eq (s : State) : gateOpen s = if s.crcen = false then true else s.env.header.ckvalid := by
  cases h : s.crcen <;> simp [gateOpen, hdrCkvalid, h]

theorem gateBody_eq (s : State) : gateBody s =
    answer (boolVal (gateOpen s)) (setSeq (if gateOpen s = false ∨ s.n = 0 then .idle else .scf) 0
      { s with gateok := gateOpen s }) := by
  simp only [gateBody]
  split <;> rfl

theorem exec_gate_of_gate {s : State} (hphase : s.phase = .gate) : exec .gate s =
    .next ((setSeq (if gateOpen s = false ∨ s.n = 0 then .idle else .scf) 0 { s with gateok := gateOpen s }).emit
      (.response 0 (boolVal (gateOpen s)))) := by
  rw [exec, execGate, accept_right hphase (by decide), CmdFlow.andThen_go, gateBody_eq, answer_eq, CmdFlow.finish_done]

/-- Settles O23: GATE in its phase, with the outcome written out, and not accepted in another. -/
theorem gateDecidesTheFrame : Obligations.GateDecidesTheFrame := by
  refine ⟨rfl, fun s ok hphase hok => ?_, fun s hphase hfaulted => exec_of_not_accepts rfl hfaulted hphase⟩
  obtain rfl : ok = gateOpen s := hok.trans (gateOpen_eq s).symm
  exact exec_gate_of_gate hphase

end Sys2Proof.Machine
end

section
/-! The family 41_subband_read: what RDALLOC, RDSCF and RDSMP read, store and count, where a stream too short or an
illegal code stops them (R110 to R121), and the common answer of a read pass (R118). -/

namespace Sys2Proof.Machine

open Sys2Proof.Claims

/-! ### The end of a command of a pass -/

/-- The sequencer advances and the answer is recorded (R13, R81). -/
theorem advance_emit_response {here next : Phase} {m : State} (hphase : m.phase = here) (val : Word32) :
    (advance next m).emit (.response 0 val) =
      { logged m [.response 0 val] with phase := passPhase m here next, idx := passIdx m } := by
  rw [advance_eq_pass, hphase]
  rfl

/-! ### The channel loop of an accepted reading command, and what it leads to -/

theorem Tag.nch_pos {t : Tag} (h : t ≠ .none) : 0 < t.nch := by
  cases t with
  | none => exact absurd rfl h
  | mono | stereo | intensity => decide

/-- A first channel that ends the command ends the loop (R110, R12). -/
theorem forChannels_of_first_done {n : Nat} {body : Channel → State → CmdFlow} {s t : State} (hn : 0 < n)
    (h : body 0 s = .done t) : forChannels n body s = .done t := by
  rw [forChannels, if_pos hn, h, CmdFlow.andThen_done]

section
variable {cfg : Cfg} {k : BitVec 5} {s : State}

theorem execRdallocWith_of_alloc (hphase : s.phase = .alloc) (hk : k = s.idx) : execRdallocWith cfg k s =
    .next ((forChannels (s.slot k).tag.nch (rdallocChannel cfg k) s).andThen
      fun m => .go (advance .sfsel m)).finish := by
  rw [execRdallocWith, acceptAt_right hphase (by decide) hk, CmdFlow.andThen_go]

theorem execRdscfWith_of_scf (hphase : s.phase = .scf) (hk : k = s.idx) : execRdscfWith cfg k s =
    .next ((forChannels (s.slot k).tag.nch (rdscfChannel cfg k) s).andThen
      fun m => .go (advance .read m)).finish := by
  rw [execRdscfWith, acceptAt_right hphase (by decide) hk, CmdFlow.andThen_go]

theorem execRdsmpWith_of_read (hphase : s.phase = .read) (hk : k = s.idx) : execRdsmpWith cfg k s =
    .next ((forChannels (s.slot k).tag.nch (rdsmpChannel cfg k) s).andThen (rdsmpEnd cfg k)).finish := by
  rw [execRdsmpWith, acceptAt_right hphase (by decide) hk, CmdFlow.andThen_go]

end

/-! ### Bits consumed and events recorded -/

section
variable (s : State) (rest : List Bool) (events : List Event)

theorem consumed_nothing : consumed s s.env.bits [] = s := by
  simp [consumed]

theorem readBits_consumed {cmd : Word} {n : Nat} {s : State} {next : Nat → State → CmdFlow}
    (h : n ≤ s.env.bits.length) : readBits cmd n s next = next (bitsVal (s.env.bits.take n))
      (consumed s (s.env.bits.drop n) [.bitsRead n (bitsVal (s.env.bits.take n))]) :=
  readBits_enough h

/-- A code fed to the accumulator is one more event (R111). -/
theorem crcAdd_consumed (a n : Nat) :
    (if s.crcen then crcAdd a n (consumed s rest events) else consumed s rest events) =
      consumed s rest (events ++ if s.crcen then [.crcAdd a n] else []) := by
  cases s.crcen <;> simp [crcAdd, State.emit, consumed]

/-- Two reads into one slot: the second cursor and slot stand, and the events add up. -/
theorem consumed_setSlot_twice (k : BitVec 5) (x y : Slot) (rest' : List Bool) (events' : List Event) :
    (consumed ((consumed s rest events).setSlot k x) rest' events').setSlot k y =
      (consumed s rest' (events ++ events')).setSlot k y := by
  simp [consumed, State.setSlot]

end

/-! ### RDALLOC (R111, R112) -/

section
variable {cfg : Cfg} {k : BitVec 5} {c : Channel} {s : State} {a b : Nat}

@[simp] theorem codeStored_bits (rest : List Bool) : (codeStored cfg s k c a rest).env.bits = rest := rfl

theorem rdallocChannel_short (h : s.env.bits.length < cfg.allocBits) :
    rdallocChannel cfg k c s = .done (takeFault .eod (wordK 0x3000 k) s) := by
  rw [rdallocChannel, readBits_short h, encode_rdalloc]
  rfl

/-- With enough bits the code is consumed, fed to the accumulator and stored; its legality is checked after that. -/
theorem rdallocChannel_enough (h : cfg.allocBits ≤ s.env.bits.length)
    (ha : a = bitsVal (s.env.bits.take cfg.allocBits)) :
    rdallocChannel cfg k c s =
      if cfg.allocLegal a then .go (codeStored cfg s k c a (s.env.bits.drop cfg.allocBits))
      else .done (takeFault .fmt (wordK 0x3000 k) (codeStored cfg s k c a (s.env.bits.drop cfg.allocBits))) := by
  subst ha
  rw [rdallocChannel, readBits_consumed h, encode_rdalloc]
  generalize bitsVal _ = a
  have hcrc := crcAdd_consumed s (s.env.bits.drop cfg.allocBits) [.bitsRead cfg.allocBits a] a cfg.allocBits
  change (if cfg.allocLegal a then .go (State.setAlloc (if s.crcen then _ else _) k c a)
    else raise .fmt _ (State.setAlloc (if s.crcen then _ else _) k c a)) = _
  rw [hcrc]
  rfl

/-- The loop on a STEREO slot comes to channel 1 when channel 0's code is there and legal (R110). -/
theorem rdallocLoop_stereo (htag : (s.slot k).tag = .stereo) (h : cfg.allocBits ≤ s.env.bits.length)
    (ha : a = bitsVal (s.env.bits.take cfg.allocBits)) (hl : cfg.allocLegal a = true) :
    forChannels (s.slot k).tag.nch (rdallocChannel cfg k) s =
      rdallocChannel cfg k 1 (codeStored cfg s k 0 a (s.env.bits.drop cfg.allocBits)) := by
  rw [htag, Tag.nch, forChannels_two, rdallocChannel_enough h ha, if_pos hl, CmdFlow.andThen_go]

/-- Channel 1 on the bits channel 0 left. -/
theorem rdallocChannel_second (h : 2 * cfg.allocBits ≤ s.env.bits.length)
    (hb : b = bitsVal ((s.env.bits.drop cfg.allocBits).take cfg.allocBits)) :
    rdallocChannel cfg k 1 (codeStored cfg s k 0 a (s.env.bits.drop cfg.allocBits)) =
      if cfg.allocLegal b then
        .go (codeStored cfg (codeStored cfg s k 0 a (s.env.bits.drop cfg.allocBits)) k 1 b
          (s.env.bits.drop (2 * cfg.allocBits)))
      else .done (takeFault .fmt (wordK 0x3000 k)
        (codeStored cfg (codeStored cfg s k 0 a (s.env.bits.drop cfg.allocBits)) k 1 b
          (s.env.bits.drop (2 * cfg.allocBits)))) := by
  rw [rdallocChannel_enough (by rw [codeStored_bits, List.length_drop]; omega) hb, codeStored_bits, List.drop_drop,
    ← Nat.two_mul]

theorem exec_rdalloc_of_loop_go {m : State} (hphase : s.phase = .alloc) (hk : k = s.idx)
    (hloop : forChannels (s.slot k).tag.nch (rdallocChannel Config.cfg k) s = .go m) (hm : m.phase = .alloc) :
    exec (.rdalloc k) s = .next { logged m [.response 0 0] with
      phase := passPhase m .alloc .sfsel, idx := passIdx m } := by
  rw [exec, execRdalloc, execRdallocWith_of_alloc hphase hk, hloop, CmdFlow.andThen_go, CmdFlow.finish_go,
    advance_emit_response hm]

theorem execRdallocWith_of_loop_done {t : State} (hphase : s.phase = .alloc) (hk : k = s.idx)
    (hloop : forChannels (s.slot k).tag.nch (rdallocChannel cfg k) s = .done t) :
    execRdallocWith cfg k s = .next t := by
  rw [execRdallocWith_of_alloc hphase hk, hloop, CmdFlow.andThen_done, CmdFlow.finish_done]

end

/-- Settles O24: the loop is its first channel. -/
theorem rdallocReadsOneCode : Obligations.RdallocReadsOneCode := by
  intro k s a hphase hk htag h ha hl
  have hnch : (s.slot k).tag.nch = 1 := by obtain e | e := htag <;> rw [e] <;> rfl
  refine exec_rdalloc_of_loop_go hphase hk ?_ hphase
  rw [hnch, forChannels_one, rdallocChannel_enough h ha, if_pos hl]

/-- Settles O25: channel 0, then channel 1 on the bits it left. -/
theorem rdallocReadsTwoCodes : Obligations.RdallocReadsTwoCodes := by
  intro k s a b hphase hk htag h ha hb hla hlb
  refine exec_rdalloc_of_loop_go hphase hk ?_ hphase
  rw [rdallocLoop_stereo htag (by omega) ha hla, rdallocChannel_second h hb, if_pos hlb]

/-- Settles O26: the code of either channel is stored before it is checked. -/
theorem rdallocRaisesFmt : Obligations.RdallocRaisesFmt := by
  refine ⟨fun _ _ => rfl, fun cfg k s a b hphase hk ha hb => ⟨fun htag h hl => ?_, fun htag h hla hlb => ?_⟩⟩
  · refine execRdallocWith_of_loop_done hphase hk (forChannels_of_first_done (Tag.nch_pos htag) ?_)
    rw [rdallocChannel_enough h ha, if_neg (by simp [hl])]
  · refine execRdallocWith_of_loop_done hphase hk ?_
    rw [rdallocLoop_stereo htag (by omega) ha hla, rdallocChannel_second h hb, if_neg (by simp [hlb])]

/-- Settles O27: the first read too short ends the command where it stands. -/
theorem rdallocRaisesEod : Obligations.RdallocRaisesEod := by
  refine fun k s a hphase hk ha => ⟨fun htag hshort => ?_, fun htag h hshort hl => ?_⟩
  · exact execRdallocWith_of_loop_done hphase hk
      (forChannels_of_first_done (Tag.nch_pos htag) (rdallocChannel_short hshort))
  · refine execRdallocWith_of_loop_done hphase hk ?_
    rw [rdallocLoop_stereo htag h ha hl]
    refine rdallocChannel_short ?_
    rw [codeStored_bits, List.length_drop]
    omega

/-! ### A channel that is read where it has data (R114, R115, R117, R120) -/

/-- A channel of RDSCF or RDSMP: where there is data, `len` bits are read and `write` puts them into the slot. -/
def dataChannel (cmd : Word) (len : Nat) (write : Nat → Slot → Slot) (k : BitVec 5) (c : Channel) (s : State) :
    CmdFlow :=
  if (s.slot k).alloc[c.val] ≠ 0 then
    readBits cmd len s fun v m => .go (m.setSlot k (write v (m.slot k)))
  else .go s

/-- The loop body of RDSCF or RDSMP on slot `k`: its channels are `dataChannel`s as long as the slot's allocation is the
one it has in `s`, and what they write is neither tag nor allocation. -/
structure ReadsData (s : State) (k : BitVec 5) (cmd : Word) (len : Channel → Nat)
    (write : Channel → Nat → Slot → Slot) (body : Channel → State → CmdFlow) : Prop where
  body_eq : ∀ c m, (m.slot k).alloc = (s.slot k).alloc → body c m = dataChannel cmd (len c) (write c) k c m
  tag_eq : ∀ c v x, (write c v x).tag = x.tag
  alloc_eq : ∀ c v x, (write c v x).alloc = x.alloc

/-- Slot `x` after channel `c`'s bits `v` have been put in, where the channel has data in `s`. -/
def dataSlot (s : State) (k : BitVec 5) (c : Channel) (write : Nat → Slot → Slot) (v : Nat) (x : Slot) : Slot :=
  if HasData s k c then write v x else x

/-- The state after channel `c` has been read where it has data. -/
def dataStored (s : State) (k : BitVec 5) (c : Channel) (len : Nat) (write : Nat → Slot → Slot) (v : Nat) : State :=
  (consumed s (s.env.bits.drop (width s k c len)) (readEvent s k c len v)).setSlot k
    (dataSlot s k c write v (s.slot k))

section
variable {s m : State} {k : BitVec 5} {c : Channel} {len : Nat} {write : Nat → Slot → Slot}

@[simp] theorem dataStored_bits (v : Nat) :
    (dataStored s k c len write v).env.bits = s.env.bits.drop (width s k c len) := rfl

@[simp] theorem dataStored_slot (v : Nat) :
    (dataStored s k c len write v).slot k = dataSlot s k c write v (s.slot k) := State.slot_setSlot_self ..

theorem dataStored_of_not_hasData (h : ¬ HasData s k c) (v : Nat) : dataStored s k c len write v = s := by
  rw [dataStored, width, readEvent, dataSlot, if_neg h, if_neg h, if_neg h, List.drop_zero, consumed_nothing,
    State.setSlot_slot_self]

/-- A channel the slot has, with enough bits for it. -/
theorem dataChannel_enough {cmd : Word} (hc : c.val < (s.slot k).tag.nch)
    (h : width s k c len ≤ s.env.bits.length) : dataChannel cmd len write k c s =
      .go (dataStored s k c len write (bitsVal (s.env.bits.take (width s k c len)))) := by
  by_cases hd : HasData s k c
  · rw [width, if_pos hd] at h
    rw [dataChannel, if_pos hd.2, readBits_consumed h, dataStored, width, readEvent, dataSlot, if_pos hd, if_pos hd,
      if_pos hd]
    rfl
  · rw [dataChannel, if_neg fun ha => hd ⟨hc, ha⟩, dataStored_of_not_hasData hd]

theorem dataChannel_short {cmd : Word} (hd : HasData s k c) (h : s.env.bits.length < len) :
    dataChannel cmd len write k c s = .done (takeFault .eod cmd s) := by
  rw [dataChannel, if_pos hd.2, readBits_short h]

/-- Which channels have data is a matter of the slot's tag and allocation. -/
theorem hasData_congr (htag : (m.slot k).tag = (s.slot k).tag) (halloc : (m.slot k).alloc = (s.slot k).alloc)
    (c : Channel) : HasData m k c ↔ HasData s k c := by
  rw [HasData, HasData, htag]
  simp only [halloc]

end

section
variable {s : State} {k : BitVec 5} {cmd : Word} {len : Channel → Nat} {write : Channel → Nat → Slot → Slot}
  {body : Channel → State → CmdFlow}

namespace ReadsData

/-- One turn of the loop with enough bits, whether the slot has the channel or not. -/
theorem turn_enough (hb : ReadsData s k cmd len write body) {m : State}
    (htag : (m.slot k).tag = (s.slot k).tag) (halloc : (m.slot k).alloc = (s.slot k).alloc) (c : Channel)
    (h : width m k c (len c) ≤ m.env.bits.length) :
    (if c.val < (s.slot k).tag.nch then body c m else .go m) =
      .go (dataStored m k c (len c) (write c) (bitsVal (m.env.bits.take (width m k c (len c))))) := by
  by_cases hc : c.val < (s.slot k).tag.nch
  · rw [if_pos hc, hb.body_eq c m halloc, dataChannel_enough (htag ▸ hc) h]
  · rw [if_neg hc, dataStored_of_not_hasData fun hd => hc (htag ▸ hd.1)]

variable (hb : ReadsData s k cmd len write body)
include hb

/-- A read leaves tag and allocation alone. -/
theorem dataStored_keeps (c : Channel) (v : Nat) :
    ((dataStored s k c (len c) (write c) v).slot k).tag = (s.slot k).tag ∧
    ((dataStored s k c (len c) (write c) v).slot k).alloc = (s.slot k).alloc := by
  rw [dataStored_slot, dataSlot]
  split
  · exact ⟨hb.tag_eq c v _, hb.alloc_eq c v _⟩
  · exact ⟨rfl, rfl⟩

/-- A stream too short for channel 0 ends the loop with nothing consumed (R194). -/
theorem loop_short_first (hd : HasData s k 0) (h : s.env.bits.length < len 0) :
    forChannels (s.slot k).tag.nch body s = .done (takeFault .eod cmd s) :=
  forChannels_of_first_done hd.1 ((hb.body_eq 0 s rfl).trans (dataChannel_short hd h))

section
variable {m : State} (hm : m = dataStored s k 0 (len 0) (write 0) (bitsVal (s.env.bits.take (width s k 0 (len 0)))))
include hm

/-- With enough bits for channel 0 the loop comes to channel 1. -/
theorem loop_first (h : width s k 0 (len 0) ≤ s.env.bits.length) : forChannels (s.slot k).tag.nch body s =
    if (1 : Channel).val < (s.slot k).tag.nch then body 1 m else .go m := by
  have hfirst := hb.turn_enough rfl rfl 0 h
  rw [← hm] at hfirst
  rw [forChannels, show (if 0 < (s.slot k).tag.nch then body 0 s else .go s) = .go m from hfirst, CmdFlow.andThen_go]
  rfl

/-- A stream too short for channel 1 ends the loop with channel 0's read done (R194, R199). -/
theorem loop_short_second (h : width s k 0 (len 0) ≤ s.env.bits.length) (hd : HasData s k 1)
    (hshort : s.env.bits.length < width s k 0 (len 0) + len 1) :
    forChannels (s.slot k).tag.nch body s = .done (takeFault .eod cmd m) := by
  obtain ⟨htag, halloc⟩ := hb.dataStored_keeps 0 (bitsVal (s.env.bits.take (width s k 0 (len 0))))
  rw [← hm] at htag halloc
  have hbits : m.env.bits = s.env.bits.drop (width s k 0 (len 0)) := by rw [hm, dataStored_bits]
  rw [hb.loop_first hm h, if_pos hd.1, hb.body_eq 1 m halloc]
  refine dataChannel_short ((hasData_congr htag halloc 1).mpr hd) ?_
  rw [hbits, List.length_drop]
  omega

end

/-- With enough bits for both channels the loop reads them one after the other (R110). -/
theorem loop_enough {p q : Nat} (h : width s k 0 (len 0) + width s k 1 (len 1) ≤ s.env.bits.length)
    (hp : p = bitsVal (s.env.bits.take (width s k 0 (len 0))))
    (hq : q = bitsVal ((s.env.bits.drop (width s k 0 (len 0))).take (width s k 1 (len 1)))) :
    forChannels (s.slot k).tag.nch body s =
      .go ((consumed s (s.env.bits.drop (width s k 0 (len 0) + width s k 1 (len 1)))
        (readEvent s k 0 (len 0) p ++ readEvent s k 1 (len 1) q)).setSlot k
          (dataSlot s k 1 (write 1) q (dataSlot s k 0 (write 0) p (s.slot k)))) := by
  obtain ⟨m, hm⟩ : ∃ m, m = dataStored s k 0 (len 0) (write 0) p := ⟨_, rfl⟩
  obtain ⟨htag, halloc⟩ := hb.dataStored_keeps 0 p
  rw [← hm] at htag halloc
  have hbits : m.env.bits = s.env.bits.drop (width s k 0 (len 0)) := by rw [hm, dataStored_bits]
  have hslot : m.slot k = dataSlot s k 0 (write 0) p (s.slot k) := by rw [hm, dataStored_slot]
  have hdata := hasData_congr htag halloc 1
  have hwidth : width m k 1 (len 1) = width s k 1 (len 1) := by simp only [width, hdata]
  rw [hb.loop_first (hp ▸ hm) (by omega),
    hb.turn_enough htag halloc 1 (by rw [hwidth, hbits, List.length_drop]; omega), hwidth, hbits, ← hq, dataStored,
    hwidth, hbits, List.drop_drop, hslot]
  simp only [readEvent, dataSlot, hdata]
  rw [hm]
  exact congrArg CmdFlow.go (consumed_setSlot_twice ..)

end ReadsData
end

/-! ### RDSCF (R114, R115) -/

/-- RDSCF puts an index into the slot (R114). -/
def writeScf (c : Channel) (v : Nat) (x : Slot) : Slot := { x with scf := x.scf.set c.val v }

theorem rdscfChannel_readsData (cfg : Cfg) (s : State) (k : BitVec 5) :
    ReadsData s k (wordK 0x6000 k) (fun _ => cfg.scfBits) writeScf (rdscfChannel cfg k) where
  body_eq c m _ := by
    rw [rdscfChannel, encode_rdscf]
    rfl
  tag_eq _ _ _ := rfl
  alloc_eq _ _ _ := rfl

theorem dataSlot_writeScf (s : State) (k : BitVec 5) (c : Channel) (v : Nat) (x : Slot) :
    dataSlot s k c (writeScf c) v x = { x with scf := if HasData s k c then x.scf.set c.val v else x.scf } := by
  unfold dataSlot
  split <;> rfl

/-- Settles O28: the loop, and then the sequencer. -/
theorem rdscfReadsWhereThereIsData : Obligations.RdscfReadsWhereThereIsData := by
  rintro k s _ _ u v _ hphase hk rfl rfl h hu hv rfl
  rw [exec, execRdscf, execRdscfWith_of_scf hphase hk,
    (rdscfChannel_readsData Config.cfg s k).loop_enough h hu hv, CmdFlow.andThen_go, CmdFlow.finish_go,
    dataSlot_writeScf, dataSlot_writeScf, advance_emit_response (here := .scf)]
  · rfl
  · exact hphase

/-- Settles O29: the two places a stream can be too short in. -/
theorem rdscfRaisesEod : Obligations.RdscfRaisesEod := by
  rintro k s _ _ hphase hk rfl rfl
  have hb := rdscfChannel_readsData Config.cfg s k
  refine ⟨fun hd h => ?_, fun hd h hshort => ?_⟩
  · rw [exec, execRdscf, execRdscfWith_of_scf hphase hk, hb.loop_short_first hd h]
    rfl
  · rw [exec, execRdscf, execRdscfWith_of_scf hphase hk, hb.loop_short_second rfl h hd hshort, dataStored,
      dataSlot_writeScf]
    rfl

/-! ### RDSMP (R117, R118, R120) -/

/-- RDSMP puts a finished sample into the slot (R117). -/
def writeSample (cfg : Cfg) (k : BitVec 5) (c : Channel) (q : Nat) (x : Slot) : Slot :=
  { x with buf := x.buf.set c.val (sampleValue cfg k x.alloc[c.val] q x.scf[c.val]) }

theorem rdsmpChannel_readsData (cfg : Cfg) (s : State) (k : BitVec 5) :
    ReadsData s k (wordK 0x7000 k) (fun c => cfg.sampleLen k (s.slot k).alloc[c.val]) (writeSample cfg k)
      (rdsmpChannel cfg k) where
  body_eq c m halloc := by
    rw [rdsmpChannel, encode_rdsmp, ← halloc, dataChannel]
    by_cases h : cfg.sampleLen k (m.slot k).alloc[c.val] ≤ m.env.bits.length
    · rw [readBits_enough h, readBits_enough h]
      rfl
    · rw [readBits_short (by omega), readBits_short (by omega)]
      rfl
  tag_eq _ _ _ := rfl
  alloc_eq _ _ _ := rfl

theorem dataSlot_writeSample (cfg : Cfg) (s : State) (k : BitVec 5) (c : Channel) (q : Nat) (x : Slot) :
    dataSlot s k c (writeSample cfg k c) q x = { x with
      buf := if HasData s k c then x.buf.set c.val (sampleValue cfg k x.alloc[c.val] q x.scf[c.val]) else x.buf } := by
  unfold dataSlot
  split <;> rfl

/-- RDSMP after its channels, all at once: count, RDLAST, advance, answer (R117). -/
theorem rdsmpEnd_eq {cfg : Cfg} {k : BitVec 5} {m : State} (hphase : m.phase = .read) :
    rdsmpEnd cfg k m =
      .done { logged (m.setSlot k { m.slot k with cnt := nextCnt cfg (m.slot k) })
          [.response 0 (boolVal (burstDone cfg (m.slot k)))] with
        rdlast := burstDone cfg (m.slot k), phase := passPhase m .read .write, idx := passIdx m } := by
  simp only [rdsmpEnd, answer_eq]
  rw [advance_emit_response (here := .read)]
  · rfl
  · exact hphase

/-- Settles O30: the loop, and then the end of the command, which finds the counter as the loop did. -/
theorem rdsmpDequantisesAndCounts : Obligations.RdsmpDequantisesAndCounts := by
  rintro k s _ _ _ _ p q _ _ hphase hk rfl rfl rfl rfl h hp hq rfl rfl
  rw [exec, execRdsmp, execRdsmpWith_of_read hphase hk,
    (rdsmpChannel_readsData Config.cfg s k).loop_enough h hp hq, CmdFlow.andThen_go,
    dataSlot_writeSample, dataSlot_writeSample, rdsmpEnd_eq, CmdFlow.finish_done, State.slot_setSlot_self,
    State.setSlot_setSlot]
  · rfl
  · exact hphase

/-- Settles O31: the two places a stream can be too short in; either comes before the counter. -/
theorem rdsmpRaisesEod : Obligations.RdsmpRaisesEod := by
  refine ⟨fun _ _ => rfl, ?_⟩
  rintro cfg k s _ _ _ hphase hk rfl rfl rfl
  have hb := rdsmpChannel_readsData cfg s k
  refine ⟨fun hd h => ?_, fun hd h hshort => ?_⟩
  · rw [execRdsmpWith_of_read hphase hk, hb.loop_short_first hd h]
    rfl
  · rw [execRdsmpWith_of_read hphase hk, hb.loop_short_second rfl h hd hshort, dataStored, dataSlot_writeSample]
    rfl

/-! ### The answers of a read pass (R118) -/

/-- Settles O58: slot IDX is at the pass's position `c`, a slot already read at the next one, and both say whether that
is 0 modulo SPF. -/
theorem slotsAnswerAlike : Obligations.SlotsAnswerAlike := by
  intro s k hseq hlock hphase hread
  obtain ⟨c, hc, hcnt⟩ := hlock.reading hphase
  have hidx := hseq.idx_lt_n (by simp [hphase])
  have hexpected : (s.slot s.idx).cnt.toNat = c := by rw [hcnt _ hidx, if_neg (Nat.lt_irrefl _)]
  have halready : (s.slot k).cnt.toNat = (c + 1) % Config.cfg.spf := by rw [hcnt k (by omega), if_pos hread]
  rw [burstDone_iff (by omega), hexpected, ← halready]
  exact BitVec.toNat_inj (y := 0)

end Sys2Proof.Machine
end

section
/-! The family 42_subband_put: what PUT injects by the routing table (R131, R132), and that no second write pass follows
a pass (R133, R146). -/

namespace Sys2Proof.Machine

open Sys2Proof.Claims

/-! ### Injecting the pairs of a route (R131, R132) -/

@[simp] theorem injectAll_nil (k : BitVec 5) (s : State) : injectAll k [] s = s := rfl

@[simp] theorem injectAll_append (k : BitVec 5) (l l' : List (FilterNo × Val)) (s : State) :
    injectAll k (l ++ l') s = injectAll k l' (injectAll k l s) :=
  List.foldl_append

/-- A pair of the table writes its filter's entry where the channel has data, and without data it writes nothing. -/
@[simp] theorem inputAt_injectAll_routed (k : BitVec 5) (hasData : Bool) (f g : FilterNo) (v : Val) (s : State) :
    (injectAll k (routed hasData f v) s).inputAt g k = if hasData = true ∧ g = f then v else s.inputAt g k := by
  cases hasData with
  | false => simp [routed]
  | true => simpa [routed, injectAll] using s.inputAt_inject f g k k v

/-! ### PUT (R131) -/

/-- PUT in its phase: the filters become those of the injected route, and nothing else depends on the route. -/
theorem exec_put_of_write {k : BitVec 5} {s : State} (hphase : s.phase = .write) (hk : k = s.idx) :
    ∃ t, exec (.put k) s = .next t ∧
      t = { logged s [.response 0 1] with
        filters := t.filters, wrlast := true, phase := passPhase s .write .calc0, idx := passIdx s } ∧
      t.filters = (injectAll k (route Config.cfg.num (s.slot k) s.chsel k) s).filters := by
  rw [exec, execPut, execPutWith, acceptAt_right hphase (by decide) hk, CmdFlow.andThen_go, injectAll_eq, answer_eq,
    CmdFlow.finish_done, advance_emit_response (here := .write)]
  · exact ⟨_, rfl, rfl, rfl⟩
  · exact hphase

/-- Settles O33: the frame and the histories hold for every route; entry `k` is read off row by row of the table. -/
theorem putRoutesByTheTable : Obligations.PutRoutesByTheTable := by
  rintro k s _ _ _ hphase hk rfl rfl rfl
  obtain ⟨t, hexec, ht, hfilters⟩ := exec_put_of_write hphase hk
  have hinput := State.inputAt_congr hfilters
  refine ⟨t, hexec, ht, fun f => ?hist, fun f j hj => ?band, ?none, ?mono,
    ?stereoBoth, ?stereoLeft, ?stereoRight, ?intensityBoth, ?intensityLeft, ?intensityRight⟩
  case hist => rw [State.filter_congr hfilters, injectAll_hist]
  case band => rw [hinput, injectAll_inputAt_ne hj]
  all_goals simp only [hinput]
  case none =>
    intro htag
    simp [route, htag]
  case mono =>
    intro htag
    cases s.chsel <;> simp [route, htag]
  all_goals
    intro htag hsel
    simp [route, htag, hsel]

/-! ### The phase after CALC (R133, R146) -/

/-- Settles O41: a CALC that is not accepted leaves the block FAULTED, and an accepted one finds WRLAST set. -/
theorem noSecondWritePass : Obligations.NoSecondWritePass := by
  intro f s t hseq hexec
  obtain ⟨u, hu, ht⟩ := ends_of_exec hexec
  rw [ht]
  change u.phase ≠ .write
  cases hu with
  | none hi =>
    have hfaulted : s.phase = .faulted := by simpa using hi
    simp [hfaulted]
  | fault | readFault => simp
  | calcPcm _ hcalc =>
    obtain ⟨-, -, hnext⟩ | ⟨-, -, hnext⟩ | ⟨-, -, hnext⟩ := hseq.calcNext_cases hcalc <;> simp [hnext]

end Sys2Proof.Machine
end

section
/-! The family 43_synthesis: the arithmetic of one CALC (R144), what follows from it (R147, R149), and the command
(R142, R143, R145, R146). -/

namespace Sys2Proof.Machine

open Sys2Proof.Claims

/-! ### One CALC (R144) -/

section
variable (num : Numerics)

theorem entry_synthHist_shifted (h : Vector Val histLen) (x : Vector Val nBand) {i : Nat} (hlow : 64 ≤ i)
    (hi : i < 1024) : entry (synthHist num h x) i = entry h (i - 64) := by
  rw [entry_synthHist num h x hi, if_neg (Nat.not_lt.mpr hlow)]

theorem entry_synthHist_matrixed (h : Vector Val histLen) (x : Vector Val nBand) {i : Nat} (hi : i < 64) :
    entry (synthHist num h x) i = matrixed num x i := by
  rw [entry_synthHist num h x (hi.trans (by decide)), if_pos hi]

/-- A sum of an even number of terms, taken two by two. -/
theorem sumV_pairs (n : Nat) (f : Nat → Val) :
    sumV num (2 * n) f = sumV num n fun m => num.add (f (2 * m)) (f (2 * m + 1)) := by
  induction n with
  | zero => rfl
  | succ n ih => rw [Nat.mul_succ, sumV, sumV, sumV, ih, num.add_assoc]

/-- The form of `y` that R144 writes out: the terms of even index are of the lower halves of `U`, the others of the
upper halves. -/
theorem synthY_eq_written_out (h' : Vector Val histLen) {j : Nat} (hj : j < 32) :
    synthY num h' j = sumV num 8 fun m => num.add
      (num.mul (entry h' (128 * m + j)) (num.window (64 * m + j)))
      (num.mul (entry h' (128 * m + 96 + j)) (num.window (64 * m + 32 + j))) := by
  rw [synthY, sumV_pairs num 8]
  refine sumV_congr num fun m _ => ?_
  have hlow : j + 32 * (2 * m) = 64 * m + j := by omega
  have hhigh : j + 32 * (2 * m + 1) = 64 * m + 32 + j := by omega
  rw [hlow, hhigh, synthU_low h' m hj, synthU_high h' m hj]

theorem getElem_synthBlock (h' : Vector Val histLen) (j : Nat) (hj : j < 32) :
    (synthBlock num h')[j] = num.toPcm (synthY num h' j) :=
  getElem_vec ..

end

/-- Settles O35: each step of R144 by its lemma, and `y` regrouped two terms at a time. -/
theorem synthFollowsTheDirectForm : Obligations.SynthFollowsTheDirectForm := by
  rintro num h x _ rfl
  exact ⟨fun _ => entry_synthHist_shifted num h x, fun _ => entry_synthHist_matrixed num h x,
    fun i _ _ hj => ⟨synthU_low _ i hj, synthU_high _ i hj⟩, fun _ _ => rfl,
    fun _ => synthY_eq_written_out num _, getElem_synthBlock num _⟩

/-! ### Silence (R149 (a)) -/

/-- A vector of zeros reads 0 at every index, because outside its range every vector does. -/
theorem entry_of_allZero {n : Nat} {v : Vector Val n} (hv : AllZero v) (i : Nat) : entry v i = Val.zero := by
  by_cases hi : i < n
  · exact hv i hi
  · rw [entry, dif_neg hi]

section
variable (num : Numerics)

theorem allZero_synthHist {h : Vector Val histLen} {x : Vector Val nBand} (hh : AllZero h) (hx : AllZero x) :
    AllZero (synthHist num h x) := by
  intro i hi
  rw [entry_synthHist num h x hi]
  split
  · exact matrixed_zero num hx i
  · exact entry_of_allZero hh _

theorem synthY_of_allZero {h' : Vector Val histLen} (hh : AllZero h') {j : Nat} (hj : j < 32) :
    synthY num h' j = Val.zero := by
  rw [synthY_eq_written_out num h' hj]
  refine sumV_zero num fun m _ => ?_
  rw [entry_of_allZero hh, entry_of_allZero hh, num_zero_mul, num_zero_mul, num.add_zero]

end

/-- Settles O36: the new history is 0, so each `y` is, and ToPcm of 0 is 0 by law L2 (R8). -/
theorem silenceGivesSilence : Obligations.SilenceGivesSilence := by
  intro num h x hh hx
  have hzero := allZero_synthHist num hh hx
  refine ⟨hzero, fun j hj => ?_⟩
  rw [getElem_synthBlock, synthY_of_allZero num hzero hj, num.toPcm_zero]

/-! ### How long an input is heard (R147) -/

section
variable (num : Numerics)

/-- A CALC with nothing injected shifts 64 zeros into the history. -/
theorem entry_silentCalcs (n : Nat) (h : Vector Val histLen) {i : Nat} (hi : i < 1024) :
    entry (silentCalcs num n h) i = if i < 64 * n then Val.zero else entry h (i - 64 * n) := by
  induction n generalizing h with
  | zero => simp [silentCalcs]
  | succ n ih =>
    rw [silentCalcs, ih]
    by_cases hlater : i < 64 * n
    · rw [if_pos hlater, if_pos (by omega)]
    rw [if_neg hlater]
    by_cases hfirst : i < 64 * (n + 1)
    · rw [if_pos hfirst, entry_synthHist_matrixed num _ _ (by omega),
        matrixed_zero num fun k _ => entry_replicate_zero _ k]
    · rw [if_neg hfirst, entry_synthHist_shifted num _ _ (by omega) (by omega), Nat.sub_sub, Nat.mul_succ]

theorem allZero_silentCalcs_sixteen (h : Vector Val histLen) : AllZero (silentCalcs num 16 h) := by
  intro i hi
  rw [entry_silentCalcs num 16 h hi, if_pos hi]

/-- The history of a fresh filter `a` silent CALCs after its first one: the 64 matrixed values of the first stand from
`64a` on, and all else is 0. -/
theorem entry_fresh_at_age (a : Nat) {h : Vector Val histLen} (hh : AllZero h) (x : Vector Val nBand) {i : Nat}
    (hi : i < 1024) : entry (silentCalcs num a (synthHist num h x)) i =
      if 64 * a ≤ i ∧ i < 64 * a + 64 then matrixed num x (i - 64 * a) else Val.zero := by
  rw [entry_silentCalcs num a _ hi]
  by_cases hlater : i < 64 * a
  · rw [if_pos hlater, if_neg (by omega)]
  rw [if_neg hlater]
  by_cases hfirst : i < 64 * a + 64
  · rw [if_pos (by omega), entry_synthHist_matrixed num _ _ (by omega)]
  · rw [if_neg (by omega), entry_synthHist_shifted num _ _ (by omega) (by omega), entry_of_allZero hh]

/-- `U` by the index of its half-blocks: half-block `i` reads the values of age `i`, the first 32 of them if `i` is even
and the other 32 if it is odd. -/
theorem synthU_half (h' : Vector Val histLen) (i : Nat) {j : Nat} (hj : j < 32) :
    synthU h' (j + 32 * i) = entry h' (64 * i + 32 * (i % 2) + j) := by
  unfold synthU
  split
  · congr 1; omega
  · congr 1; omega

/-- Of the 16 products of `y` only the one of the burst's age is not 0. -/
theorem synthY_fresh_at_age {h : Vector Val histLen} (hh : AllZero h) (x : Vector Val nBand) {a j : Nat} (ha : a < 16)
    (hj : j < 32) : synthY num (silentCalcs num a (synthHist num h x)) j =
      num.mul (matrixed num x (32 * (a % 2) + j)) (num.window (j + 32 * a)) := by
  rw [synthY, sumV_single num ha fun i hi hne => ?other]
  case other =>
    rw [synthU_half _ i hj, entry_fresh_at_age num a hh x (by omega), if_neg (by omega), num_zero_mul]
  have hindex : 64 * a + 32 * (a % 2) + j - 64 * a = 32 * (a % 2) + j := by omega
  rw [synthU_half _ a hj, entry_fresh_at_age num a hh x (by omega), if_pos (by omega), hindex]

/-- One value in band `k` is matrixed by the coefficients of that band alone. -/
theorem matrixed_single {x : Vector Val nBand} {k : Nat} (hk : k < 32)
    (hother : ∀ i, i < 32 → i ≠ k → entry x i = Val.zero) (i : Nat) :
    matrixed num x i = num.mul (num.matrix i k) (entry x k) :=
  sumV_single num hk fun l hl hne => by rw [hother l hl hne, num_mul_zero]

/-- If two histories agree below `d`, they agree 64 entries further after each CALC of the same input. -/
theorem entry_calcsOf_congr (xs : List (Vector Val nBand)) {h g : Vector Val histLen} {d : Nat}
    (hagree : ∀ i, i < d → i < 1024 → entry h i = entry g i) {i : Nat} (hd : i < d + 64 * xs.length) (hi : i < 1024) :
    entry (calcsOf num xs h) i = entry (calcsOf num xs g) i := by
  induction xs generalizing h g d with
  | nil => exact hagree i hd hi
  | cons x xs ih =>
    rw [List.length_cons] at hd
    refine ih (d := d + 64) (fun l hl hlen => ?_) (by omega)
    by_cases hnew : l < 64
    · rw [entry_synthHist_matrixed num h x hnew, entry_synthHist_matrixed num g x hnew]
    · rw [entry_synthHist_shifted num h x (by omega) hlen, entry_synthHist_shifted num g x (by omega) hlen]
      exact hagree _ (by omega) (by omega)

theorem calcsOf_sixteen_eq {xs : List (Vector Val nBand)} (hxs : xs.length = 16) (h g : Vector Val histLen) :
    calcsOf num xs h = calcsOf num xs g :=
  vec_eq_of_entry fun _ hi =>
    entry_calcsOf_congr num xs (d := 0) (fun _ hl => absurd hl (Nat.not_lt_zero _)) (by rw [hxs]; exact hi) hi

end

/-- Settles O37: the block of age 0. -/
theorem firstBlockOfOneValue : Obligations.FirstBlockOfOneValue := by
  rintro num h x k _ hh hk rfl hother j hj
  have hblock := synthY_fresh_at_age num hh x (a := 0) (by decide) hj
  simpa [silentCalcs, matrixed_single num hk hother] using hblock

/-- Settles O38: the two parities of the age, and the sixteen shifts by 64 that replace a history of 1024 values. -/
theorem inputReachesSixteenBlocks : Obligations.InputReachesSixteenBlocks := by
  refine fun num => ⟨?_, fun xs h g hxs => calcsOf_sixteen_eq num hxs h g, allZero_silentCalcs_sixteen num⟩
  rintro h x k _ hh hk rfl hother m j hm hj
  constructor
  · obtain ⟨hvalue, hcoefficient⟩ : 32 * (2 * m % 2) + j = j ∧ j + 32 * (2 * m) = 64 * m + j := by omega
    rw [synthY_fresh_at_age num hh x (by omega) hj, hvalue, hcoefficient, matrixed_single num hk hother]
  · obtain ⟨hvalue, hcoefficient⟩ : 32 * ((2 * m + 1) % 2) + j = 32 + j ∧
        j + 32 * (2 * m + 1) = 64 * m + 32 + j := by omega
    rw [synthY_fresh_at_age num hh x (by omega) hj, hvalue, hcoefficient, matrixed_single num hk hother]

/-! ### Additivity (R147) -/

section
variable (num : Numerics)

theorem num_add_mul (a b c : Val) : num.mul (num.add a b) c = num.add (num.mul a c) (num.mul b c) :=
  (Numerics.commRing num).right_distrib a b c

/-- The entries of a sum of vectors; outside the range both sides are 0. -/
theorem entry_sumVec {n : Nat} (v w : Vector Val n) (i : Nat) :
    entry (sumVec num v w) i = num.add (entry v i) (entry w i) := by
  by_cases hi : i < n
  · rw [sumVec, entry_vec _ _ _ hi]
  · rw [entry, entry, entry, dif_neg hi, dif_neg hi, dif_neg hi, num.add_zero]

theorem matrixed_sumVec (x z : Vector Val nBand) (i : Nat) :
    matrixed num (sumVec num x z) i = num.add (matrixed num x i) (matrixed num z i) := by
  simp only [matrixed, entry_sumVec, num.mul_add, sumV_add]

theorem synthHist_sumVec (h g : Vector Val histLen) (x z : Vector Val nBand) :
    synthHist num (sumVec num h g) (sumVec num x z) = sumVec num (synthHist num h x) (synthHist num g z) := by
  refine vec_eq_of_entry fun i hi => ?_
  rw [entry_sumVec, entry_synthHist _ _ _ hi, entry_synthHist _ _ _ hi, entry_synthHist _ _ _ hi]
  split
  · exact matrixed_sumVec num x z i
  · exact entry_sumVec num h g _

theorem synthU_sumVec (h g : Vector Val histLen) (u : Nat) :
    synthU (sumVec num h g) u = num.add (synthU h u) (synthU g u) := by
  simp only [synthU, entry_sumVec]
  split <;> rfl

theorem synthY_sumVec (h g : Vector Val histLen) (j : Nat) :
    synthY num (sumVec num h g) j = num.add (synthY num h j) (synthY num g j) := by
  simp only [synthY, synthU_sumVec, num_add_mul, sumV_add]

end

/-- Settles O39: the new history, the vector `U` and the window sum are additive one after the other. -/
theorem synthIsAdditive : Obligations.SynthIsAdditive := by
  intro num h g x z j _
  rw [synthHist_sumVec, synthY_sumVec]

/-! ### The command (R142, R143, R145, R146) -/

/-- The phase after CALC with `need2` written out (R33, R142). -/
theorem calcNext_eq (f : BitVec 1) (s : State) : calcNext f s =
    if f = 0 ∧ s.chsel = .both ∧ s.mode ≠ 3 then .calc1
    else if s.wrlast = false then .write else if s.rdlast = false then .read else .idle := by
  simp only [calcNext, need2_iff]
  rfl

/-- CALC in its phase, `h` being the filter's new history (R143). -/
theorem exec_calc_of_calcPhase {f : BitVec 1} {s : State} {h : Vector Val histLen} (hphase : s.phase = calcPhase f)
    (hh : h = synthHist Config.cfg.num (s.filter (filterOf f)).hist (s.filter (filterOf f)).input) :
    exec (.calcPcm f) s = .next (setSeq (calcNext f s) 0 (logged (s.clearInput (filterOf f) h)
      [.sinkAppend (filterOf f) (synthBlock Config.cfg.num h), .response 0 0])) := by
  rw [exec, execCalc, execCalcWith, accept_right hphase (calcPhase_ne_faulted f), CmdFlow.andThen_go, calcBody_eq,
    CmdFlow.finish_go, ← hh]
  simp [logged, State.emit, setSeq, State.clearInput, State.setFilter, calcNext]

/-- CALC in another phase answers a fault, old or new, and neither computes nor appends (R90, R197). -/
theorem exec_calc_of_ne_calcPhase {f : BitVec 1} {s : State} (hphase : s.phase ≠ calcPhase f) :
    exec (.calcPcm f) s = .next (if s.phase = .faulted then rejectSticky s else
      takeFault .seq (encode (.calcPcm f)) s) := by
  split
  case isTrue hfaulted =>
    rw [exec, execCalc, execCalcWith, accept_faulted hfaulted, CmdFlow.andThen_done, CmdFlow.finish_done]
  case isFalse hfaulted => exact exec_of_not_accepts rfl hfaulted hphase

theorem otherFilter_ne (f : FilterNo) : otherFilter f ≠ f := by revert f; decide

theorem filter_clearInput_self (s : State) (f : FilterNo) (h : Vector Val histLen) :
    (s.clearInput f h).filter f = { input := Vector.replicate nBand Val.zero, hist := h } :=
  s.filter_setFilter_self f _

theorem sink_emit_response (s : State) (err : BitVec 4) (val : Word32) :
    (s.emit (.response err val)).env.sink = s.env.sink :=
  (List.filterMap_append ..).trans (List.append_nil _)

/-- The blocks among newly recorded events come after the old ones. -/
theorem sink_logged (s : State) (events : List Event) :
    (logged s events).env.sink = s.env.sink ++ { s.env with history := events }.sink :=
  List.filterMap_append ..

/-- Settles O34: the record update of CALC, read off field by field. -/
theorem calcComputesOneBlock : Obligations.CalcComputesOneBlock := by
  intro f s h hphase hh
  refine ⟨_, exec_calc_of_calcPhase hphase hh, ?_, filter_clearInput_self s _ h, ?_⟩
  · rw [calcNext_eq]
    rfl
  · exact s.filter_setFilter_ne _ (otherFilter_ne _)

/-- Settles O40: the new history is a function of the filter, and the block one of the new history. -/
theorem filtersDoNotInteract : Obligations.FiltersDoNotInteract := by
  intro f s s' t t' hphase hphase' hfilter hexec hexec'
  rw [exec_calc_of_calcPhase hphase rfl] at hexec
  rw [exec_calc_of_calcPhase hphase' rfl, ← hfilter] at hexec'
  cases hexec
  cases hexec'
  refine ⟨?_, _, sink_logged s _, sink_logged s' _⟩
  exact (filter_clearInput_self s _ _).trans (filter_clearInput_self s' _ _).symm

/-- Settles O42: without `need2` the phase is not CALC1, so `calc 1` is not accepted. -/
theorem secondFilterOnlyWhenNeeded : Obligations.SecondFilterOnlyWhenNeeded := by
  intro s t hseq hneed hexec
  have hphase : s.phase ≠ calcPhase 1 := fun h => by simpa [hneed] using hseq.calc1_need2 h
  rw [exec_calc_of_ne_calcPhase hphase] at hexec
  cases hexec
  split
  · exact ⟨sink_emit_response s _ _, rfl⟩
  · exact ⟨sink_emit_response s _ _, rfl⟩

end Sys2Proof.Machine
end

section
/-! The family 44_system: NOP (R161), and RDCSR (R162) with the registers it reads (R34 to R39). -/

namespace Sys2Proof.Machine

open Sys2Proof.Claims

/-! ### NOP (R161) -/

/-- Settles O16: a word whose opcode and whose reserved bits in format Z are 0 is the word 0. -/
theorem nopOnlyAnswers : Obligations.NopOnlyAnswers := by
  refine ⟨fun _ => rfl, rfl, fun w hop hw => (decode_error_iff_formatZ (by simp [hop])).mpr fun hreserved => hw ?_⟩
  calc w = w.extractLsb' 12 4 ++ w.extractLsb' 0 12 := (BitVec.extractLsb'_append_extractLsb' (w := 4) (len := 12)).symm
    _ = 0 := by rw [hop, hreserved]; rfl

/-! ### A field of a register

A register is its fields one after the other, so a field is read by dropping the fields below it. -/

section
variable {m n start len : Nat} {x : BitVec m} {y : BitVec n}

theorem field_append_above {v : BitVec len} (h : x.extractLsb' (start - n) len = v) (hn : n ≤ start := by decide) :
    (x ++ y).extractLsb' start len = v :=
  (BitVec.extractLsb'_append_eq_of_le hn).trans h

theorem flag_append_above {b : Bool} (h : x.getLsbD (start - n) = b) (hn : n ≤ start := by decide) :
    (x ++ y).getLsbD start = b := by
  rw [BitVec.getLsbD_append, if_neg (Nat.not_lt.mpr hn)]
  exact h

theorem flag_append_ofBool (x : BitVec m) (b : Bool) : (x ++ BitVec.ofBool b).getLsbD 0 = b := by
  rw [BitVec.getLsbD_append]
  simp

end

/-! ### The registers (R34 to R39) -/

section
variable (s : State)

open BitVec (extractLsb'_append_eq_left extractLsb'_append_eq_right)

theorem csrCfg_fields : (csrCfg s).extractLsb' 0 2 = s.chsel.code ∧ (csrCfg s).getLsbD 2 = s.conf ∧
    (csrCfg s).extractLsb' 3 29 = 0 := by
  refine ⟨extractLsb'_append_eq_right, ?conf, ?zero⟩
  case conf => exact flag_append_above (flag_append_ofBool _ _)
  case zero => exact field_append_above extractLsb'_append_eq_left

theorem csrStatus_fields : (csrStatus s).extractLsb' 0 4 = s.phase.code ∧ (csrStatus s).extractLsb' 4 5 = s.idx ∧
    (csrStatus s).getLsbD 9 = s.rdlast ∧ (csrStatus s).getLsbD 10 = s.wrlast ∧
    (csrStatus s).getLsbD 11 = s.gateok ∧ (csrStatus s).extractLsb' 12 20 = 0 := by
  refine ⟨extractLsb'_append_eq_right, ?idx, ?rdlast, ?wrlast, ?gateok, ?zero⟩
  case idx => exact field_append_above extractLsb'_append_eq_right
  case rdlast => exact flag_append_above <| flag_append_above <| flag_append_ofBool _ _
  case wrlast => exact flag_append_above <| flag_append_above <| flag_append_above <| flag_append_ofBool _ _
  case gateok =>
    exact flag_append_above <| flag_append_above <| flag_append_above <| flag_append_above <| flag_append_ofBool _ _
  case zero =>
    exact field_append_above <| field_append_above <| field_append_above <| field_append_above
      extractLsb'_append_eq_left

theorem csrFault_fields : (csrFault s).extractLsb' 0 4 = s.fcode.code ∧
    (csrFault s).extractLsb' 4 4 = s.fphase.code ∧ (csrFault s).extractLsb' 8 5 = s.fidx ∧
    (csrFault s).extractLsb' 13 3 = 0 ∧ (csrFault s).extractLsb' 16 16 = s.fcmd := by
  refine ⟨extractLsb'_append_eq_right, ?fphase, ?fidx, ?zero, ?fcmd⟩
  case fphase => exact field_append_above extractLsb'_append_eq_right
  case fidx => exact field_append_above <| field_append_above extractLsb'_append_eq_right
  case zero => exact field_append_above <| field_append_above <| field_append_above extractLsb'_append_eq_right
  case fcmd => exact field_append_above <| field_append_above <| field_append_above extractLsb'_append_eq_left

theorem csrFrameInfo_fields : (csrFrameInfo s).extractLsb' 0 6 = s.n ∧ (csrFrameInfo s).extractLsb' 6 2 = s.mode ∧
    (csrFrameInfo s).extractLsb' 8 6 = s.bound ∧ (csrFrameInfo s).getLsbD 14 = s.crcen ∧
    (csrFrameInfo s).extractLsb' 15 17 = 0 := by
  refine ⟨extractLsb'_append_eq_right, ?mode, ?bound, ?crcen, ?zero⟩
  case mode => exact field_append_above extractLsb'_append_eq_right
  case bound => exact field_append_above <| field_append_above extractLsb'_append_eq_right
  case crcen => exact flag_append_above <| flag_append_above <| flag_append_above <| flag_append_ofBool _ _
  case zero => exact field_append_above <| field_append_above <| field_append_above extractLsb'_append_eq_left

/-- The addresses that hold nothing (R39). -/
theorem csr_of_five_le {a : BitVec 4} (ha : 5 ≤ a.toNat) : csr a s = 0 := by
  have hne (b : BitVec 4) (hb : b.toNat < 5) : a ≠ b := by
    rintro rfl
    exact absurd ha (Nat.not_le.mpr hb)
  simp [csr, hne]

end

/-! ### RDCSR (R162) -/

theorem encode_rdcsr (a : BitVec 4) : encode (.rdcsr a) = 0xA000#16 + a.setWidth 16 := by revert a; decide

/-- Settles O17: RDCSR's word is its encoding, and CSR 0 to 4 are the five registers. -/
theorem rdcsrReadsTheRegister : Obligations.RdcsrReadsTheRegister := by
  refine ⟨fun a => ?word, fun _ _ => rfl, fun _ => rfl, csrCfg_fields, csrStatus_fields, csrFault_fields,
    csrFrameInfo_fields, fun _ s ha => csr_of_five_le s ha⟩
  rw [← encode_rdcsr]
  exact Laws.DecodeEncode.rdcsr a rfl

end Sys2Proof.Machine
end

section
/-! The family 45_frame_sequence: the sequencer's table (R170). -/

namespace Sys2Proof.Machine

open Sys2Proof.Claims

/-- How an accepted command may leave the sequencer: at its row of the table, or FAULTED with one of the faults a
command raises after `Accept` (R170, R193 to R195). -/
def FollowsTable (i : Instr) (s t : State) : Prop :=
  (t.phase, t.idx.toNat) = nextSeq s i ∨
    (t.phase = .faulted ∧ t.idx = s.idx ∧ (t.fcode = .cfg ∨ t.fcode = .eod ∨ t.fcode = .fmt))

/-- The sequencer and the count it compares with stand in `m` as in `s`. -/
structure SameSeq (s m : State) : Prop where
  phase : m.phase = s.phase
  idx : m.idx = s.idx
  n : m.n = s.n

theorem SameSeq.refl (s : State) : SameSeq s s := ⟨rfl, rfl, rfl⟩

theorem SameSeq.fault {s m : State} (h : SameSeq s m) {f : FaultCode} (hf : f = .cfg ∨ f = .eod ∨ f = .fmt) (i : Instr)
    (cmd : Word) : FollowsTable i s (takeFault f cmd m) :=
  .inr ⟨rfl, h.idx, hf⟩

/-- `Advance` moves by the two rows of a pass (R13, R170). -/
theorem SameSeq.advance_pass {s m : State} (h : SameSeq s m) (hs : SeqInv s) {here : Phase} (hphase : s.phase = here)
    (hhere : here.takesIndex) (next : Phase) :
    ((advance next m).phase, (advance next m).idx.toNat) = passNext s here next := by
  have hpass : advance next m = setSeq (passPhase s s.phase next) (passIdx s) m := by
    rw [advance_eq_pass, passPhase, passIdx, h.phase, h.idx, h.n]; rfl
  subst hphase
  rw [hpass, State.setSeq_phase, State.setSeq_idx, passNext]
  obtain ⟨hlast, hp, hi⟩ | ⟨hmore, hp, hi⟩ := hs.pass_cases hhere s.phase next
  · rw [if_pos hlast, hp, hi]; rfl
  · rw [if_neg hmore.ne, hp, hi]

/-- CALC's row and the last sentence of the table (R143, R146, R170). -/
theorem nextSeq_calcPcm (f : BitVec 1) (s : State) : nextSeq s (.calcPcm f) = (calcNext f s, 0) := by
  simp only [nextSeq, afterPassNext, calcNext, apply_ite fun p : Phase => (p, 0)]

/-! ### The channel loops leave the sequencer to the end of the command -/

theorem sameSeq_rdallocLoop (n : Nat) (k : BitVec 5) (s : State) :
    (forChannels n (rdallocChannel Config.cfg k) s).Sat (SameSeq s) (FollowsTable (.rdalloc k) s) := by
  refine sat_forChannels (.refl s) fun c m _ hm => ?_
  refine sat_rdallocChannel (fun _ => hm.fault (by simp) _ _) fun _ a m' _ hm' => ?_
  have hset : SameSeq s (m'.setAlloc k c a) := by
    rw [hm']
    exact { hm with }
  exact ⟨fun _ => hset, fun _ => hset.fault (by simp) _ _⟩

theorem sameSeq_rdscfLoop (n : Nat) (k : BitVec 5) (s : State) :
    (forChannels n (rdscfChannel Config.cfg k) s).Sat (SameSeq s) (FollowsTable (.rdscf k) s) :=
  sat_forChannels (.refl s) fun _ _ _ hm =>
    sat_rdscfChannel (fun _ => hm) (fun _ => hm.fault (by simp) _ _) fun _ _ _ _ => { hm with }

theorem sameSeq_rdsmpLoop (n : Nat) (k : BitVec 5) (s : State) :
    (forChannels n (rdsmpChannel Config.cfg k) s).Sat (SameSeq s) (FollowsTable (.rdsmp k) s) :=
  sat_forChannels (.refl s) fun _ _ _ hm =>
    sat_rdsmpChannel (fun _ => hm) (hm.fault (by simp) _ _) fun _ _ _ _ _ _ _ => { hm with }

/-! ### The three parts of the table -/

/-- The rows of the table, one for each way an accepted command can end. -/
theorem followsTable_of_accepts {i : Instr} {s t : State} (hs : SeqInv s) (hwf : i.wellFormed = true)
    (hphase : s.phase ≠ .faulted) (haccepts : Accepts s i) (h : exec i s = .next t) : FollowsTable i s t := by
  obtain ⟨t', ht', hfollows⟩ : ∃ t', exec i s = .next t' ∧ FollowsTable i s t' := by
    apply exec_sat i s
    case hsticky => exact fun hfaulted => absurd hfaulted hphase
    case hill => exact fun hill => absurd (hwf.symm.trans hill) (by decide)
    case hseq => exact fun _ hnot => absurd haccepts hnot
    case hnop => rintro rfl; exact .inl rfl
    case hcsr => rintro a rfl; exact .inl rfl
    case hsetup => rintro c sel rfl - -; exact .inl rfl
    case hframe =>
      rintro rfl -
      refine sat_frameBody ((SameSeq.refl s).fault (by simp) _ _) fun _ _ => .inl ?_
      by_cases hn : s.env.header.n = 0#6 <;> simp [nextSeq, hn]
    case hsfsel => rintro rfl -; exact .inl rfl
    case hgate =>
      rintro rfl -
      refine .inl ?_
      by_cases hend : gateOpen s = false ∨ s.n = 0#6 <;> simp [nextSeq, hend]
    case hrdalloc =>
      rintro k rfl hp -
      exact (sameSeq_rdallocLoop _ k s).mono (fun m hm => .inl (hm.advance_pass hs hp (by simp) .sfsel)) fun _ hm => hm
    case hrdscf =>
      rintro k rfl hp -
      exact (sameSeq_rdscfLoop _ k s).mono (fun m hm => .inl (hm.advance_pass hs hp (by simp) .read)) fun _ hm => hm
    case hrdsmp =>
      rintro k rfl hp -
      refine (sameSeq_rdsmpLoop _ k s).mono (fun m hm => .inl ?_) fun _ hm => hm
      exact SameSeq.advance_pass (m := { m.setCnt k _ with rdlast := _ }) { hm with } hs hp (by simp) .write
    case hput =>
      rintro k rfl hp -
      rw [injectAll_eq]
      exact .inl <| SameSeq.advance_pass (m := { s with filters := _, wrlast := true }) { SameSeq.refl s with } hs hp
        (by simp) .calc0
    case hcalc =>
      rintro f m rfl - hm
      obtain ⟨e, he⟩ := calcBody_eq_clearInput Config.cfg f s
      rw [he] at hm
      cases hm
      exact .inl (nextSeq_calcPcm f s).symm
  rw [ht'] at h
  cases h
  exact hfollows

/-- FAULTED is terminal: no command has an effect in it (R197). -/
theorem Effect.eq_of_faulted {i : Instr} {s u : State} (hfaulted : s.phase = .faulted) (h : Effect s i u) : u = s := by
  cases h with
  | none => rfl
  | fault _ hphase => exact absurd hfaulted hphase
  | readFault hread => exact absurd hfaulted hread.phase_ne_faulted
  | calcPcm f hphase => exact absurd (hphase.symm.trans hfaulted) (calcPhase_ne_faulted f)
  | _ => simp_all

/-- Settles O43: an accepted command by the rows of the table, another one by its SEQ, and in FAULTED none has an
effect. -/
theorem sequencerFollowsItsTable : Obligations.SequencerFollowsItsTable := by
  intro i s t hs hwf h
  refine ⟨fun hphase haccepts => followsTable_of_accepts hs hwf hphase haccepts h, fun hphase hnot => ?_,
    fun hfaulted => ?_⟩
  · rw [exec_of_not_accepts hwf hphase hnot] at h
    cases h
    exact ⟨rfl, rfl, rfl⟩
  · obtain ⟨u, hu, ht⟩ := ends_of_exec h
    rw [ht, hu.eq_of_faulted hfaulted]
    exact ⟨hfaulted, rfl⟩

end Sys2Proof.Machine
end

section
/-! The family 60_exceptions: the fault record (R196), what raises ILL, SEQ and CFG (R191 to R193), the FAULTED block
(R197), and the order of the checks (R198). -/

namespace Sys2Proof.Machine

open Sys2Proof.Claims

/-! ### Taking a fault (R196) -/

/-- Settles O11: the record, PHASE and the answer are all that `takeFault` writes. -/
theorem faultEntryWritesTheRecord : Obligations.FaultEntryWritesTheRecord := fun _ _ _ => rfl

/-! ### ILL (R79, R191) -/

theorem illegalWord_of_faulted {w : Word} {s : State} (hfaulted : s.phase = .faulted) :
    illegalWord w s = rejectSticky s := if_pos hfaulted

theorem illegalWord_of_ne_faulted {w : Word} {s : State} (hphase : s.phase ≠ .faulted) :
    illegalWord w s = takeFault .ill w s := if_neg hphase

theorem runMove_command_of_error {w : Word} {e : DecodeError} (h : decode w = .error e) (s : State) :
    runMove (.command w) s = .next (illegalWord w s) := by
  simp only [runMove, runWord, h]

/-- Settles O6: the step on an illegal word is `illegalWord`, which outside FAULTED takes the fault. -/
theorem illegalWordRaisesIll : Obligations.IllegalWordRaisesIll := by
  intro s w rest e hpending hdecode hphase
  rw [step_of_pending_cons hpending, runMove_command_of_error hdecode]
  exact congrArg Host.Outcome.next (illegalWord_of_ne_faulted hphase)

/-! ### CFG (R193) -/

/-- Each of the two CFG checks stops a bad header before any write (R93). -/
theorem frameBody_of_invalid {s : State} (h : 32 < s.env.header.n.toNat ∨
    s.env.header.mode = 1 ∧ s.env.header.n.toNat < s.env.header.bound.toNat) :
    frameBody s = .done (takeFault .cfg (encode .frame) s) := by
  unfold frameBody
  split
  · rfl
  next hcount => exact if_pos (h.resolve_left hcount)

/-- Settles O21: FRAME is accepted in IDLE, and its checks stop the bad header. -/
theorem frameRaisesCfg : Obligations.FrameRaisesCfg := by
  intro s hphase hbad
  rw [exec_frame_of_idle hphase, frameBody_of_invalid hbad, CmdFlow.finish_done, faultEntryWritesTheRecord, hphase]
  rfl

/-! ### SEQ (R192) -/

/-- Settles O13: a command that is not accepted raises SEQ, and in a pass IDX is below N. -/
theorem wrongPhaseOrIndexRaisesSeq : Obligations.WrongPhaseOrIndexRaisesSeq := by
  refine ⟨fun i s hwf hphase hnot => exec_of_not_accepts hwf hphase hnot, fun s k hs hpass hk => ?_⟩
  rintro rfl
  exact Nat.not_lt.mpr hk (hs.idx_lt_n hpass)

/-! ### FAULTED (R197) -/

/-- In FAULTED a command that looks at the phase gives the sticky answer, because no command's own phase is FAULTED. -/
theorem exec_of_faulted {i : Instr} {s : State} (hfaulted : s.phase = .faulted) (hnop : i ≠ .nop)
    (hcsr : ∀ a, i ≠ .rdcsr a) : exec i s = .next (rejectSticky s) := by
  have hnot {p : Phase} (hp : p ≠ .faulted) : s.phase ≠ p := fun h => hp (h.symm.trans hfaulted)
  obtain ⟨t, ht, rfl⟩ : ∃ t, exec i s = .next t ∧ t = rejectSticky s := by
    apply exec_sat i s
    case hsticky => exact fun _ => rfl
    case hnop => exact fun h => absurd h hnop
    case hcsr => exact fun a h => absurd h (hcsr a)
    case hill => exact fun _ h => absurd hfaulted h
    case hseq => exact fun h _ => absurd hfaulted h
    case hsetup => exact fun _ _ _ _ h => absurd h (hnot (by decide))
    case hframe => exact fun _ h => absurd h (hnot (by decide))
    case hsfsel => exact fun _ h => absurd h (hnot (by decide))
    case hgate => exact fun _ h => absurd h (hnot (by decide))
    case hrdalloc => exact fun _ _ h => absurd h (hnot (by decide))
    case hrdscf => exact fun _ _ h => absurd h (hnot (by decide))
    case hrdsmp => exact fun _ _ h => absurd h (hnot (by decide))
    case hput => exact fun _ _ h => absurd h (hnot (by decide))
    case hcalc => exact fun f _ _ h => absurd h (hnot (calcPhase_ne_faulted f))
  exact ht

/-- Any word but that of NOP or RDCSR, legal or illegal, gets the sticky answer. -/
theorem runMove_command_of_faulted {w : Word} {s : State} (hfaulted : s.phase = .faulted) (hnop : decode w ≠ .ok .nop)
    (hcsr : ∀ a, decode w ≠ .ok (.rdcsr a)) : runMove (.command w) s = .next (rejectSticky s) := by
  cases hdecode : decode w with
  | error e => rw [runMove_command_of_error hdecode, illegalWord_of_faulted hfaulted]
  | ok i =>
    rw [runMove_command_of_decode hdecode]
    refine exec_of_faulted hfaulted ?_ fun a => ?_
    · rintro rfl; exact hnop hdecode
    · rintro rfl; exact hcsr a hdecode

/-- In FAULTED a move of the host other than reset reaches the environment only (R197, R228). -/
theorem runMove_of_faulted {m : HostMove} {s t : State} (hfaulted : s.phase = .faulted) (hm : m ≠ .reset)
    (h : runMove m s = .next t) : t = { s with env := t.env } := by
  cases m with
  | command w =>
    cases hdecode : decode w with
    | ok i =>
      rw [runMove_command_of_decode hdecode] at h
      obtain ⟨u, hu, ht⟩ := ends_of_exec h
      rwa [hu.eq_of_faulted hfaulted] at ht
    | error e =>
      rw [runMove_command_of_error hdecode, illegalWord_of_faulted hfaulted] at h
      cases h; rfl
  | reset => exact absurd rfl hm
  | setStream _ => simp only [runMove, hostSetStream] at h; split at h <;> cases h; rfl
  | setHeader _ => simp only [runMove, hostSetHeader] at h; split at h <;> cases h; rfl
  | setCkvalid _ => simp only [runMove, hostSetCkvalid] at h; split at h <;> cases h; rfl
  | setCrc _ => simp only [runMove, hostSetCrc] at h; split at h <;> cases h; rfl
  | touchCrc => simp only [runMove, hostTouchCrc] at h; split at h <;> cases h; rfl
  | consumeSink => cases h; rfl

/-- Settles O12: the answer word by word, the record move by move, and the state after reset. -/
theorem faultedIsTerminal : Obligations.FaultedIsTerminal := by
  refine ⟨fun s w rest hpending hfaulted => ?_, fun s t h hfaulted hnoreset => ?_, fun s rest hpending => ?_⟩
  · rw [step_of_pending_cons hpending]
    split
    next hdecode => exact runMove_command_of_decode hdecode _
    next a hdecode => exact runMove_command_of_decode hdecode _
    next hnop hcsr => exact runMove_command_of_faulted hfaulted hnop hcsr
  · obtain ⟨-, rfl⟩ | ⟨m, rest, hpending, hmove⟩ := step_cases h
    · exact ⟨hfaulted, rfl, rfl, rfl, rfl⟩
    · have hm : m ≠ .reset := by rintro rfl; exact hnoreset rest hpending
      rw [runMove_of_faulted (s := { s with pending := rest }) hfaulted hm hmove]
      exact ⟨hfaulted, rfl, rfl, rfl, rfl⟩
  · refine ⟨_, step_of_pending_cons hpending, rfl, rfl, fun f i _ => ?_, inputAt_reset⟩
    exact (congrArg (entry · i) (hist_reset f)).trans (entry_replicate_zero _ i)

/-! ### The order of the checks (R198) -/

/-- What an accepted command does to FCODE: it keeps it, or raises one of its own faults (R193 to R195). -/
def KeepsOrRaisesOwn (i : Instr) (s t : State) : Prop :=
  t.fcode = s.fcode ∨
    (i = .frame ∧ t.fcode = .cfg) ∨
    ((∃ k, i = .rdalloc k) ∧ (t.fcode = .eod ∨ t.fcode = .fmt)) ∨
    ((∃ k, i = .rdscf k ∨ i = .rdsmp k) ∧ t.fcode = .eod)

/-- The sequencer's move at the end of a pass leaves the fault record alone (R13). -/
@[simp] theorem advance_fcode (next : Phase) (s : State) : (advance next s).fcode = s.fcode := by
  rw [advance_eq, State.setSeq_fcode]

/-- RDALLOC's loop raises EOD or FMT, or goes on with FCODE as it was (R111, R112). -/
theorem fcode_rdallocLoop (n : Nat) (k : BitVec 5) (s : State) :
    (forChannels n (rdallocChannel Config.cfg k) s).Sat (fun m => m.fcode = s.fcode)
      (KeepsOrRaisesOwn (.rdalloc k) s) := by
  have hfault {f : FaultCode} (hf : f = .eod ∨ f = .fmt) (m : State) (cmd : Word) :
      KeepsOrRaisesOwn (.rdalloc k) s (takeFault f cmd m) := .inr (.inr (.inl ⟨⟨k, rfl⟩, hf⟩))
  refine sat_forChannels rfl fun c m _ hm => sat_rdallocChannel (fun _ => hfault (.inl rfl) _ _) ?_
  rintro - a m' - rfl
  exact ⟨fun _ => hm, fun _ => hfault (.inr rfl) _ _⟩

/-- RDSCF's loop raises EOD, or goes on with FCODE as it was (R114). -/
theorem fcode_rdscfLoop (n : Nat) (k : BitVec 5) (s : State) :
    (forChannels n (rdscfChannel Config.cfg k) s).Sat (fun m => m.fcode = s.fcode)
      (KeepsOrRaisesOwn (.rdscf k) s) :=
  sat_forChannels rfl fun _ _ _ hm =>
    sat_rdscfChannel (fun _ => hm) (fun _ => .inr (.inr (.inr ⟨⟨k, .inl rfl⟩, rfl⟩))) fun _ _ _ _ => hm

/-- RDSMP's loop raises EOD, or goes on with FCODE as it was (R117). -/
theorem fcode_rdsmpLoop (n : Nat) (k : BitVec 5) (s : State) :
    (forChannels n (rdsmpChannel Config.cfg k) s).Sat (fun m => m.fcode = s.fcode)
      (KeepsOrRaisesOwn (.rdsmp k) s) :=
  sat_forChannels rfl fun _ _ _ hm =>
    sat_rdsmpChannel (fun _ => hm) (.inr (.inr (.inr ⟨⟨k, .inr rfl⟩, rfl⟩))) fun _ _ _ _ _ _ _ => hm

/-- The last check (R198): an accepted command raises no fault but its own. -/
theorem keepsOrRaisesOwn_of_accepts {i : Instr} {s t : State} (hwf : i.wellFormed = true) (hphase : s.phase ≠ .faulted)
    (haccepts : Accepts s i) (h : exec i s = .next t) : KeepsOrRaisesOwn i s t := by
  obtain ⟨t', ht', hcode⟩ : ∃ t', exec i s = .next t' ∧ KeepsOrRaisesOwn i s t' := by
    apply exec_sat i s
    case hsticky => exact fun hfaulted => absurd hfaulted hphase
    case hill => exact fun hill => absurd (hwf.symm.trans hill) (by decide)
    case hseq => exact fun _ hnot => absurd haccepts hnot
    case hnop => exact fun _ => .inl rfl
    case hcsr => exact fun _ _ => .inl rfl
    case hsetup => exact fun _ _ _ _ _ => .inl rfl
    case hframe => exact fun hi _ => sat_frameBody (.inr (.inl ⟨hi, rfl⟩)) fun _ _ => .inl rfl
    case hsfsel => exact fun _ _ => .inl rfl
    case hgate => exact fun _ _ => .inl rfl
    case hrdalloc =>
      rintro k rfl - -
      exact (fcode_rdallocLoop _ k s).mono (fun m hm => .inl ((advance_fcode _ m).trans hm)) fun _ hm => hm
    case hrdscf =>
      rintro k rfl - -
      exact (fcode_rdscfLoop _ k s).mono (fun m hm => .inl ((advance_fcode _ m).trans hm)) fun _ hm => hm
    case hrdsmp =>
      rintro k rfl - -
      exact (fcode_rdsmpLoop _ k s).mono (fun m hm => .inl ((advance_fcode _ _).trans hm)) fun _ hm => hm
    case hput =>
      intro k _ _ _
      rw [injectAll_eq]
      exact .inl (advance_fcode _ _)
    case hcalc =>
      intro f m _ _ hm
      rw [calcBody_eq] at hm
      cases hm
      exact .inl rfl
  rw [ht'] at h
  cases h
  exact hcode

/-- Settles O14: NOP and RDCSR only answer, FAULTED is terminal, then ILL, then SEQ, then the command's own faults. -/
theorem checksGoInOrder : Obligations.ChecksGoInOrder := by
  intro s t w rest hpending h
  have hrun {i : Instr} (hdecode : decode w = .ok i) : exec i { s with pending := rest } = .next t :=
    (stepRunsTheDecodedCommand.1 s w rest i hpending hdecode).symm.trans h
  have hwf {i : Instr} (hdecode : decode w = .ok i) : i.wellFormed = true :=
    ((decodedWordIsTheEncoding w i).mp hdecode).1
  refine ⟨?_, fun hfaulted => ?_, fun e hphase hdecode => ?_, fun i hphase hdecode hnot => ?_,
    fun i hphase hdecode haccepts => ?_⟩
  · rintro (hdecode | ⟨a, hdecode⟩) <;> cases hrun hdecode <;> exact ⟨rfl, rfl⟩
  · obtain ⟨-, hkept, -⟩ := faultedIsTerminal
    obtain ⟨hphase, hcode, -⟩ := hkept s t h hfaulted (by simp [hpending])
    exact ⟨hcode, hphase.trans hfaulted.symm⟩
  · rw [illegalWordRaisesIll s w rest e hpending hdecode hphase] at h
    cases h; rfl
  · cases (exec_of_not_accepts (s := { s with pending := rest }) (hwf hdecode) hphase hnot).symm.trans (hrun hdecode)
    rfl
  · exact keepsOrRaisesOwn_of_accepts (s := { s with pending := rest }) (hwf hdecode) hphase haccepts (hrun hdecode)

end Sys2Proof.Machine
end

section
/-! The family 70_reset_and_hazards: the reset input (R220, R221), what only reset and CALC undo (R220), and the host's
liberties at the ports (R228). -/

namespace Sys2Proof.Machine

open Sys2Proof.Claims

/-! ### What a step without the reset input can do to the block -/

/-- At the ports a move of the host reaches the environment only (R228). -/
theorem runMove_port {m : HostMove} {s t : State} (hcommand : ∀ w, m ≠ .command w) (hreset : m ≠ .reset)
    (h : runMove m s = .next t) : t = { s with env := t.env } := by
  cases m with
  | command w => exact absurd rfl (hcommand w)
  | reset => exact absurd rfl hreset
  | consumeSink => cases h; rfl
  | _ =>
    simp only [runMove, hostSetStream, hostSetHeader, hostSetCkvalid, hostSetCrc, hostTouchCrc] at h
    split at h <;> cases h
    rfl

/-- What a step leaves of the block where no command runs and no reset is taken: the filters, and PHASE unless an
illegal word makes it FAULTED. -/
structure IdleStep (s t : State) : Prop where
  filters : t.filters = s.filters
  phase : t.phase = s.phase ∨ t.phase = .faulted

/-- An illegal word at most raises ILL, which leaves the filters (R191, R196). -/
theorem idleStep_illegalWord (w : Word) (s : State) : IdleStep s (illegalWord w s) := by
  unfold illegalWord
  split
  · exact ⟨rfl, .inl rfl⟩
  · exact ⟨rfl, .inr rfl⟩

/-- Without the reset input a step runs the decoded command, or is an `IdleStep`. -/
theorem step_cases_of_no_reset {s t : State} (hreset : ¬ ∃ rest, s.pending = .reset :: rest) (h : step s = .next t) :
    (∃ w i rest, s.pending = .command w :: rest ∧ decode w = .ok i ∧ exec i { s with pending := rest } = .next t) ∨
      IdleStep s t := by
  obtain ⟨-, rfl⟩ | ⟨m, rest, hpending, hmove⟩ := step_cases h
  · exact .inr ⟨rfl, .inl rfl⟩
  by_cases hm : ∃ w, m = .command w
  · obtain ⟨w, rfl⟩ := hm
    cases hdecode : decode w with
    | ok i => exact .inl ⟨w, i, rest, hpending, hdecode, (runMove_command_of_decode hdecode _).symm.trans hmove⟩
    | error e =>
      cases (runMove_command_of_error hdecode _).symm.trans hmove
      exact .inr { idleStep_illegalWord w { s with pending := rest } with }
  · have hm' : m ≠ .reset := by rintro rfl; exact hreset ⟨rest, hpending⟩
    rw [runMove_port (fun w hw => hm ⟨w, hw⟩) hm' hmove]
    exact .inr ⟨rfl, .inl rfl⟩

/-- No command leads back to UNCONF (R29, R220). -/
theorem Effect.phase_ne_unconf {i : Instr} {s u : State} (h : Effect s i u) (hs : s.phase ≠ .unconf) :
    u.phase ≠ .unconf := by
  cases h with
  | none => exact hs
  | frame => rw [startFrame_eq]; dsimp only; split <;> decide
  | gate => rw [State.setSeq_phase]; split <;> decide
  | rdalloc | rdscf | rdsmp | put => rw [State.setSeq_phase, passPhase]; split <;> decide
  | calcPcm f => rw [State.setSeq_phase, calcNext]; split_ifs <;> decide
  | _ => simp

/-- Settles O10: what a step does without the reset input, FAULTED being terminal and CALC the writer of a history. -/
theorem onlyResetUndoes : Obligations.OnlyResetUndoes := by
  intro s t h
  by_cases hreset : ∃ rest, s.pending = .reset :: rest
  · exact ⟨fun _ _ => hreset, fun _ _ => hreset, fun _ => .inl hreset⟩
  refine ⟨fun hfaulted hleft => absurd ?_ hleft, fun hs ht => absurd ht ?_, fun ⟨f, hhist⟩ => .inr ?_⟩
  · obtain ⟨-, hterminal, -⟩ := faultedIsTerminal
    exact (hterminal s t h hfaulted fun rest hrest => hreset ⟨rest, hrest⟩).1
  · obtain ⟨w, i, rest, -, -, hexec⟩ | hidle := step_cases_of_no_reset hreset h
    · obtain ⟨u, hu, heq⟩ := ends_of_exec hexec
      rw [heq]
      exact hu.phase_ne_unconf hs
    · obtain hphase | hphase := hidle.phase <;> simp [hphase, hs]
  · obtain ⟨w, i, rest, hpending, hdecode, hexec⟩ | hidle := step_cases_of_no_reset hreset h
    · by_cases hi : ∃ g, i = .calcPcm g
      · obtain ⟨g, rfl⟩ := hi
        exact ⟨w, g, rest, hpending, hdecode⟩
      · exact absurd (filtersHaveTheirWriters i _ t hexec f fun g hg => absurd ⟨g, hg⟩ hi).1 hhist
    · exact absurd (congrArg SynFilter.hist (State.filter_congr hidle.filters f)) hhist

/-! ### The reset input (R220, R221) -/

/-- Settles O9: the step on the reset input is `blockReset`. -/
theorem resetLeavesTheEnvironment : Obligations.ResetLeavesTheEnvironment :=
  fun _ _ hpending => step_of_pending_cons hpending

/-- Settles O60: the table speaks of neither the environment nor the queue, so it holds after the step as it does of
`State.reset`. -/
theorem resetInputGivesTheTable : Obligations.ResetInputGivesTheTable :=
  fun s rest hpending => ⟨_, resetLeavesTheEnvironment s rest hpending, resetValues, rfl, rfl⟩

/-! ### The host's liberties (R228) -/

theorem betweenFrames_iff {p : Phase} : betweenFrames p = true ↔ p = .unconf ∨ p = .idle := by
  simp [betweenFrames]

theorem beforeGate_iff {p : Phase} : beforeGate p = true ↔ p ∈ [Phase.unconf, .idle, .alloc, .sfsel, .gate] := by
  simp [beforeGate, betweenFrames_iff, or_assoc]

/-- Settles O7: each move looks at PHASE through `betweenFrames` or `beforeGate`, and taking from the sink not at all. -/
theorem hostMovesKeepTheDuties : Obligations.HostMovesKeepTheDuties := by
  intro s rest
  refine ⟨fun bits h => ?_, fun header h => ?_, fun v h => ?_, fun p h => ?_, fun h => ?_, fun h => ?_⟩ <;>
    rw [step_of_pending_cons h]
  · simp only [runMove, hostSetStream, betweenFrames_iff]
  · simp only [runMove, hostSetHeader, betweenFrames_iff]
  · simp only [runMove, hostSetCkvalid, beforeGate_iff]
  · simp only [runMove, hostSetCrc, betweenFrames_iff]
  · simp only [runMove, hostTouchCrc, betweenFrames_iff]
  · rfl

end Sys2Proof.Machine
end
